-- ==== Sys2Proof/Word.lean ====
section
/-! DEFINITION. The one word of the block: 32 bits, which hold a binary32 value or a command header
(spec 00 R8, R13; 30 R61). -/

namespace Sys2Proof

/-- A 32-bit word, bit 0 least significant (00 R13). -/
abbrev Word := BitVec 32

end Sys2Proof
end

