-- ==== Sys2Proof/Syntax.lean ====
section
/-! DEFINITION. Commands: the six words of the command channel (30 R61) and the ten commands (30 R66). -/

namespace Sys2Proof

/-- A biquad instance (10 R20): `HP` = 0, `LP` = 1. -/
inductive Inst where
  | hp
  | lp
deriving DecidableEq, Repr

/-- The six words `CW0 .. CW5` of one command (30 R61). -/
structure Command where
  cw0 : Word
  cw1 : Word
  cw2 : Word
  cw3 : Word
  cw4 : Word
  cw5 : Word
deriving DecidableEq, Repr

/-- The ten commands with the operands each reads, in the order of 30 R66. Every operand is one whole binary32 word
and every bit pattern is legal (30 R64). -/
inductive Instr where
  | maplin (raw rawMin rawMax outMin outMax : Word)
  | nn2hz (nn : Word)
  | lpfreq (baseHz widthHz : Word)
  | chp (freqHz q sampleRateHz : Word)
  | clp (freqHz q sampleRateHz : Word)
  | bqset (i : Inst) (b0 b1 b2 a1 a2 : Word)
  | bqtick (i : Inst) (x : Word)
  | lforate (hz : Word)
  | lfotick
  | render
deriving DecidableEq, Repr

/-- One row of the opcode table in match and mask terms on `CW0` (30 R67). -/
structure OpcodeRow where
  mnemonic : String
  pattern : Word
  mask : Word
deriving DecidableEq, Repr

/-- The opcode table (30 R66, R67). -/
def opcodeTable : List OpcodeRow :=
  [⟨"MAPLIN", 0x10#32, 0xFFFFFFFF#32⟩, ⟨"NN2HZ", 0x11#32, 0xFFFFFFFF#32⟩, ⟨"LPFREQ", 0x12#32, 0xFFFFFFFF#32⟩,
   ⟨"CHP", 0x20#32, 0xFFFFFFFF#32⟩, ⟨"CLP", 0x21#32, 0xFFFFFFFF#32⟩,
   ⟨"BQSET", 0x30#32, 0xFFFFFEFF#32⟩, ⟨"BQTICK", 0x31#32, 0xFFFFFEFF#32⟩,
   ⟨"LFORATE", 0x40#32, 0xFFFFFFFF#32⟩, ⟨"LFOTICK", 0x41#32, 0xFFFFFFFF#32⟩, ⟨"RENDER", 0x50#32, 0xFFFFFFFF#32⟩]

/-- `CW0` matches the row (30 R67). -/
def OpcodeRow.hits (r : OpcodeRow) (h : Word) : Bool := h &&& r.mask == r.pattern

/-- The row's mnemonic of an instruction (30 R66). -/
def Instr.mnemonic : Instr → String
  | .maplin .. => "MAPLIN"
  | .nn2hz .. => "NN2HZ"
  | .lpfreq .. => "LPFREQ"
  | .chp .. => "CHP"
  | .clp .. => "CLP"
  | .bqset .. => "BQSET"
  | .bqtick .. => "BQTICK"
  | .lforate .. => "LFORATE"
  | .lfotick => "LFOTICK"
  | .render => "RENDER"

end Sys2Proof
end

