-- ==== Sys2Proof/WellFormed.lean ====
section
/-! DEFINITION. Which command words are well formed (30 R67, R69), check by check. A term of `Instr` needs no check of its
own: its instance is one of two and every operand bit pattern is legal (30 R64). -/

namespace Sys2Proof

/-- `CW0[31:9]` is zero (30 R61, R67). -/
def Command.reservedZero (c : Command) : Bool := c.cw0 >>> 9 == 0#32

/-- `CW0[7:0]` is an opcode of the table (30 R66, R69). -/
def Command.opcodeAssigned (c : Command) : Bool := opcodeTable.any fun r => r.pattern == c.cw0 &&& 0xFF#32

/-- `CW0[8]` is zero unless the opcode is of format I (30 R61, R62). -/
def Command.instAllowed (c : Command) : Bool :=
  !c.cw0.getLsbD 8 || c.cw0 &&& 0xFF#32 == 0x30#32 || c.cw0 &&& 0xFF#32 == 0x31#32

/-- The command is not illegal (30 R67, R69). -/
def Command.wellFormed (c : Command) : Bool := c.reservedZero && c.opcodeAssigned && c.instAllowed

end Sys2Proof
end

