-- ==== Sys2Proof/Decode.lean ====
section
/-! DEFINITION. Decoding of a command's six words, total, with a named reason for every illegal header (30 R67, R69), and
the encoder written from the same table (30 R62, R66). -/

namespace Sys2Proof

/-- Why a header is illegal (30 R69). The three causes give one status and no command can tell them apart (60 R145). -/
inductive DecodeError where
  /-- `CW0[31:9]` is not zero. -/
  | reservedBits
  /-- `CW0[7:0]` is one of the 246 unassigned opcode bytes. -/
  | unassignedOpcode
  /-- `CW0[8]` is 1 with a format U opcode. -/
  | instOnFormatU
deriving DecidableEq, Repr

namespace Decode

/-- The opcode field `CW0[7:0]` (30 R61). -/
def op (h : Word) : BitVec 8 := h.extractLsb' 0 8

/-- The instance the `inst` bit `CW0[8]` selects (30 R61, R64). -/
def inst (h : Word) : Inst := if h.getLsbD 8 then .lp else .hp

/-- A format U row: `inst` must be 0 (30 R67). -/
def formatU (h : Word) (i : Instr) : Except DecodeError Instr :=
  if h.getLsbD 8 then .error .instOnFormatU else .ok i

/-- The header word `{23'b0, inst, op}` (30 R62). -/
def header (inst : Bool) (op : BitVec 8) : Word := 0#23 ++ (BitVec.ofBool inst ++ op)

/-- The `inst` bit of an instance (30 R61). -/
def instBit : Inst → Bool
  | .hp => false
  | .lp => true

end Decode

/-- The command a header and its operand words stand for, or why it is illegal (30 R64, R66, R67). Operand words the
command does not take are ignored (30 R61). -/
def decode (c : Command) : Except DecodeError Instr :=
  if c.cw0 >>> 9 ≠ 0#32 then .error .reservedBits
  else if Decode.op c.cw0 = 0x10#8 then Decode.formatU c.cw0 (.maplin c.cw1 c.cw2 c.cw3 c.cw4 c.cw5)
  else if Decode.op c.cw0 = 0x11#8 then Decode.formatU c.cw0 (.nn2hz c.cw1)
  else if Decode.op c.cw0 = 0x12#8 then Decode.formatU c.cw0 (.lpfreq c.cw1 c.cw2)
  else if Decode.op c.cw0 = 0x20#8 then Decode.formatU c.cw0 (.chp c.cw1 c.cw2 c.cw3)
  else if Decode.op c.cw0 = 0x21#8 then Decode.formatU c.cw0 (.clp c.cw1 c.cw2 c.cw3)
  else if Decode.op c.cw0 = 0x30#8 then .ok (.bqset (Decode.inst c.cw0) c.cw1 c.cw2 c.cw3 c.cw4 c.cw5)
  else if Decode.op c.cw0 = 0x31#8 then .ok (.bqtick (Decode.inst c.cw0) c.cw1)
  else if Decode.op c.cw0 = 0x40#8 then Decode.formatU c.cw0 (.lforate c.cw1)
  else if Decode.op c.cw0 = 0x41#8 then Decode.formatU c.cw0 .lfotick
  else if Decode.op c.cw0 = 0x50#8 then Decode.formatU c.cw0 .render
  else .error .unassignedOpcode

/-- The six words of an instruction (30 R62, R64, R66). Operand words it does not take are written as zero. -/
def encode : Instr → Command
  | .maplin raw rawMin rawMax outMin outMax => ⟨Decode.header false 0x10#8, raw, rawMin, rawMax, outMin, outMax⟩
  | .nn2hz nn => ⟨Decode.header false 0x11#8, nn, 0#32, 0#32, 0#32, 0#32⟩
  | .lpfreq baseHz widthHz => ⟨Decode.header false 0x12#8, baseHz, widthHz, 0#32, 0#32, 0#32⟩
  | .chp freqHz q fs => ⟨Decode.header false 0x20#8, freqHz, q, fs, 0#32, 0#32⟩
  | .clp freqHz q fs => ⟨Decode.header false 0x21#8, freqHz, q, fs, 0#32, 0#32⟩
  | .bqset i b0 b1 b2 a1 a2 => ⟨Decode.header (Decode.instBit i) 0x30#8, b0, b1, b2, a1, a2⟩
  | .bqtick i x => ⟨Decode.header (Decode.instBit i) 0x31#8, x, 0#32, 0#32, 0#32, 0#32⟩
  | .lforate hz => ⟨Decode.header false 0x40#8, hz, 0#32, 0#32, 0#32, 0#32⟩
  | .lfotick => ⟨Decode.header false 0x41#8, 0#32, 0#32, 0#32, 0#32, 0#32⟩
  | .render => ⟨Decode.header false 0x50#8, 0#32, 0#32, 0#32, 0#32, 0#32⟩

/-- How many of the five operand words an instruction takes (30 R66, column operands). -/
def Instr.operandCount : Instr → Nat
  | .maplin .. => 5
  | .nn2hz .. => 1
  | .lpfreq .. => 2
  | .chp .. => 3
  | .clp .. => 3
  | .bqset .. => 5
  | .bqtick .. => 1
  | .lforate .. => 1
  | .lfotick => 0
  | .render => 0

/-- The command whose bits are `w`, `CW0` in bits 31..0, `CW1` in bits 63..32 and so on, every bit from `nbits` up being
zero. -/
def Command.ofTableWord (nbits w : Nat) : Command :=
  let v := w % 2 ^ nbits
  ⟨BitVec.ofNat 32 v, BitVec.ofNat 32 (v / 2 ^ 32), BitVec.ofNat 32 (v / 2 ^ 64),
   BitVec.ofNat 32 (v / 2 ^ 96), BitVec.ofNat 32 (v / 2 ^ 128), BitVec.ofNat 32 (v / 2 ^ 160)⟩

/-- What the decoder reads from a row's word (`none` where it refuses). -/
def decodeTableWord (nbits w : Nat) : Option Instr :=
  match decode (Command.ofTableWord nbits w) with
  | .ok i => some i
  | .error _ => none

end Sys2Proof
end

