-- ==== Sys2Proof/Config.lean ====
section
/-! DEFINITION. What is fixed for one block: the numeric record NUM (00 R8 to R10), the parameter record CFG
(00 R12, 10 R29), and the free values, opaque constants of which nothing is known. -/

namespace Sys2Proof

/-- The numeric record NUM of 00 R9: one type `F` with its operations. The machine uses it at binary32; the claims
about the formulas also read it at the reals. -/
structure Num (F : Type) where
  zero : F
  one : F
  two : F
  negTwo : F
  /-- `TWO_PI` of 00 R12. -/
  twoPi : F
  add : F → F → F
  sub : F → F → F
  mul : F → F → F
  div : F → F → F
  floor : F → F
  exp2 : F → F
  sin : F → F
  cos : F → F
  lt : F → F → Bool
  le : F → F → Bool

/-- The ordered 5-tuple (b0, b1, b2, a1, a2) of one filter (10 R20). -/
structure Coeffs (F : Type) where
  b0 : F
  b1 : F
  b2 : F
  a1 : F
  a2 : F
deriving DecidableEq, Repr

/-- The parameter `LFO_WAVE` of 00 R12 as plain data: the default sine, or another waveform, an open function
that `Config.otherWave` numbers (log 10). -/
inductive LfoWave where
  | sine
  | other (n : Nat)
deriving DecidableEq, Repr

/-- The parameter `MODFN` of 00 R12 and 44 R126 as plain data: the default `(f, m) ↦ f`, or another modulation, an
open function that `Config.otherMod` numbers (log 10). -/
inductive ModFn where
  | keepBase
  | other (n : Nat)
deriving DecidableEq, Repr

/-- The parameter record CFG of 00 R12 (fields c0 to c7 of 10 R29, and `LFO_WAVE`, `MODFN`, `COEF_RESET`, and `EPS_T` of the
numeric record NUM). It is sampled when reset is released (70 R160) and no command writes it. `fsLfo` is not the host's to choose:
sampling computes it from `fs` and `k` (00 R12, `Cfg.sampled`). -/
structure Cfg where
  fs : Word
  nch : Nat
  nf : Nat
  k : Nat
  fsLfo : Word
  lfoWire : Bool
  rawMin : Word
  rawMax : Word
  nnLo : Word
  nnHi : Word
  nnRef : Word
  fRef : Word
  semis : Word
  qLo : Word
  qHi : Word
  wLo : Word
  wHi : Word
  lpCeil : Word
  lfoWave : LfoWave
  modFn : ModFn
  coefReset : Coeffs Word
  /-- `EPS_T`, the error bound of property P5 (00 R10; log 3). -/
  epsT : ℚ
deriving DecidableEq, Repr

namespace Config

/-- `NCTRL`, the raw readings of one control tick (00 R12). -/
abbrev nctrl : Nat := 3

/-- `TWO_PI` as a binary32 word (00 R12). -/
abbrev twoPi : Word := 0x40C90FDB#32

/-- The default of `EPS_T`, 2^-22 (00 R10), its numerator and denominator written out. -/
def epsT : ℚ := ⟨1, 4194304, by norm_num, by norm_num⟩

/-- FREE VALUE: the bits of the n-th NaN result (30 R65, log 2). -/
opaque nanDraw : Nat → Word

/-- FREE VALUE: whether the k-th port event of an abandoned command, a write to `AOUT`, had already happened when `rst` came, at a
count of draws (70 R162, 93 U6, log 14). -/
opaque landed : Nat → Nat → Bool

/-- FREE VALUE: what the block's `EXP2` answers, before properties P1, P2, P5 are imposed (00 R10, log 3). -/
opaque exp2Raw : Word → Word

/-- FREE VALUE: what the block's `SIN` answers, before properties P3 to P5 are imposed (00 R10, log 3). -/
opaque sinRaw : Word → Word

/-- FREE VALUE: what the block's `COS` answers, before properties P3 to P5 are imposed (00 R10, log 3). -/
opaque cosRaw : Word → Word

/-- FREE VALUE: how many terms of the series decide whether the block's `EXP2`, `SIN`, `COS` keep P5 at an argument (log 3). -/
opaque terms : Word → Nat

/-- FREE VALUE: a waveform other than the default (93 U4, log 10). -/
opaque otherWave : Nat → Word → Word

/-- FREE VALUE: a modulation function other than the default (93 U8, log 10). -/
opaque otherMod : Nat → Word → Word → Word

/-- FREE VALUE: `MAPLIN` with equal or non-finite raw bounds (93 U3, log 7), of raw, rawMin, rawMax, outMin, outMax. -/
opaque openMap : Word → Word → Word → Word → Word → Word

/-- FREE VALUE: b0 of `CHP` outside its contract (93 U1, log 6), of freqHz, q, sampleRateHz. -/
opaque openHighB0 : Word → Word → Word → Word

/-- FREE VALUE: b1 of `CHP` outside its contract (93 U1, log 6). -/
opaque openHighB1 : Word → Word → Word → Word

/-- FREE VALUE: b0 of `CLP` outside its contract (93 U1, log 6). -/
opaque openLowB0 : Word → Word → Word → Word

/-- FREE VALUE: b1 of `CLP` outside its contract (93 U1, log 6). -/
opaque openLowB1 : Word → Word → Word → Word

/-- FREE VALUE: a1 of `CHP` and `CLP` outside their contract (93 U1, 41 R94, log 6). -/
opaque openA1 : Word → Word → Word → Word

/-- FREE VALUE: a2 of `CHP` and `CLP` outside their contract (93 U1, 41 R94, log 6). -/
opaque openA2 : Word → Word → Word → Word

end Config

/-- The parameter record the model resets with: 00 R12's values, and for the OPEN ones those of the spec's example
program P4 (95): FS = 44100, NCH = 2, NF = 2, K = 2 (DESIGN CHOICE, log 8). FS_LFO = FS / K = 22050 (log 9), EPS_T = 2^-22. -/
def Cfg.reference : Cfg where
  fs := 0x472C4400#32
  nch := 2
  nf := 2
  k := 2
  fsLfo := 0x46AC4400#32
  lfoWire := false
  rawMin := 0x00000000#32
  rawMax := 0x3F53B646#32
  nnLo := 0x41D80000#32
  nnHi := 0x42F60000#32
  nnRef := 0x42700000#32
  fRef := 0x43DC0000#32
  semis := 0x41400000#32
  qLo := 0x3F19999A#32
  qHi := 0x40A00000#32
  wLo := 0x41A00000#32
  wHi := 0x453B8000#32
  lpCeil := 0x469B7800#32
  lfoWave := .sine
  modFn := .keepBase
  coefReset := ⟨0x3F800000#32, 0#32, 0#32, 0#32, 0#32⟩
  epsT := Config.epsT

end Sys2Proof
end

