-- ==== Sys2Proof/Machine/Binary32.lean ====
section
/-! DEFINITION. IEEE 754 binary32 arithmetic, round to nearest, ties to even, one rounding per operation, subnormals kept
(00 R8, R13; 92 D1; log 1). Every finite binary32 value is a whole number of units of 2^-149, so each operation is
done exactly in those units and rounded once. -/

namespace Sys2Proof.Binary32

/-- The sign bit, bit 31 (00 R13). -/
def signBit (w : Word) : Bool := w.getLsbD 31

/-- The biased exponent, bits 30:23 (00 R13). -/
def expo (w : Word) : Nat := w.toNat / 2 ^ 23 % 2 ^ 8

/-- The fraction, bits 22:0 (00 R13). -/
def frac (w : Word) : Nat := w.toNat % 2 ^ 23

/-- A NaN: exponent all ones, fraction not zero. -/
def isNaN (w : Word) : Bool := expo w == 255 && frac w != 0

/-- An infinity: exponent all ones, fraction zero. -/
def isInf (w : Word) : Bool := expo w == 255 && frac w == 0

/-- Neither an infinity nor a NaN. -/
def isFinite (w : Word) : Bool := expo w != 255

/-- Zero of either sign. -/
def isZero (w : Word) : Bool := expo w == 0 && frac w == 0

/-- The magnitude of a finite word in units of 2^-149. -/
def mag (w : Word) : Nat := if expo w = 0 then frac w else (2 ^ 23 + frac w) * 2 ^ (expo w - 1)

/-- The value of a finite word in units of 2^-149. -/
def units (w : Word) : Int := if signBit w then -(mag w : Int) else mag w

/-- The value of a finite word: `valF` of 00 R13. -/
def toRat (w : Word) : ℚ := units w / 2 ^ 149

/-- The word of a sign and of bits 30:0. -/
def pack (neg : Bool) (m : Nat) : Word := BitVec.ofNat 32 ((if neg then 2 ^ 31 else 0) + m)

/-- Bits 30:0 of infinity. -/
abbrev infBits : Nat := 255 * 2 ^ 23

abbrev posZero : Word := 0x00000000#32
abbrev negZero : Word := 0x80000000#32
abbrev one : Word := 0x3F800000#32
abbrev two : Word := 0x40000000#32
abbrev negTwo : Word := 0xC0000000#32
abbrev posInf : Word := 0x7F800000#32

/-- What stands for a NaN inside a formula. It never reaches a register, a port or a response: there every NaN result is a
free value (30 R65, log 2). -/
abbrev nan : Word := 0x7FC00000#32

/-- The infinity of a sign. -/
def inf (neg : Bool) : Word := pack neg infBits

/-- Nearest whole number to `num / den`, ties to even. -/
def roundDiv (num den : Nat) : Nat :=
  let q := num / den
  let r := num % den
  if den < 2 * r || (2 * r == den && q % 2 == 1) then q + 1 else q

/-- How far `num / den` units lies above the 24 bits of a significand: the unit in the last place of the result is
`2 ^ shift` units. -/
def shift (num den : Nat) : Nat := Nat.log2 (num / den) - 23

/-- Bits 30:0 of the binary32 number nearest to `num / den` units of 2^-149, infinity on overflow. A significand that
rounds up to 2^24 carries into the exponent by the addition. -/
def roundMag (num den : Nat) : Nat :=
  min (shift num den * 2 ^ 23 + roundDiv num (den * 2 ^ shift num den)) infBits

/-- The binary32 word nearest to `num / den` units of 2^-149 with the given sign. -/
def round (neg : Bool) (num den : Nat) : Word := pack neg (roundMag num den)

/-- The binary32 word nearest to a rational. -/
def ofRat (q : ℚ) : Word := round (decide (q < 0)) (q.num.natAbs * 2 ^ 149) q.den

/-- The word with its sign bit flipped. -/
def neg (w : Word) : Word := w ^^^ 0x80000000#32

/-- One rounded addition. An exact zero sum is +0, or -0 when both operands are negative zeros. -/
def add (a b : Word) : Word :=
  if isNaN a || isNaN b then nan
  else if isInf a then if isInf b && signBit a != signBit b then nan else a
  else if isInf b then b
  else if units a + units b = 0 then if signBit a && signBit b then negZero else posZero
  else round (decide (units a + units b < 0)) (units a + units b).natAbs 1

/-- One rounded subtraction. -/
def sub (a b : Word) : Word := add a (neg b)

/-- One rounded multiplication. Zero times infinity is a NaN. -/
def mul (a b : Word) : Word :=
  if isNaN a || isNaN b then nan
  else if isInf a || isInf b then if isZero a || isZero b then nan else inf (signBit a != signBit b)
  else round (signBit a != signBit b) (mag a * mag b) (2 ^ 149)

/-- One rounded division. A finite non-zero number over zero is an infinity; 0/0 and infinity/infinity are NaNs. -/
def div (a b : Word) : Word :=
  if isNaN a || isNaN b then nan
  else if isInf a then if isInf b then nan else inf (signBit a != signBit b)
  else if isInf b then pack (signBit a != signBit b) 0
  else if isZero b then if isZero a then nan else inf (signBit a != signBit b)
  else round (signBit a != signBit b) (mag a * 2 ^ 149) (mag b)

/-- One rounded division by an unsigned integer, which is not converted to `F` (00 R11, R12). -/
def divNat (a : Word) (k : Nat) : Word :=
  if isNaN a then nan
  else if isInf a then a
  else if k = 0 then div a posZero
  else round (signBit a) (mag a) k

/-- The largest integer not above the value (43 R113). Zeros and infinities are their own floor. -/
def floor (w : Word) : Word :=
  if isNaN w then nan
  else if isInf w || isZero w then w
  else round (decide (units w < 0)) ((units w / 2 ^ 149).natAbs * 2 ^ 149) 1

/-- Bits 30:0 with the sign: the order of the numbers, infinities among them, both zeros being 0. -/
def order (w : Word) : Int := if signBit w then -((w.toNat % 2 ^ 31 : Nat) : Int) else ((w.toNat % 2 ^ 31 : Nat) : Int)

/-- `a < b`; false when an operand is a NaN. -/
def lt (a b : Word) : Bool := !isNaN a && !isNaN b && decide (order a < order b)

/-- `a <= b`; false when an operand is a NaN. -/
def le (a b : Word) : Bool := !isNaN a && !isNaN b && decide (order a ≤ order b)

end Sys2Proof.Binary32

namespace Sys2Proof

/-- The record as reset samples it: `FS_LFO = FS / K` is computed once, in `F` (00 R12, 43 R115; 90 C1; log 9). -/
def Cfg.sampled (c : Cfg) : Cfg := { c with fsLfo := Binary32.divNat c.fs c.k }

end Sys2Proof
end

