-- ==== Sys2Proof/Machine/Elementary.lean ====
section
/-! DEFINITION. The open functions EXP2, SIN, COS of NUM (00 R10; log 3, 4, 5). What the block answers is a free value of
Config, kept where properties P1 to P5 hold of it. P5 is decided by a finite sum of the function's series and a bound on the rest of
the series: the number of terms is a free value too, so every answer closer than `EPS_T` to the function is possible and none
farther. -/

namespace Sys2Proof.Elementary

open Binary32

/-- The first `n` terms of the exponential series. -/
def expSum (n : Nat) (x : ℚ) : ℚ := ∑ k ∈ Finset.range n, x ^ k / k.factorial

/-- The first `n` terms of the sine series. -/
def sinSum (n : Nat) (x : ℚ) : ℚ := ∑ k ∈ Finset.range n, (-1) ^ k * x ^ (2 * k + 1) / (2 * k + 1).factorial

/-- The first `n` terms of the cosine series. -/
def cosSum (n : Nat) (x : ℚ) : ℚ := ∑ k ∈ Finset.range n, (-1) ^ k * x ^ (2 * k) / (2 * k).factorial

/-- The natural logarithm of 2 from below, less than 2^-n off. -/
def ln2 (n : Nat) : ℚ := ∑ k ∈ Finset.range n, 1 / ((k + 1) * 2 ^ (k + 1))

/-- A bound on what `sinSum n` leaves out. -/
def sinRest (n : Nat) (x : ℚ) : ℚ := |x| ^ (2 * n + 1) / (2 * n + 1).factorial

/-- A bound on what `cosSum n` leaves out. -/
def cosRest (n : Nat) (x : ℚ) : ℚ := |x| ^ (2 * n) / (2 * n).factorial

/-- 2 to the power of a fraction in [0, 1), from below. -/
def exp2Sum (n : Nat) (f : ℚ) : ℚ := expSum n (f * ln2 n)

/-- A bound on what `exp2Sum n` leaves out: the rest of the exponential series, and the logarithm's. -/
def exp2Rest (n : Nat) (f : ℚ) : ℚ := 2 * (f ^ n / n.factorial) + 2 * f / 2 ^ n

/-- P5's range of `SIN` and `COS`, [0, 2*pi]: no binary32 number lies between 2*pi and the decimal used. -/
def inTurn (x : Word) : Bool := decide (0 ≤ toRat x ∧ toRat x ≤ 62831854 / 10000000)

/-- P5's range of `EXP2`, [-8, 8]. -/
def inOctaves (x : Word) : Bool := decide (-8 ≤ toRat x ∧ toRat x ≤ 8)

/-- `r` is `SIN(x)` to within `eps`, as `n` terms show it (P5). -/
def sinNear (n : Nat) (eps : ℚ) (x r : Word) : Bool :=
  decide (|toRat r - sinSum n (toRat x)| + sinRest n (toRat x) ≤ eps)

/-- `r` is `COS(x)` to within `eps`, as `n` terms show it (P5). -/
def cosNear (n : Nat) (eps : ℚ) (x r : Word) : Bool :=
  decide (|toRat r - cosSum n (toRat x)| + cosRest n (toRat x) ≤ eps)

/-- `r` is `EXP2(x)` to within the relative error `eps`, as `n` terms of the fraction's power show it (P5). -/
def exp2Near (n : Nat) (eps : ℚ) (x r : Word) : Bool :=
  let whole : ℚ := 2 ^ ⌊toRat x⌋
  let f := Int.fract (toRat x)
  decide (|toRat r - whole * exp2Sum n f| + whole * exp2Rest n f ≤ eps * (whole * exp2Sum n f))

/-- `r` may be `SIN(x)`, for an `x` that is no NaN: P3, P4, P5. -/
def sinOk (n : Nat) (eps : ℚ) (x r : Word) : Bool :=
  isFinite r && decide (|toRat r| ≤ 1) && (!isZero x || isZero r) && (!inTurn x || sinNear n eps x r)

/-- `r` may be `COS(x)`, for an `x` that is no NaN: P3, P5. -/
def cosOk (n : Nat) (eps : ℚ) (x r : Word) : Bool :=
  isFinite r && decide (|toRat r| ≤ 1) && (!inTurn x || cosNear n eps x r)

/-- `r` may be `EXP2(x)`: P2 and P5 on [-8, 8], and beyond the number range the overflow and underflow of 40 R84 (log 4). Elsewhere
any word. -/
def exp2Ok (n : Nat) (eps : ℚ) (x r : Word) : Bool :=
  if isFinite x && inOctaves x then
    isFinite r && exp2Near n eps x r && (x != one || decide (|toRat r - 2| ≤ 2 / 1000000))
  else if le 0x43000000#32 x then le 0x7F000000#32 r
  else if le x 0xC3160000#32 then le posZero r && le r 0x00000001#32
  else true

/-- The rational brought into [-1, 1]. -/
def unitClamp (q : ℚ) : ℚ := max (-1) (min 1 q)

/-- The series' own `SIN(x)`, rounded, where the free value keeps the properties not. -/
def sinSeries (x : Word) : Word := if inTurn x then ofRat (unitClamp (sinSum 24 (toRat x))) else posZero

/-- The series' own `COS(x)`, rounded, where the free value keeps the properties not. -/
def cosSeries (x : Word) : Word := if inTurn x then ofRat (unitClamp (cosSum 24 (toRat x))) else posZero

/-- The series' own `EXP2(x)`, rounded, where the free value keeps the properties not. -/
def exp2Series (x : Word) : Word :=
  if isFinite x && inOctaves x then ofRat (2 ^ ⌊toRat x⌋ * exp2Sum 48 (Int.fract (toRat x)))
  else if signBit x then posZero else posInf

/-- `SIN` of NUM with the bound `eps` (00 R10): P4 at zero, a NaN for a NaN (41 R95 (h)). -/
def sin (eps : ℚ) (x : Word) : Word :=
  if isNaN x then nan
  else if x = posZero then posZero
  else if sinOk (Config.terms x) eps x (Config.sinRaw x) then Config.sinRaw x else sinSeries x

/-- `COS` of NUM with the bound `eps` (00 R10): P4 at zero, a NaN for a NaN (41 R95 (h)). -/
def cos (eps : ℚ) (x : Word) : Word :=
  if isNaN x then nan
  else if isZero x then one
  else if cosOk (Config.terms x) eps x (Config.cosRaw x) then Config.cosRaw x else cosSeries x

/-- `EXP2` of NUM with the bound `eps` (00 R10): P1 at zero, a NaN for a NaN (40 R84). -/
def exp2 (eps : ℚ) (x : Word) : Word :=
  if isNaN x then nan
  else if isZero x then one
  else if exp2Ok (Config.terms x) eps x (Config.exp2Raw x) then Config.exp2Raw x else exp2Series x

end Sys2Proof.Elementary

namespace Sys2Proof

/-- NUM at binary32 with the bound `EPS_T` (00 R8, R10): the machine's own arithmetic. -/
def Num.binary32 (eps : ℚ) : Num Word where
  zero := Binary32.posZero
  one := Binary32.one
  two := Binary32.two
  negTwo := Binary32.negTwo
  twoPi := Config.twoPi
  add := Binary32.add
  sub := Binary32.sub
  mul := Binary32.mul
  div := Binary32.div
  floor := Binary32.floor
  exp2 := Elementary.exp2 eps
  sin := Elementary.sin eps
  cos := Elementary.cos eps
  lt := Binary32.lt
  le := Binary32.le

/-- The numeric record of a block (00 R12, row `NUM`). -/
abbrev Cfg.num (c : Cfg) : Num Word := Num.binary32 c.epsT

end Sys2Proof
end

