-- ==== Sys2Proof/Machine/Memory.lean ====
section
/-! DEFINITION. A port space (20 R40): elements of 32 bits by index, in one canonical form, so that equal contents are equal
data (log 12). The block has no other memory. -/

namespace Sys2Proof.Machine

/-- The listed elements of a port space: indices strictly rising, no entry equal to what an unlisted index reads as. -/
abbrev Memory := List (Nat × Word)

namespace Memory

/-- What an unlisted element reads as (DESIGN CHOICE, log 12). -/
def unlisted : Word := 0#32

/-- `MemRead`: one whole element (00 R14, 20 R46). -/
def read : Memory → Nat → Word
  | [], _ => unlisted
  | (b, w) :: m, a => if a = b then w else read m a

/-- `MemWrite`: one whole element (00 R14, 20 R46). -/
def write : Memory → Nat → Word → Memory
  | [], a, v => if v = unlisted then [] else [(a, v)]
  | (b, w) :: m, a, v =>
    if a < b then if v = unlisted then (b, w) :: m else (a, v) :: (b, w) :: m
    else if a = b then if v = unlisted then m else (a, v) :: m
    else (b, w) :: write m a v

/-- The canonical form from index `lo` up. -/
def wfFrom : Nat → Memory → Bool
  | _, [] => true
  | lo, (b, w) :: m => decide (lo ≤ b) && w != unlisted && wfFrom (b + 1) m

/-- The canonical form. -/
def wf (m : Memory) : Bool := wfFrom 0 m

end Memory

end Sys2Proof.Machine
end

