-- ==== Sys2Proof/Machine/State.lean ====
section
/-! DEFINITION. The machine's state as plain data: the 21 registers (10 R20, R24, R26), the parameter record (10 R29), the
ports and the two channels (20 R40, 30 R60), and the state after reset (10 R32, 70 R160). -/

namespace Sys2Proof.Machine

/-- The delay line of one biquad: the previous two inputs and the previous two outputs (10 R20, R21). -/
structure Delay (F : Type) where
  x1 : F
  x2 : F
  y1 : F
  y2 : F
deriving DecidableEq, Repr

/-- One biquad instance: five coefficient registers and four delay-line registers (10 R20). -/
structure Biquad where
  coeffs : Coeffs Word
  delay : Delay Word
deriving DecidableEq, Repr

/-- The LFO's two registers (10 R24). -/
structure Lfo where
  phase : Word
  rate : Word
deriving DecidableEq, Repr

/-- The input port spaces of one block, as the host presents them (20 R40, R49). -/
structure BlockInputs where
  ain : Memory
  cin : Memory
  swin : Bool
deriving DecidableEq, Repr

/-- One port event (00 R15): a read with the value the host supplied, or a write with the value written. -/
inductive PortEvent where
  | readSwin (idx : Nat) (b : Bool)
  | writeIndOut (idx : Nat) (b : Bool)
  | readCin (idx : Nat) (v : Word)
  | readAin (idx : Nat) (v : Word)
  | writeAout (idx : Nat) (v : Word)
deriving DecidableEq, Repr

/-- The six words of one response (30 R63). -/
structure Response where
  rw0 : Word
  rw1 : Word
  rw2 : Word
  rw3 : Word
  rw4 : Word
  rw5 : Word
deriving DecidableEq, Repr

/-- What the host does (30 R60, 20 R49, 70 R160, R162, R166; log 11, 14): present one command with the port contents of its block,
pulse `rst` with a parameter record between commands, or pulse it while the command it presents runs. -/
inductive HostAction where
  | command (c : Command) (inputs : BlockInputs)
  | reset (cfg : Cfg)
  | abandoned (c : Command) (inputs : BlockInputs) (cfg : Cfg)
deriving DecidableEq, Repr

/-- The state of the block, of its ports and of its two channels. -/
structure State where
  /-- The parameter record, constant between resets (10 R29). -/
  cfg : Cfg
  /-- `BQ[HP]` (10 R20). -/
  hp : Biquad
  /-- `BQ[LP]` (10 R20). -/
  lp : Biquad
  /-- `LFO.PHASE` and `LFO.RATE` (10 R24). -/
  lfo : Lfo
  /-- The latch `IND`: true is 1, Filtering (10 R26). -/
  ind : Bool
  /-- `AIN`, `CIN`, `SWIN` of the current block (20 R40). -/
  inputs : BlockInputs
  /-- `AOUT` (20 R40). -/
  aout : Memory
  /-- `INDOUT` (20 R44). -/
  indOut : Bool
  /-- The response channel: the response to the last command, none before the first (30 R60, R63). -/
  response : Option Response
  /-- The port events of the last command, in order (00 R15). -/
  events : List PortEvent
  /-- What the host does next, in order (30 R60). -/
  host : List HostAction
  /-- The MODEL's own counter of free values drawn for NaN results (30 R65, log 2). -/
  draws : Nat
deriving DecidableEq, Repr

/-- Why a step could fault. No operation of the block raises a fault, for any operand and in any state (60 R140), so no value of
this type exists and nobody raises one. -/
inductive Fault where
deriving DecidableEq, Repr

/-- Why the model gives a step no meaning. -/
inductive Refusal where
  /-- Raised by an arm of `exec` for an instruction without a meaning. No arm does. Safe. -/
  | notModelled (mnemonic : String)
  /-- Raised by `step` for a command or a reset, mid-command or not, under a parameter record outside its legal values: "a model refuses to build the
  block from such a `CFG`" (10 R30, log 15). Safe. -/
  | illegalParameters
deriving DecidableEq, Repr

/-- A delay line at rest (10 R32). -/
def Delay.rest : Delay Word := ⟨0#32, 0#32, 0#32, 0#32⟩

/-- The block right after `rst` is released with the parameter record `cfg` (10 R32, R33, 70 R160, R161). -/
def State.resetWith (cfg : Cfg) : State where
  cfg := cfg.sampled
  hp := ⟨cfg.coefReset, Delay.rest⟩
  lp := ⟨cfg.coefReset, Delay.rest⟩
  lfo := ⟨0#32, 0#32⟩
  ind := false
  inputs := ⟨[], [], false⟩
  aout := []
  indOut := false
  response := none
  events := []
  host := []
  draws := 0

/-- The machine right after reset (10 R32), with the reference parameter record (log 8). -/
def State.reset : State := State.resetWith Cfg.reference

end Sys2Proof.Machine
end

