-- ==== Sys2Proof/Machine/Flags.lean ====
section
/-! DEFINITION. The status bits. The one latch `IND` (10 R26) and the status code of a response (30 R63). There are no condition
codes and no sticky floating-point flags (10 R27). -/

namespace Sys2Proof.Machine

/-- The sequencer's two states (44 R120). -/
inductive Mode where
  | bypass
  | filtering
deriving DecidableEq, Repr

/-- The sequencer's state, held in `IND` (10 R26, 44 R120). -/
def State.mode (s : State) : Mode := if s.ind then .filtering else .bypass

/-- The status of a response (30 R63, 60 R142). Codes 2 to 255 are never produced. -/
inductive Status where
  | ok
  | illegal
deriving DecidableEq, Repr

/-- `RW0[7:0]` (30 R63). -/
def Status.code : Status → BitVec 8
  | .ok => 0#8
  | .illegal => 1#8

/-- `RW0`: the status code, bits 31:8 zero (30 R63). -/
def Status.word (st : Status) : Word := 0#24 ++ st.code

/-- `IND <- b` (44 R122). -/
def State.setInd (b : Bool) (s : State) : State := { s with ind := b }

end Sys2Proof.Machine
end

