-- ==== Sys2Proof/Machine/Operands.lean ====
section
/-! DEFINITION. Operands and results: the instance an operand selects (30 R64), the indices of port elements (20 R41, R42) and
the response words a result list fills (30 R63). -/

namespace Sys2Proof.Machine

/-- `BQ[i]` (10 R20). -/
def State.bq (i : Inst) (s : State) : Biquad :=
  match i with
  | .hp => s.hp
  | .lp => s.lp

/-- `BQ[i] <- b`. -/
def State.setBq (i : Inst) (b : Biquad) (s : State) : State :=
  match i with
  | .hp => { s with hp := b }
  | .lp => { s with lp := b }

/-- The five coefficient writes of `BQ[i]`, taking effect together; the delay line stays (42 R101). -/
def State.setCoeffs (i : Inst) (c : Coeffs Word) (s : State) : State := s.setBq i { s.bq i with coeffs := c }

/-- The four delay-line writes of `BQ[i]`, taking effect together; the coefficients stay (42 R103). -/
def State.setDelay (i : Inst) (d : Delay Word) (s : State) : State := s.setBq i { s.bq i with delay := d }

/-- `LFO.PHASE <- v`. -/
def State.setPhase (v : Word) (s : State) : State := { s with lfo := { s.lfo with phase := v } }

/-- `LFO.RATE <- v`. -/
def State.setRate (v : Word) (s : State) : State := { s with lfo := { s.lfo with rate := v } }

/-- The index in `AIN` and `AOUT` of frame `n` and channel `c` (20 R41). -/
def audioIndex (cfg : Cfg) (n c : Nat) : Nat := n * cfg.nch + c

/-- The index in `CIN` of control tick `t` and reading `i` (20 R42). -/
def controlIndex (t i : Nat) : Nat := Config.nctrl * t + i

/-- A response: the status word and five result words, zero where the command returns fewer (30 R63). -/
def Response.of (st : Status) (results : List Word) : Response :=
  ⟨st.word, results.getD 0 0#32, results.getD 1 0#32, results.getD 2 0#32, results.getD 3 0#32, results.getD 4 0#32⟩

/-- The five results of a coefficient command, in order (41 R92). -/
def coeffResults (c : Coeffs Word) : List Word := [c.b0, c.b1, c.b2, c.a1, c.a2]

end Sys2Proof.Machine
end

