-- ==== Sys2Proof/Machine/Ops.lean ====
section
/-! DEFINITION. The shared operations: legal parameters (10 R30), drawing a NaN (30 R65), port accesses (20 R48), starting and
answering a command (30 R60), the one error response (60 R142) and reset (70 R160). -/

namespace Sys2Proof

/-- The legal values of the parameter record (10 R29, R30; 93 U14; log 15). A record is checked as it is sampled, with its
`FS_LFO` computed (00 R12). -/
def Cfg.legal (c : Cfg) : Bool :=
  Binary32.isFinite c.fs && Binary32.lt Binary32.posZero c.fs
    && decide (1 ≤ c.nch) && decide (1 ≤ c.nf) && decide (1 ≤ c.k)
    && Binary32.isFinite c.fsLfo && !Binary32.isZero c.fsLfo
    && Binary32.lt c.rawMin c.rawMax

namespace Machine

/-- The n-th free NaN word: any NaN pattern, and a NaN for sure (30 R65, log 2). -/
def freshNaN (n : Nat) : Word := if Binary32.isNaN (Config.nanDraw n) then Config.nanDraw n else Binary32.nan

/-- The word an arithmetic result becomes where it can be seen: a NaN is the n-th free NaN word (30 R65). -/
def settle (n : Nat) (w : Word) : Word := if Binary32.isNaN w then freshNaN n else w

/-- One arithmetic result, settled with the next free value. -/
def State.settled (w : Word) (s : State) : Word × State := (settle s.draws w, { s with draws := s.draws + 1 })

/-- A coefficient tuple settled from the n-th free value on. `b2` is a copy of `b0` (41 R95 (b)) and takes its draw. -/
def settleCoeffs (n : Nat) (c : Coeffs Word) : Coeffs Word :=
  ⟨settle n c.b0, settle (n + 1) c.b1, settle n c.b2, settle (n + 2) c.a1, settle (n + 3) c.a2⟩

/-- Five coefficient results, settled with the next four free values. -/
def State.settledCoeffs (c : Coeffs Word) (s : State) : Coeffs Word × State :=
  (settleCoeffs s.draws c, { s with draws := s.draws + 4 })

/-- A port event takes place (00 R15). -/
def State.log (e : PortEvent) (s : State) : State := { s with events := s.events ++ [e] }

/-- `MemRead(SWIN, 0)` (20 R44). -/
def State.readSwin (s : State) : Bool × State := (s.inputs.swin, s.log (.readSwin 0 s.inputs.swin))

/-- `MemWrite(INDOUT, 0, b)` (20 R44). -/
def State.writeIndOut (b : Bool) (s : State) : State := { s.log (.writeIndOut 0 b) with indOut := b }

/-- `MemRead(CIN, idx)` (20 R42). -/
def State.readCin (idx : Nat) (s : State) : Word × State :=
  (s.inputs.cin.read idx, s.log (.readCin idx (s.inputs.cin.read idx)))

/-- `MemRead(AIN, idx)` (20 R41). -/
def State.readAin (idx : Nat) (s : State) : Word × State :=
  (s.inputs.ain.read idx, s.log (.readAin idx (s.inputs.ain.read idx)))

/-- `MemWrite(AOUT, idx, v)` (20 R41). -/
def State.writeAout (idx : Nat) (v : Word) (s : State) : State :=
  { s.log (.writeAout idx v) with aout := s.aout.write idx v }

/-- A command starts: its port events are counted from here (00 R15). -/
def State.start (s : State) : State := { s with events := [] }

/-- A command ends: its response, status `OK`, is returned (30 R60, R63; 60 R140). -/
def State.answer (results : List Word) (s : State) : State := { s with response := some (.of .ok results) }

/-- `raise Illegal`: the error response. No register changes, no port is touched, the results are zero, and the next command is
accepted (60 R142, R145 to R147). -/
def raiseIllegal (s : State) : State := { s with response := some (.of .illegal []), events := [] }

/-- The host presents a command with the port contents of its block (30 R60, 20 R49). `AOUT` is re-presented as it stands, with the
words that earlier blocks wrote (DESIGN CHOICE, 20 R40 gives it no contents; log 20). -/
def accept (inputs : BlockInputs) (rest : List HostAction) (s : State) : State :=
  { s with inputs := inputs, host := rest }

/-- `rst` is pulsed with the parameter record `cfg` (70 R160). The host's coming actions, the port spaces it owns (20 R40) and the
model's own counter of free values are no registers and stay (log 14). -/
def applyReset (cfg : Cfg) (rest : List HostAction) (s : State) : State :=
  { State.resetWith cfg with host := rest, inputs := s.inputs, aout := s.aout, draws := s.draws }

/-- Those of a command's writes to `AOUT` that had happened when it was abandoned, applied to `AOUT`: a free choice for each
write (70 R162, log 14). `k` counts the events from the command's first. -/
def landedWrites (n : Nat) : Nat → List PortEvent → Memory → Memory
  | k, .writeAout idx v :: es, m => landedWrites n (k + 1) es (if Config.landed n k then m.write idx v else m)
  | k, _ :: es, m => landedWrites n (k + 1) es m
  | _, [], m => m

/-- `rst` is pulsed while a command runs: the command is abandoned, no response is returned, and the registers take their reset
values (70 R162). `s` is the state the command began in, `t` the one it would have left. -/
def abandon (cfg : Cfg) (s t : State) : State :=
  { applyReset cfg s.host s with aout := landedWrites t.draws 0 t.events s.aout, draws := t.draws + 1 }

/-- `f 0`, then `f 1`, ..., then `f (n - 1)`: the counted loops of 44 R121 and R128. -/
def countUp (f : Nat → State → State) : Nat → State → State
  | 0, s => s
  | n + 1, s => f n (countUp f n s)

end Machine

end Sys2Proof
end

