-- ==== Sys2Proof/Machine/Coeff.lean ====
section
/-! DEFINITION. The filter_coeff_calculator commands CHP, CLP (spec 41). The formulas are written over NUM (00 R9). -/

namespace Sys2Proof.Machine

namespace Coeff

/-- `w0 = (TWO_PI * freqHz) / sampleRateHz` (41 R92). -/
def w0 {F : Type} (N : Num F) (freqHz fs : F) : F := N.div (N.mul N.twoPi freqHz) fs

/-- `alpha = sw / (2.0 * q)` (41 R92). -/
def alpha {F : Type} (N : Num F) (freqHz q fs : F) : F := N.div (N.sin (w0 N freqHz fs)) (N.mul N.two q)

/-- `a0 = 1.0 + alpha` (41 R92). -/
def a0 {F : Type} (N : Num F) (freqHz q fs : F) : F := N.add N.one (alpha N freqHz q fs)

/-- `a1 = (-2.0 * cw) / a0`, the same line in both commands (41 R94). -/
def a1 {F : Type} (N : Num F) (freqHz q fs : F) : F :=
  N.div (N.mul N.negTwo (N.cos (w0 N freqHz fs))) (a0 N freqHz q fs)

/-- `a2 = (1.0 - alpha) / a0`, the same line in both commands (41 R94). -/
def a2 {F : Type} (N : Num F) (freqHz q fs : F) : F := N.div (N.sub N.one (alpha N freqHz q fs)) (a0 N freqHz q fs)

/-- The high-pass 5-tuple (41 R92), with `t = 1.0 + cw`. -/
def highPass {F : Type} (N : Num F) (freqHz q fs : F) : Coeffs F :=
  let t := N.add N.one (N.cos (w0 N freqHz fs))
  let b0 := N.div (N.div t N.two) (a0 N freqHz q fs)
  ⟨b0, N.div (N.sub N.zero t) (a0 N freqHz q fs), b0, a1 N freqHz q fs, a2 N freqHz q fs⟩

/-- The low-pass 5-tuple (41 R93), with `t = 1.0 - cw`. -/
def lowPass {F : Type} (N : Num F) (freqHz q fs : F) : Coeffs F :=
  let t := N.sub N.one (N.cos (w0 N freqHz fs))
  let b0 := N.div (N.div t N.two) (a0 N freqHz q fs)
  ⟨b0, N.div t (a0 N freqHz q fs), b0, a1 N freqHz q fs, a2 N freqHz q fs⟩

/-- The contract on the operands, `0 < freqHz < sampleRateHz/2` and `q > 0`, all finite (41 R91, 93 U1). It compares the numbers
themselves, `sampleRateHz/2` unrounded. -/
def inContract (freqHz q fs : Word) : Bool :=
  Binary32.isFinite freqHz && Binary32.isFinite q && Binary32.isFinite fs
    && decide (0 < Binary32.units freqHz) && decide (2 * Binary32.units freqHz < Binary32.units fs)
    && decide (0 < Binary32.units q)

/-- The formulas are evaluated inside the contract, and for a NaN operand, which gives NaN results (41 R95 (h)). -/
def evaluated (freqHz q fs : Word) : Bool := inContract freqHz q fs || [freqHz, q, fs].any Binary32.isNaN

/-- `CHP` outside its contract: free values of the operands alone, `b2` a copy of `b0` (41 R91, R95 (b); log 6). -/
def openHigh (freqHz q fs : Word) : Coeffs Word :=
  ⟨Config.openHighB0 freqHz q fs, Config.openHighB1 freqHz q fs, Config.openHighB0 freqHz q fs,
   Config.openA1 freqHz q fs, Config.openA2 freqHz q fs⟩

/-- `CLP` outside its contract: free values, `a1` and `a2` those of `CHP` (41 R91, R94, R95 (b); log 6). -/
def openLow (freqHz q fs : Word) : Coeffs Word :=
  ⟨Config.openLowB0 freqHz q fs, Config.openLowB1 freqHz q fs, Config.openLowB0 freqHz q fs,
   Config.openA1 freqHz q fs, Config.openA2 freqHz q fs⟩

/-- `CHP` on words (41 R91, R92). -/
def highPassWord (N : Num Word) (freqHz q fs : Word) : Coeffs Word :=
  if evaluated freqHz q fs then highPass N freqHz q fs else openHigh freqHz q fs

/-- `CLP` on words (41 R91, R93). -/
def lowPassWord (N : Num Word) (freqHz q fs : Word) : Coeffs Word :=
  if evaluated freqHz q fs then lowPass N freqHz q fs else openLow freqHz q fs

end Coeff

/-- What CHP does (41 R92). -/
def State.highPass (freqHz q fs : Word) (s : State) : Coeffs Word × State :=
  s.settledCoeffs (Coeff.highPassWord s.cfg.num freqHz q fs)

/-- What CLP does (41 R93). -/
def State.lowPass (freqHz q fs : Word) (s : State) : Coeffs Word × State :=
  s.settledCoeffs (Coeff.lowPassWord s.cfg.num freqHz q fs)

/-- `CHP freqHz, q, sampleRateHz -> b0, b1, b2, a1, a2` (41 R90, R92). -/
def execChp (freqHz q fs : Word) (s : State) : Host.Outcome State Fault Refusal :=
  let r := s.start.highPass freqHz q fs
  .next (r.2.answer (coeffResults r.1))

/-- `CLP freqHz, q, sampleRateHz -> b0, b1, b2, a1, a2` (41 R90, R93). -/
def execClp (freqHz q fs : Word) (s : State) : Host.Outcome State Fault Refusal :=
  let r := s.start.lowPass freqHz q fs
  .next (r.2.answer (coeffResults r.1))

end Sys2Proof.Machine
end

