-- ==== Sys2Proof/Machine/Filter.lean ====
section
/-! DEFINITION. The biquad commands BQSET, BQTICK (spec 42). The difference equation is written over NUM (00 R9). -/

namespace Sys2Proof.Machine

namespace Filter

/-- The direct form I difference equation, in this order and with old values only (42 R103). -/
def output {F : Type} (N : Num F) (c : Coeffs F) (d : Delay F) (x : F) : F :=
  N.sub (N.sub (N.add (N.add (N.mul c.b0 x) (N.mul c.b1 d.x1)) (N.mul c.b2 d.x2)) (N.mul c.a1 d.y1)) (N.mul c.a2 d.y2)

/-- The four delay-line writes, taking effect together (42 R103). -/
def shiftIn {F : Type} (d : Delay F) (x y : F) : Delay F := ⟨x, d.x1, y, d.y1⟩

end Filter

/-- What BQTICK does: the output, and the instance's delay line advanced (42 R103). The one free value of a NaN output is both
the result and the new `Y1`. -/
def State.tick (i : Inst) (x : Word) (s : State) : Word × State :=
  let r := s.settled (Filter.output s.cfg.num (s.bq i).coeffs (s.bq i).delay x)
  (r.1, r.2.setDelay i (Filter.shiftIn (s.bq i).delay x r.1))

/-- `BQSET.i b0, b1, b2, a1, a2` (42 R100, R101). -/
def execBqset (i : Inst) (b0 b1 b2 a1 a2 : Word) (s : State) : Host.Outcome State Fault Refusal :=
  .next ((s.start.setCoeffs i ⟨b0, b1, b2, a1, a2⟩).answer [])

/-- `BQTICK.i x -> y` (42 R100, R103). -/
def execBqtick (i : Inst) (x : Word) (s : State) : Host.Outcome State Fault Refusal :=
  let r := s.start.tick i x
  .next (r.2.answer [r.1])

end Sys2Proof.Machine
end

