-- ==== Sys2Proof/Machine/Mapper.lean ====
section
/-! DEFINITION. The parameter_mapper commands MAPLIN, NN2HZ, LPFREQ (spec 40). The formulas are written over NUM (00 R9). -/

namespace Sys2Proof.Machine

namespace Mapper

/-- The affine map, each operation in this order (40 R81). -/
def mapLinear {F : Type} (N : Num F) (raw rawMin rawMax outMin outMax : F) : F :=
  N.add outMin (N.mul (N.div (N.sub raw rawMin) (N.sub rawMax rawMin)) (N.sub outMax outMin))

/-- Equal-tempered pitch (40 R84). -/
def noteToHz {F : Type} (N : Num F) (fRef nnRef semis nn : F) : F :=
  N.mul fRef (N.exp2 (N.div (N.sub nn nnRef) semis))

/-- The clamped sum (40 R86). -/
def lpFreq {F : Type} (N : Num F) (ceil baseHz widthHz : F) : F :=
  if N.lt (N.add baseHz widthHz) ceil then N.add baseHz widthHz else ceil

/-- Sane raw bounds: finite and not equal (40 R82 (c), 93 U3). -/
def saneBounds (rawMin rawMax : Word) : Bool :=
  Binary32.isFinite rawMin && Binary32.isFinite rawMax && decide (Binary32.order rawMin ≠ Binary32.order rawMax)

/-- `MAPLIN` on words: the formula, a NaN for a NaN operand (40 R82 (e)); a free value where the raw bounds are equal or not
finite (40 R82 (c), 93 U3, log 7). -/
def mapLinearWord (N : Num Word) (raw rawMin rawMax outMin outMax : Word) : Word :=
  if saneBounds rawMin rawMax || [raw, rawMin, rawMax, outMin, outMax].any Binary32.isNaN then
    mapLinear N raw rawMin rawMax outMin outMax
  else Config.openMap raw rawMin rawMax outMin outMax

/-- `NN2HZ` on words, with the record's `F_REF`, `NN_REF`, `SEMIS` (40 R84). -/
def noteToHzWord (cfg : Cfg) (nn : Word) : Word := noteToHz cfg.num cfg.fRef cfg.nnRef cfg.semis nn

/-- `LPFREQ` on words, with the record's `LP_CEIL` (40 R86). It selects a sum below the ceiling or the ceiling, so it makes no
NaN of its own. -/
def lpFreqWord (cfg : Cfg) (baseHz widthHz : Word) : Word := lpFreq cfg.num cfg.lpCeil baseHz widthHz

end Mapper

/-- What MAPLIN does (40 R81). -/
def State.mapLinear (raw rawMin rawMax outMin outMax : Word) (s : State) : Word × State :=
  s.settled (Mapper.mapLinearWord s.cfg.num raw rawMin rawMax outMin outMax)

/-- What NN2HZ does (40 R84). -/
def State.noteToHz (nn : Word) (s : State) : Word × State := s.settled (Mapper.noteToHzWord s.cfg nn)

/-- `MAPLIN raw, rawMin, rawMax, outMin, outMax -> out` (40 R80, R81). -/
def execMaplin (raw rawMin rawMax outMin outMax : Word) (s : State) : Host.Outcome State Fault Refusal :=
  let r := s.start.mapLinear raw rawMin rawMax outMin outMax
  .next (r.2.answer [r.1])

/-- `NN2HZ nn -> hz` (40 R80, R84). -/
def execNn2hz (nn : Word) (s : State) : Host.Outcome State Fault Refusal :=
  let r := s.start.noteToHz nn
  .next (r.2.answer [r.1])

/-- `LPFREQ baseHz, widthHz -> lpHz` (40 R80, R86). -/
def execLpfreq (baseHz widthHz : Word) (s : State) : Host.Outcome State Fault Refusal :=
  .next (s.start.answer [Mapper.lpFreqWord s.cfg baseHz widthHz])

end Sys2Proof.Machine
end

