-- ==== Sys2Proof/Machine/Oscillator.lean ====
section
/-! DEFINITION. The lfo_oscillator commands LFORATE, LFOTICK (spec 43). -/

namespace Sys2Proof.Machine

namespace Oscillator

/-- The default waveform `SIN(TWO_PI * p)` (00 R12, 43 R113). -/
def sine {F : Type} (N : Num F) (p : F) : F := N.sin (N.mul N.twoPi p)

/-- `LFO_WAVE` (00 R12, 43 R113, log 10). -/
def wave (N : Num Word) (f : LfoWave) (p : Word) : Word :=
  match f with
  | .sine => sine N p
  | .other n => Config.otherWave n p

/-- The sum before the wrap: `PHASE + RATE / FS_LFO` (43 R113). -/
def advanced {F : Type} (N : Num F) (phase rate fsLfo : F) : F := N.add phase (N.div rate fsLfo)

/-- The wrap `p - floor(p)` with its guard, which sets the phase to 0 when the wrapped value is not in [0, 1) (43 R113). -/
def wrap {F : Type} (N : Num F) (p : F) : F :=
  let w := N.sub p (N.floor p)
  if N.le N.zero w && N.lt w N.one then w else N.zero

/-- `MODFN` (00 R12, 44 R126, log 10). -/
def modulate (f : ModFn) (baseHz m : Word) : Word :=
  match f with
  | .keepBase => baseHz
  | .other n => Config.otherMod n baseHz m

end Oscillator

/-- What LFOTICK does: the sample of the phase before the advance, then the advance (43 R113). -/
def State.lfoTick (s : State) : Word × State :=
  let r := s.settled (Oscillator.wave s.cfg.num s.cfg.lfoWave s.lfo.phase)
  (r.1, r.2.setPhase (Oscillator.wrap s.cfg.num
    (Oscillator.advanced s.cfg.num s.lfo.phase s.lfo.rate s.cfg.fsLfo)))

/-- `LFORATE hz` (43 R110, R111). -/
def execLforate (hz : Word) (s : State) : Host.Outcome State Fault Refusal :=
  .next ((s.start.setRate hz).answer [])

/-- `LFOTICK -> out` (43 R110, R113). -/
def execLfotick (s : State) : Host.Outcome State Fault Refusal :=
  let r := s.start.lfoTick
  .next (r.2.answer [r.1])

end Sys2Proof.Machine
end

