-- ==== Sys2Proof/Machine/Sequencer.lean ====
section
/-! DEFINITION. The sequencer command RENDER and its micro-operations BLKSW, CTRLUPD, FRAME (spec 44), written in terms of what
the unit commands do. -/

namespace Sys2Proof.Machine

/-- `BLKSW`: the switch is read once, latched, and mirrored to the indicator (44 R122). -/
def blksw (s : State) : State :=
  let sw := s.readSwin
  (sw.2.setInd sw.1).writeIndOut sw.1

/-- The three raw readings of a control tick, in index order: frequency, width, Q (44 R124, 20 R42). -/
def readControls (t : Nat) (s : State) : (Word × Word × Word) × State :=
  let rf := s.readCin (controlIndex t 0)
  let rw := rf.2.readCin (controlIndex t 1)
  let rq := rw.2.readCin (controlIndex t 2)
  ((rf.1, rw.1, rq.1), rq.2)

/-- The wiring point: with `LFO_WIRE = 1` the LFO is ticked and `MODFN` applied to the base frequency (44 R126). -/
def modulateBase (base : Word) (s : State) : Word × State :=
  if s.cfg.lfoWire then
    let m := s.lfoTick
    (Oscillator.modulate s.cfg.modFn base m.1, m.2)
  else (base, s)

/-- The mapped parameters of a control tick: `base`, `lp`, `q`, from the raw readings (44 R124). They are kept nowhere (10 R31). -/
def mapControls (raw : Word × Word × Word) (s : State) : (Word × Word × Word) × State :=
  let c := s.cfg
  let nn := s.mapLinear raw.1 c.rawMin c.rawMax c.nnLo c.nnHi
  let base := nn.2.noteToHz nn.1
  let width := base.2.mapLinear raw.2.1 c.rawMin c.rawMax c.wLo c.wHi
  let q := width.2.mapLinear raw.2.2 c.rawMin c.rawMax c.qLo c.qHi
  let mod := modulateBase base.1 q.2
  ((mod.1, Mapper.lpFreqWord c mod.1 width.1, q.1), mod.2)

/-- Both coefficient sets, computed and pushed: `HP` at `base`, `LP` at `lp`, one q and one sample rate (44 R124, R125). -/
def pushCoeffs (p : Word × Word × Word) (s : State) : State :=
  let h := s.highPass p.1 p.2.2 s.cfg.fs
  let l := h.2.lowPass p.2.1 p.2.2 s.cfg.fs
  (l.2.setCoeffs .hp h.1).setCoeffs .lp l.1

/-- `CTRLUPD(t)` (44 R124). -/
def ctrlupd (t : Nat) (s : State) : State :=
  let raw := readControls t s
  let p := mapControls raw.1 raw.2
  pushCoeffs p.1 p.2

/-- One sample of frame `n`, channel `c`: read, filter through `HP` then `LP` in Filtering or copy in Bypass, write (44 R128). -/
def frameSample (n c : Nat) (s : State) : State :=
  let x := s.readAin (audioIndex s.cfg n c)
  if s.ind then
    let h := x.2.tick .hp x.1
    let y := h.2.tick .lp h.1
    y.2.writeAout (audioIndex s.cfg n c) y.1
  else x.2.writeAout (audioIndex s.cfg n c) x.1

/-- `FRAME(n)`: the channels in ascending order (44 R128). -/
def frame (n : Nat) (s : State) : State := countUp (frameSample n) s.cfg.nch s

/-- A control boundary: Filtering, and `n mod K = 0` (44 R121, R123). -/
def isBoundary (n : Nat) (s : State) : Bool := s.ind && n % s.cfg.k == 0

/-- Frame `n` of the render loop: the control update on a boundary, then the frame (44 R121, 20 R52). -/
def renderFrame (n : Nat) (s : State) : State :=
  frame n (if isBoundary n s then ctrlupd (n / s.cfg.k) s else s)

/-- The render loop on one block (44 R121). -/
def renderBlock (s : State) : State := countUp renderFrame s.cfg.nf (blksw s)

/-- `RENDER` (44 R121). -/
def execRender (s : State) : Host.Outcome State Fault Refusal := .next ((renderBlock s.start).answer [])

end Sys2Proof.Machine
end

