-- ==== Sys2Proof/Machine/Dispatch.lean ====
section
/-! DEFINITION. The meaning of every command, one arm each (30 R66). -/

namespace Sys2Proof.Machine

def exec (i : Instr) (s : State) : Host.Outcome State Fault Refusal :=
  match i with
  | .maplin raw rawMin rawMax outMin outMax => Sys2Proof.Machine.execMaplin raw rawMin rawMax outMin outMax s
  | .nn2hz nn => Sys2Proof.Machine.execNn2hz nn s
  | .lpfreq baseHz widthHz => Sys2Proof.Machine.execLpfreq baseHz widthHz s
  | .chp freqHz q fs => Sys2Proof.Machine.execChp freqHz q fs s
  | .clp freqHz q fs => Sys2Proof.Machine.execClp freqHz q fs s
  | .bqset j b0 b1 b2 a1 a2 => Sys2Proof.Machine.execBqset j b0 b1 b2 a1 a2 s
  | .bqtick j x => Sys2Proof.Machine.execBqtick j x s
  | .lforate hz => Sys2Proof.Machine.execLforate hz s
  | .lfotick => Sys2Proof.Machine.execLfotick s
  | .render => Sys2Proof.Machine.execRender s

end Sys2Proof.Machine
end

