-- ==== Sys2Proof/Machine/Step.lean ====
section
/-! DEFINITION. One step: the host's next action. A command is decoded and executed to completion, or answered `ILLEGAL`
(30 R60, R67; 60 R142), or abandoned by a reset (70 R162); a reset between commands is applied (70 R160); with nothing presented
the block holds its registers (60 R154). A command or a reset under an illegal parameter record is refused (10 R30). -/

namespace Sys2Proof.Machine

/-- A presented command runs to completion (30 R60, R67; 60 R142). -/
def runCommand (c : Command) (s : State) : Host.Outcome State Fault Refusal :=
  match decode c with
  | .ok i => exec i s
  | .error _ => .next (raiseIllegal s)

/-- One action of the host. -/
def step (s : State) : Host.Outcome State Fault Refusal :=
  match s.host with
  | [] => .next s
  | .reset cfg :: rest => if cfg.sampled.legal then .next (applyReset cfg rest s) else .refused .illegalParameters
  | .command c inputs :: rest =>
    if s.cfg.legal then runCommand c (accept inputs rest s) else .refused .illegalParameters
  | .abandoned c inputs cfg :: rest =>
    if s.cfg.legal && cfg.sampled.legal then
      match runCommand c (accept inputs rest s) with
      | .next t => .next (abandon cfg (accept inputs rest s) t)
      | .fault r => .fault r
      | .refused r => .refused r
    else .refused .illegalParameters

/-- `s` with the command whose bits are `w` presented next, and the port contents of the state with it. -/
def State.withFetchWord (s : State) (nbits w : Nat) : State :=
  { s with host := .command (Command.ofTableWord nbits w) s.inputs :: s.host }

end Sys2Proof.Machine
end

