-- ==== Sys2Proof/Safety.lean ====
section
/-! DEFINITION. The words the claims use: what a command leaves alone, equality up to the bits of a NaN, correct rounding, the
reading of the formulas over the reals (00 R9), the order of RENDER's port events, and the machine's invariant. -/

namespace Sys2Proof

/-- NUM at the reals: every operation exact, EXP2, SIN, COS the mathematical functions (00 R9). -/
noncomputable def Num.real : Num ℝ where
  zero := 0
  one := 1
  two := 2
  negTwo := -2
  twoPi := 2 * Real.pi
  add := fun a b => a + b
  sub := fun a b => a - b
  mul := fun a b => a * b
  div := fun a b => a / b
  floor := fun a => (⌊a⌋ : ℝ)
  exp2 := fun a => (2 : ℝ) ^ a
  sin := Real.sin
  cos := Real.cos
  lt := fun a b => decide (a < b)
  le := fun a b => decide (a ≤ b)

/-- The five operand words of a command (30 R61). -/
def Command.operands (c : Command) : List Word := [c.cw1, c.cw2, c.cw3, c.cw4, c.cw5]

/-- The mapping constants c6 and c7 have the values of 00 R12. -/
structure Cfg.MapsAsGiven (c : Cfg) : Prop where
  rawMin : c.rawMin = 0x00000000#32
  rawMax : c.rawMax = 0x3F53B646#32
  nnLo : c.nnLo = 0x41D80000#32
  nnHi : c.nnHi = 0x42F60000#32
  nnRef : c.nnRef = 0x42700000#32
  fRef : c.fRef = 0x43DC0000#32
  semis : c.semis = 0x41400000#32
  qLo : c.qLo = 0x3F19999A#32
  qHi : c.qHi = 0x40A00000#32
  wLo : c.wLo = 0x41A00000#32
  wHi : c.wHi = 0x453B8000#32
  lpCeil : c.lpCeil = 0x469B7800#32

namespace Binary32

/-- The same word, or both NaNs: results compared as 30 R65 allows. -/
abbrev agree (v w : Word) : Prop := v = w ∨ (isNaN v = true ∧ isNaN w = true)

/-- Half a unit above the largest finite number: at this size and above a result overflows (00 R8). -/
def overflowBound : ℚ := 2 ^ 128 - 2 ^ 103

/-- `w` is the exact value `q` rounded to nearest, ties to an even significand, infinity on overflow (00 R8). -/
def RoundsTo (q : ℚ) (w : Word) : Prop :=
  if |q| < overflowBound then
    isFinite w = true
      ∧ (∀ v, isFinite v = true → |toRat w - q| ≤ |toRat v - q|)
      ∧ (∀ v, isFinite v = true → |toRat v - q| = |toRat w - q| → toRat v ≠ toRat w → frac w % 2 = 0)
  else w = inf (decide (q < 0))

/-- A finite word inside the contract of `CHP` and `CLP`: `0 < freqHz < sampleRateHz/2` and `q > 0` (41 R91). -/
structure MeetsContract (freqHz q fs : Word) : Prop where
  freqFinite : isFinite freqHz = true
  qFinite : isFinite q = true
  fsFinite : isFinite fs = true
  freqPos : 0 < toRat freqHz
  freqBelow : toRat freqHz < toRat fs / 2
  qPos : 0 < toRat q

/-- The phase invariant `0 <= p < 1` (10 R25). -/
def inUnit (p : Word) : Bool := le posZero p && lt p one

end Binary32

namespace Machine

/-- Nothing but the response, the list of this command's port events and the counter of free values changed, and the command made
no port event. -/
structure Untouched (s t : State) : Prop where
  cfg : t.cfg = s.cfg
  hp : t.hp = s.hp
  lp : t.lp = s.lp
  lfo : t.lfo = s.lfo
  ind : t.ind = s.ind
  inputs : t.inputs = s.inputs
  aout : t.aout = s.aout
  indOut : t.indOut = s.indOut
  host : t.host = s.host
  events : t.events = []

/-- The parameters, the input ports and the host's coming actions did not change. -/
structure HostSideKept (s t : State) : Prop where
  cfg : t.cfg = s.cfg
  inputs : t.inputs = s.inputs
  host : t.host = s.host

/-- No output port changed: every element of `AOUT` reads as before, `INDOUT` is as before. -/
structure OutputsKept (s t : State) : Prop where
  aout : ∀ a, t.aout.read a = s.aout.read a
  indOut : t.indOut = s.indOut

/-- Every register at its reset value, the parameters sampled, the indicator output 0 and no response (10 R32, R33; 70 R160,
R161). -/
structure FreshFrom (cfg : Cfg) (t : State) : Prop where
  coeffs : ∀ i, (t.bq i).coeffs = cfg.coefReset
  delay : ∀ i, (t.bq i).delay = ⟨0#32, 0#32, 0#32, 0#32⟩
  phase : t.lfo.phase = 0#32
  rate : t.lfo.rate = 0#32
  ind : t.ind = false
  indOut : t.indOut = false
  response : t.response = none
  cfg : t.cfg = cfg.sampled

/-- The response of a command that ended `OK` with the given result words (30 R63). -/
def okResponse (r0 r1 r2 r3 r4 : Word) : Response := ⟨0x00000000#32, r0, r1, r2, r3, r4⟩

/-- The response to an illegal command (60 R142). -/
def illegalResponse : Response := ⟨0x00000001#32, 0#32, 0#32, 0#32, 0#32, 0#32⟩

/-- Result word `R0` of the last response (30 R63), zero before the first. -/
def State.r0 (s : State) : Word :=
  match s.response with
  | some r => r.rw1
  | none => 0#32

/-- The five result words of the last response as a coefficient tuple (41 R92), zero before the first. -/
def State.coeffs (s : State) : Coeffs Word :=
  match s.response with
  | some r => ⟨r.rw1, r.rw2, r.rw3, r.rw4, r.rw5⟩
  | none => ⟨0#32, 0#32, 0#32, 0#32, 0#32⟩

/-- The five coefficients agree up to the bits of NaNs (30 R65). -/
structure CoeffsAgree (c d : Coeffs Word) : Prop where
  b0 : Binary32.agree c.b0 d.b0
  b1 : Binary32.agree c.b1 d.b1
  b2 : Binary32.agree c.b2 d.b2
  a1 : Binary32.agree c.a1 d.a1
  a2 : Binary32.agree c.a2 d.a2

/-- The five port spaces (20 R40). -/
inductive Port where
  | swin
  | indOut
  | cin
  | ain
  | aout
deriving DecidableEq, Repr

/-- The port and the index of an event. -/
def PortEvent.place : PortEvent → Port × Nat
  | .readSwin i _ => (.swin, i)
  | .writeIndOut i _ => (.indOut, i)
  | .readCin i _ => (.cin, i)
  | .readAin i _ => (.ain, i)
  | .writeAout i _ => (.aout, i)

/-- The elements per block of a port space (20 R40, column "elements per block"). -/
def Port.size (cfg : Cfg) : Port → Nat
  | .swin => 1
  | .indOut => 1
  | .cin => (cfg.nf + cfg.k - 1) / cfg.k * 3
  | .ain => cfg.nf * cfg.nch
  | .aout => cfg.nf * cfg.nch

/-- Where RENDER's port events take place, in order (44 R121, R122, R124, R128; 20 R41, R42). -/
def schedule (cfg : Cfg) (filtering : Bool) : List (Port × Nat) :=
  [(.swin, 0), (.indOut, 0)] ++ (List.range cfg.nf).flatMap fun n =>
    (if filtering && n % cfg.k == 0 then
      [(.cin, 3 * (n / cfg.k)), (.cin, 3 * (n / cfg.k) + 1), (.cin, 3 * (n / cfg.k) + 2)] else [])
    ++ (List.range cfg.nch).flatMap fun c => [(.ain, n * cfg.nch + c), (.aout, n * cfg.nch + c)]

/-- An event carries what the ports hold: a read the value the host supplied, a write the value left in the output port (00 R15,
20 R48: no element is accessed twice). -/
def PortEvent.holdsIn (s : State) : PortEvent → Prop
  | .readSwin _ b => s.inputs.swin = b
  | .writeIndOut _ b => s.indOut = b
  | .readCin i v => s.inputs.cin.read i = v
  | .readAin i v => s.inputs.ain.read i = v
  | .writeAout i v => s.aout.read i = v

/-- The port contents a host action brings are in canonical form (log 12). -/
def HostAction.wf : HostAction → Bool
  | .command _ p => p.ain.wf && p.cin.wf
  | .reset _ => true
  | .abandoned _ p _ => p.ain.wf && p.cin.wf

/-- What holds in every state a run can reach. -/
structure State.Inv (s : State) : Prop where
  /-- The parameter record is legal (10 R30). -/
  legal : s.cfg.legal = true
  /-- `FS_LFO` is `FS / K`, as it was sampled (00 R12). -/
  controlRate : s.cfg.fsLfo = Binary32.divNat s.cfg.fs s.cfg.k
  /-- `0 <= LFO.PHASE < 1` (10 R25). -/
  phase : Binary32.inUnit s.lfo.phase = true
  /-- `IND` is the value last written to the indicator output (10 R26). -/
  indicator : s.indOut = s.ind
  /-- The output port space is in canonical form. -/
  aout : s.aout.wf = true
  /-- The input port spaces are in canonical form. -/
  ain : s.inputs.ain.wf = true
  cin : s.inputs.cin.wf = true
  /-- So are those the host will present. -/
  host : ∀ a ∈ s.host, a.wf = true
  /-- A response has status `OK`, or status `ILLEGAL` and zero results; codes 2 to 255 are never produced (30 R63, 60 R142). -/
  response : ∀ r, s.response = some r → r.rw0 = 0x00000000#32 ∨ r = illegalResponse
  /-- No port event lies outside its space (20 R45). -/
  events : ∀ e ∈ s.events, e.place.2 < e.place.1.size s.cfg

/-- `Coeff.inContract` on numbers: `0 < freqHz < sampleRateHz/2` and `q > 0` (41 R91). -/
abbrev InContract (freqHz q fs : ℝ) : Prop := 0 < freqHz ∧ freqHz < fs / 2 ∧ 0 < q

/-- The numerator of H(z) at a complex `z^-1` (42 R103). -/
noncomputable def numerator (c : Coeffs ℝ) (zinv : ℂ) : ℂ := c.b0 + c.b1 * zinv + c.b2 * zinv ^ 2

/-- The denominator of H(z) at a complex `z^-1` (42 R103). -/
noncomputable def denominator (c : Coeffs ℝ) (zinv : ℂ) : ℂ := 1 + c.a1 * zinv + c.a2 * zinv ^ 2

/-- The delay line after `n` ticks on the inputs `x 0`, ..., `x (n - 1)`, over the reals (42 R103). -/
noncomputable def delayAfter (c : Coeffs ℝ) (x : Nat → ℝ) : Nat → Delay ℝ
  | 0 => ⟨0, 0, 0, 0⟩
  | n + 1 => Filter.shiftIn (delayAfter c x n) (x n) (Filter.output Num.real c (delayAfter c x n) (x n))

/-- The n-th output from rest, over the reals (42 R103). -/
noncomputable def outputAt (c : Coeffs ℝ) (x : Nat → ℝ) (n : Nat) : ℝ :=
  Filter.output Num.real c (delayAfter c x n) (x n)

end Machine

end Sys2Proof
end

