-- ==== Sys2Proof/Certificates/Slice0/Obligations.lean ====
section
/-! DEFINITION. The statements about the model, from the spec's numbered rules. `00 R8` means rule R8 of spec/00_*.md. -/

open Sys2Proof Sys2Proof.Machine

/-! ## Encoding and decoding -/

/-- 30 R62, R64, R66: no bit of an encoding is dropped. -/
def Obligations.DecodeOfEncode : Prop := ∀ i : Instr, decode (encode i) = .ok i

/-- 95 V50 to V58: the decoder reads the spec's own command words. -/
def Obligations.SpecCommandWordsDecode : Prop :=
  decode ⟨0x00000011#32, 0x42700000#32, 0#32, 0#32, 0#32, 0#32⟩ = .ok (.nn2hz 0x42700000#32)
    ∧ decode ⟨0x00000130#32, 0x3E800000#32, 0x3F000000#32, 0x3E800000#32, 0#32, 0#32⟩
      = .ok (.bqset .lp 0x3E800000#32 0x3F000000#32 0x3E800000#32 0#32 0#32)
    ∧ decode ⟨0x00000031#32, 0x3F800000#32, 0#32, 0#32, 0#32, 0#32⟩ = .ok (.bqtick .hp 0x3F800000#32)
    ∧ decode ⟨0x00000012#32, 0x461C4000#32, 0x463B8000#32, 0xDEADBEEF#32, 0xDEADBEEF#32, 0xDEADBEEF#32⟩
      = .ok (.lpfreq 0x461C4000#32 0x463B8000#32)
    ∧ decode ⟨0x00000040#32, 0x3F800000#32, 0#32, 0#32, 0#32, 0#32⟩ = .ok (.lforate 0x3F800000#32)
    ∧ decode ⟨0x00000041#32, 0#32, 0#32, 0#32, 0#32, 0#32⟩ = .ok .lfotick
    ∧ decode ⟨0x00000050#32, 0#32, 0#32, 0#32, 0#32, 0#32⟩ = .ok .render
    ∧ decode ⟨0x00000111#32, 0x42700000#32, 0#32, 0#32, 0#32, 0#32⟩ = .error .instOnFormatU
    ∧ decode ⟨0x00000231#32, 0x3F800000#32, 0#32, 0#32, 0#32, 0#32⟩ = .error .reservedBits
    ∧ decode ⟨0x00000051#32, 0#32, 0#32, 0#32, 0#32, 0#32⟩ = .error .unassignedOpcode

/-- 30 R67: a command decodes exactly when its header matches a row of the table, to that row's command, with `inst = h[8]` for
format I; a header with reserved bits set is illegal; no two rows overlap. -/
def Obligations.DecodingFollowsTheTable : Prop :=
  ∀ c : Command,
    (∀ i, decode c = .ok i → ∃ r ∈ opcodeTable, r.hits c.cw0 = true ∧ r.mnemonic = i.mnemonic)
      ∧ (∀ r ∈ opcodeTable, r.hits c.cw0 = true → ∃ i, decode c = .ok i ∧ i.mnemonic = r.mnemonic)
      ∧ (∀ j b0 b1 b2 a1 a2, decode c = .ok (.bqset j b0 b1 b2 a1 a2) → (j = .lp ↔ c.cw0.getLsbD 8 = true))
      ∧ (∀ j x, decode c = .ok (.bqtick j x) → (j = .lp ↔ c.cw0.getLsbD 8 = true))
      ∧ (c.cw0 >>> 9 ≠ 0#32 → ∃ e, decode c = .error e)
      ∧ (∀ r ∈ opcodeTable, ∀ r' ∈ opcodeTable, r.hits c.cw0 = true → r'.hits c.cw0 = true → r = r')

/-- 30 R69: the illegal headers are those with a reserved bit set, those with an unassigned opcode byte, and those with `inst = 1`
and a format U opcode, and no others; they are the commands that are not well formed. -/
def Obligations.IllegalHeadersAreTheThreeKinds : Prop :=
  ∀ c : Command,
    ((∃ e, decode c = .error e) ↔
      c.cw0 >>> 9 ≠ 0#32
        ∨ c.cw0 &&& 0xFF#32 ∉ [0x10#32, 0x11#32, 0x12#32, 0x20#32, 0x21#32, 0x30#32, 0x31#32, 0x40#32, 0x41#32, 0x50#32]
        ∨ (c.cw0.getLsbD 8 = true ∧ c.cw0 &&& 0xFF#32 ≠ 0x30#32 ∧ c.cw0 &&& 0xFF#32 ≠ 0x31#32))
      ∧ ((∃ e, decode c = .error e) ↔ c.wellFormed = false)

/-- 30 R61, R64: an instruction keeps the header and the operand words it takes, and the operand words it does not take have no
effect on what is decoded. -/
def Obligations.UnusedOperandWordsAreIgnored : Prop :=
  ∀ (c c' : Command) (i : Instr), decode c = .ok i →
    ((encode i).cw0 = c.cw0 ∧ (encode i).operands.take i.operandCount = c.operands.take i.operandCount)
      ∧ (c'.cw0 = c.cw0 → c'.operands.take i.operandCount = c.operands.take i.operandCount → decode c' = .ok i)

/-! ## One step, the error response and reset -/

/-- A step runs the decoded instruction: the host's command and the port contents of its block are taken, then `exec` (30 R60,
R67; 20 R40). -/
def Obligations.StepExecutesTheDecodedCommand : Prop :=
  ∀ (s : State) (c : Command) (p : BlockInputs) (rest : List HostAction) (i : Instr),
    s.cfg.legal = true → s.host = .command c p :: rest → decode c = .ok i →
      step s = exec i { s with inputs := p, host := rest }

/-- 60 R142: an illegal command changes no register, touches no port, answers status 1 and five zero words, and leaves the block
ready for the next command; every command that decodes answers status 0. -/
def Obligations.IllegalCommandOnlyAnswers : Prop :=
  (∀ (s : State) (c : Command) (p : BlockInputs) (rest : List HostAction) (e : DecodeError),
    s.cfg.legal = true → s.host = .command c p :: rest → decode c = .error e →
      ∃ t, step s = .next t ∧ t.response = some ⟨0x00000001#32, 0#32, 0#32, 0#32, 0#32, 0#32⟩ ∧ t.events = []
        ∧ t.cfg = s.cfg ∧ t.hp = s.hp ∧ t.lp = s.lp ∧ t.lfo = s.lfo ∧ t.ind = s.ind ∧ t.aout = s.aout
        ∧ t.indOut = s.indOut ∧ t.draws = s.draws ∧ t.inputs = p ∧ t.host = rest)
    ∧ ∀ (i : Instr) (s t : State), exec i s = .next t → ∃ r, t.response = some r ∧ r.rw0 = 0x00000000#32

/-- 60 R140: the ten commands always complete and always return status `OK`, for any operands and in any state. -/
def Obligations.EveryCommandCompletesOk : Prop :=
  ∀ (i : Instr) (s : State), ∃ t r0 r1 r2 r3 r4, exec i s = .next t ∧ t.response = some (okResponse r0 r1 r2 r3 r4)

/-- 10 R30 with the legal values of 10 R29: every command in a state that holds a record outside its legal values is refused, and so
is a reset, between commands or in the middle of one, under a record that would be sampled as such a record; neither is a fault. -/
def Obligations.IllegalParametersAreRefused : Prop :=
  ∀ (s : State) (bad : Cfg) (rest : List HostAction),
    (bad.k = 0 ∨ bad.nf = 0 ∨ bad.nch = 0 ∨ Binary32.isFinite bad.fs = false ∨ Binary32.lt 0x00000000#32 bad.fs = false
      ∨ Binary32.isFinite bad.fsLfo = false ∨ Binary32.isZero bad.fsLfo = true
      ∨ Binary32.lt bad.rawMin bad.rawMax = false) →
      (∀ cfg, cfg.sampled = bad → (s.host = .reset cfg :: rest → step s = .refused .illegalParameters)
          ∧ ∀ c p, s.host = .abandoned c p cfg :: rest → step s = .refused .illegalParameters)
        ∧ (s.cfg = bad → ∀ c p, (s.host = .command c p :: rest → step s = .refused .illegalParameters)
          ∧ ∀ cfg, s.host = .abandoned c p cfg :: rest → step s = .refused .illegalParameters)

/-- 10 R30, 60 R140: a step answers a next state unless it meets an illegal parameter record; it never faults. -/
def Obligations.OnlyIllegalParametersStopAStep : Prop :=
  ∀ s : State, (∃ t, step s = .next t)
    ∨ (step s = .refused .illegalParameters
      ∧ ((s.cfg.legal = false ∧ ∃ c p rest, s.host = .command c p :: rest)
        ∨ (∃ cfg rest, s.host = .reset cfg :: rest ∧ cfg.sampled.legal = false)
        ∨ ∃ c p cfg rest, s.host = .abandoned c p cfg :: rest ∧ (s.cfg.legal && cfg.sampled.legal) = false))

/-- 10 R32: the reset value of every register. -/
def Obligations.ResetValuesOfTheRegisters : Prop :=
  ∀ i : Inst, (State.reset.bq i).coeffs = ⟨0x3F800000#32, 0x00000000#32, 0x00000000#32, 0x00000000#32, 0x00000000#32⟩
    ∧ (State.reset.bq i).delay = ⟨0x00000000#32, 0x00000000#32, 0x00000000#32, 0x00000000#32⟩
    ∧ State.reset.lfo.phase = 0x00000000#32 ∧ State.reset.lfo.rate = 0x00000000#32 ∧ State.reset.ind = false

/-- 70 R160, R161, R162; 10 R33, R34; 00 R12: a reset, between commands or in the middle of one, puts every register at its reset
value whatever it held, samples the parameters, with `FS_LFO` the one rounded quotient of `FS` by `K`, and leaves the indicator output
at 0 and no response. Between commands `AOUT` stays; of a command abandoned each write to it may have happened or not. That `AOUT` and
the host's coming actions stay is the model's choice (log 14). -/
def Obligations.ResetClearsWhateverStood : Prop :=
  ∀ (s : State) (cfg : Cfg) (rest : List HostAction), cfg.sampled.legal = true →
    cfg.sampled = { cfg with fsLfo := cfg.sampled.fsLfo }
    ∧ Binary32.RoundsTo (Binary32.toRat cfg.fs / cfg.k) cfg.sampled.fsLfo
    ∧ (s.host = .reset cfg :: rest → ∃ t, step s = .next t ∧ FreshFrom cfg t ∧ t.host = rest
      ∧ ∀ a, t.aout.read a = s.aout.read a)
    ∧ ∀ c p, s.cfg.legal = true → s.aout.wf = true → s.host = .abandoned c p cfg :: rest →
      ∃ t, step s = .next t ∧ FreshFrom cfg t ∧ t.host = rest
        ∧ ∀ a, t.aout.read a = s.aout.read a
          ∨ ∃ i u, decode c = .ok i ∧ exec i { s with inputs := p, host := rest } = .next u
            ∧ PortEvent.writeAout a (t.aout.read a) ∈ u.events

/-- 60 R154, 70 R161: while the host presents nothing the block holds its registers. -/
def Obligations.TheBlockWaitsForACommand : Prop := ∀ s : State, s.host = [] → step s = .next s

/-! ## The number domain -/

/-- 00 R8: each addition, subtraction, multiplication and division of finite numbers is the exact result rounded once, to nearest,
ties to even, infinity on overflow; an exact zero sum or difference is +0 unless both its terms are negative zeros; a product or
quotient has the sign of its operands together, also where it is zero. The comparisons of finite words are those of the numbers. -/
def Obligations.ArithmeticRoundsCorrectly : Prop :=
  ∀ a b : Word, Binary32.isFinite a = true → Binary32.isFinite b = true →
    Binary32.RoundsTo (Binary32.toRat a + Binary32.toRat b) (Binary32.add a b)
      ∧ Binary32.RoundsTo (Binary32.toRat a - Binary32.toRat b) (Binary32.sub a b)
      ∧ Binary32.RoundsTo (Binary32.toRat a * Binary32.toRat b) (Binary32.mul a b)
      ∧ (Binary32.toRat b ≠ 0 → Binary32.RoundsTo (Binary32.toRat a / Binary32.toRat b) (Binary32.div a b))
      ∧ (Binary32.toRat a + Binary32.toRat b = 0 → Binary32.add a b
        = if a = 0x80000000#32 ∧ b = 0x80000000#32 then 0x80000000#32 else 0x00000000#32)
      ∧ (Binary32.toRat a - Binary32.toRat b = 0 → Binary32.sub a b
        = if a = 0x80000000#32 ∧ b = 0x00000000#32 then 0x80000000#32 else 0x00000000#32)
      ∧ Binary32.signBit (Binary32.mul a b) = (Binary32.signBit a != Binary32.signBit b)
      ∧ (Binary32.toRat b ≠ 0 → Binary32.signBit (Binary32.div a b) = (Binary32.signBit a != Binary32.signBit b))
      ∧ (Binary32.lt a b = true ↔ Binary32.toRat a < Binary32.toRat b)
      ∧ (Binary32.le a b = true ↔ Binary32.toRat a ≤ Binary32.toRat b)

/-- 60 R140, 00 R8, what IEEE 754 gives beyond the finite numbers: division by zero gives the infinity of the quotient's sign;
arithmetic with an infinite operand is that of the limit; the invalid operations and a NaN operand give a NaN; in comparisons the
infinities are the ends of the order, and every comparison with a NaN is false. -/
def Obligations.IeeeDefaultResults : Prop :=
  (∀ a z : Word, Binary32.isNaN a = false → Binary32.isZero a = false → Binary32.isZero z = true →
    Binary32.div a z = Binary32.inf (Binary32.signBit a != Binary32.signBit z))
    ∧ (∀ z z' : Word, Binary32.isZero z = true → Binary32.isZero z' = true → Binary32.isNaN (Binary32.div z z') = true)
    ∧ (∀ z v : Word, Binary32.isZero z = true → Binary32.isInf v = true →
      Binary32.isNaN (Binary32.mul z v) = true ∧ Binary32.isNaN (Binary32.mul v z) = true)
    ∧ (∀ v w : Word, Binary32.isInf v = true → Binary32.isInf w = true →
      Binary32.isNaN (Binary32.div v w) = true
        ∧ (if Binary32.signBit v = Binary32.signBit w then Binary32.add v w = v else Binary32.isNaN (Binary32.add v w) = true)
        ∧ (if Binary32.signBit v = Binary32.signBit w then Binary32.isNaN (Binary32.sub v w) = true else Binary32.sub v w = v)
        ∧ Binary32.mul v w = Binary32.inf (Binary32.signBit v != Binary32.signBit w)
        ∧ Binary32.lt v w = (Binary32.signBit v && !Binary32.signBit w)
        ∧ Binary32.le v w = (Binary32.signBit v || !Binary32.signBit w))
    ∧ (∀ a v : Word, Binary32.isFinite a = true → Binary32.isInf v = true →
      Binary32.add a v = v ∧ Binary32.add v a = v ∧ Binary32.sub v a = v
        ∧ Binary32.sub a v = Binary32.inf (!Binary32.signBit v)
        ∧ (Binary32.isZero a = false → Binary32.mul a v = Binary32.inf (Binary32.signBit a != Binary32.signBit v)
          ∧ Binary32.mul v a = Binary32.inf (Binary32.signBit a != Binary32.signBit v))
        ∧ Binary32.div v a = Binary32.inf (Binary32.signBit v != Binary32.signBit a)
        ∧ Binary32.div a v = (if Binary32.signBit a = Binary32.signBit v then 0x00000000#32 else 0x80000000#32)
        ∧ Binary32.lt v a = Binary32.signBit v ∧ Binary32.lt a v = !Binary32.signBit v
        ∧ Binary32.le v a = Binary32.signBit v ∧ Binary32.le a v = !Binary32.signBit v)
    ∧ (∀ a n : Word, Binary32.isNaN n = true →
      (∀ f ∈ [Binary32.add, Binary32.sub, Binary32.mul, Binary32.div],
        Binary32.isNaN (f a n) = true ∧ Binary32.isNaN (f n a) = true)
        ∧ Binary32.lt a n = false ∧ Binary32.lt n a = false ∧ Binary32.le a n = false ∧ Binary32.le n a = false)

/-- 43 R113: `floor(p)` is the largest integer not above `p`, an exact operation. -/
def Obligations.FloorIsExact : Prop :=
  ∀ w : Word, Binary32.isFinite w = true →
    Binary32.isFinite (Binary32.floor w) = true ∧ Binary32.toRat (Binary32.floor w) = ⌊Binary32.toRat w⌋

/-- 00 R10, properties P1 to P4, whatever the block's open functions answer and whatever `EPS_T` is. P3 is stated of every argument
that is no NaN. The clause that a NaN gives a NaN is no part of R10 and is the model's reading: of `EXP2` from 40 R84 (log 4), of
`SIN` and `COS` from 41 R95 (h) (log 5). -/
def Obligations.OpenFunctionsHaveTheNamedValues : Prop :=
  ∀ eps : ℚ, Elementary.exp2 eps 0x00000000#32 = 0x3F800000#32
    ∧ (Binary32.isFinite (Elementary.exp2 eps 0x3F800000#32) = true
      ∧ |Binary32.toRat (Elementary.exp2 eps 0x3F800000#32) - 2| ≤ 2 / 1000000)
    ∧ (∀ x : Word, Binary32.isNaN x = false →
      Binary32.isFinite (Elementary.sin eps x) = true ∧ |Binary32.toRat (Elementary.sin eps x)| ≤ 1
        ∧ Binary32.isFinite (Elementary.cos eps x) = true ∧ |Binary32.toRat (Elementary.cos eps x)| ≤ 1)
    ∧ (∀ x : Word, Binary32.isNaN x = true → Binary32.isNaN (Elementary.sin eps x) = true
      ∧ Binary32.isNaN (Elementary.cos eps x) = true ∧ Binary32.isNaN (Elementary.exp2 eps x) = true)
    ∧ Elementary.sin eps 0x00000000#32 = 0x00000000#32 ∧ Elementary.cos eps 0x00000000#32 = 0x3F800000#32

/-- 00 R10, property P5, whatever the block's open functions answer: `SIN` and `COS` on [0, 2*pi] and `EXP2` on [-8, 8] are finite and
stay within `EPS_T`, for any `EPS_T` from 2^-23 up, the default 2^-22 among them (below that rounding alone may not meet it; log 3). -/
def Obligations.OpenFunctionsAreAccurate : Prop :=
  ∀ (eps : ℚ) (x : Word), 1 / 2 ^ 23 ≤ eps → Binary32.isFinite x = true →
    (0 ≤ Binary32.toRat x → ((Binary32.toRat x : ℚ) : ℝ) ≤ 2 * Real.pi →
      (Binary32.isFinite (Elementary.sin eps x) = true
          ∧ |((Binary32.toRat (Elementary.sin eps x) : ℚ) : ℝ) - Real.sin ((Binary32.toRat x : ℚ) : ℝ)| ≤ ((eps : ℚ) : ℝ))
        ∧ Binary32.isFinite (Elementary.cos eps x) = true
          ∧ |((Binary32.toRat (Elementary.cos eps x) : ℚ) : ℝ) - Real.cos ((Binary32.toRat x : ℚ) : ℝ)| ≤ ((eps : ℚ) : ℝ))
      ∧ (-8 ≤ Binary32.toRat x → Binary32.toRat x ≤ 8 →
        Binary32.isFinite (Elementary.exp2 eps x) = true
          ∧ |((Binary32.toRat (Elementary.exp2 eps x) : ℚ) : ℝ) - (2 : ℝ) ^ ((Binary32.toRat x : ℚ) : ℝ)|
            ≤ ((eps : ℚ) : ℝ) * (2 : ℝ) ^ ((Binary32.toRat x : ℚ) : ℝ))

/-! ## parameter_mapper -/

/-- 40 R81, R82 (e): MAPLIN on sane raw bounds (finite and not equal) returns the affine map in the rule's order of operations; a NaN
operand gives a NaN; on any operands it completes and changes no register and no port. Over the reals it is the affine map
through the two end points. -/
def Obligations.MaplinReturnsTheAffineMap : Prop :=
  (∀ (raw rawMin rawMax outMin outMax : Word) (s : State),
    decode ⟨0x00000010#32, raw, rawMin, rawMax, outMin, outMax⟩ = .ok (.maplin raw rawMin rawMax outMin outMax)
      ∧ ∃ t out, exec (.maplin raw rawMin rawMax outMin outMax) s = .next t
        ∧ t.response = some (okResponse out 0#32 0#32 0#32 0#32) ∧ Untouched s t
        ∧ (Binary32.isFinite rawMin = true → Binary32.isFinite rawMax = true →
          Binary32.toRat rawMin ≠ Binary32.toRat rawMax →
          Binary32.agree out (Binary32.add outMin (Binary32.mul
            (Binary32.div (Binary32.sub raw rawMin) (Binary32.sub rawMax rawMin)) (Binary32.sub outMax outMin))))
        ∧ ((∃ w ∈ [raw, rawMin, rawMax, outMin, outMax], Binary32.isNaN w = true) → Binary32.isNaN out = true))
    ∧ ∀ raw rawMin rawMax outMin outMax : ℝ,
      Mapper.mapLinear Num.real raw rawMin rawMax outMin outMax
        = outMin + (raw - rawMin) * (outMax - outMin) / (rawMax - rawMin)

/-- 40 R82 (f), where no difference of two operands overflows: at `raw = rawMin` the result is the number `outMin`; at
`raw = rawMax` it is `outMin + (outMax - outMin)` as rounded. -/
def Obligations.MaplinEndValues : Prop :=
  ∀ (rawMin rawMax outMin outMax : Word) (s : State),
    Binary32.isFinite rawMin = true → Binary32.isFinite rawMax = true → Binary32.isFinite outMin = true →
    Binary32.toRat rawMin ≠ Binary32.toRat rawMax →
    Binary32.isFinite (Binary32.sub rawMax rawMin) = true → Binary32.isFinite (Binary32.sub outMax outMin) = true →
      (∃ t, exec (.maplin rawMin rawMin rawMax outMin outMax) s = .next t
        ∧ Binary32.isFinite t.r0 = true ∧ Binary32.toRat t.r0 = Binary32.toRat outMin)
      ∧ ∃ t, exec (.maplin rawMax rawMin rawMax outMin outMax) s = .next t
        ∧ Binary32.agree t.r0 (Binary32.add outMin (Binary32.sub outMax outMin))

/-- 40 R83: for the sequencer's three mappings and a raw reading in [RAW_MIN, RAW_MAX] the result lies within the inclusive range,
bit-exactly, and it does not decrease when the reading increases. -/
def Obligations.MaplinStaysInRangeAndIsMonotonic : Prop :=
  ∀ (raw raw' : Word) (s : State), Binary32.le 0x00000000#32 raw = true → Binary32.le raw raw' = true →
    Binary32.le raw' 0x3F53B646#32 = true →
    ∀ r ∈ [(0x41D80000#32, 0x42F60000#32), (0x3F19999A#32, 0x40A00000#32), (0x41A00000#32, 0x453B8000#32)],
      ∃ t t', exec (.maplin raw 0x00000000#32 0x3F53B646#32 r.1 r.2) s = .next t
        ∧ exec (.maplin raw' 0x00000000#32 0x3F53B646#32 r.1 r.2) s = .next t'
        ∧ Binary32.le r.1 t.r0 = true ∧ Binary32.le t.r0 t'.r0 = true ∧ Binary32.le t'.r0 r.2 = true

/-- 40 R83 over the reals: strictly monotonic with the sign of the slope, and within the two end values. -/
def Obligations.RealMapIsMonotonicWithinItsRange : Prop :=
  ∀ rawMin rawMax outMin outMax : ℝ, rawMin < rawMax →
    (∀ raw, rawMin ≤ raw → raw ≤ rawMax →
      min outMin outMax ≤ Mapper.mapLinear Num.real raw rawMin rawMax outMin outMax
        ∧ Mapper.mapLinear Num.real raw rawMin rawMax outMin outMax ≤ max outMin outMax)
      ∧ (outMin < outMax → StrictMono fun raw => Mapper.mapLinear Num.real raw rawMin rawMax outMin outMax)
      ∧ (outMax < outMin → StrictAnti fun raw => Mapper.mapLinear Num.real raw rawMin rawMax outMin outMax)

/-- 40 R84: NN2HZ returns `F_REF * EXP2((nn - NN_REF) / SEMIS)`, each operation rounded, and a NaN for a NaN; it changes no register
and no port. -/
def Obligations.Nn2hzReturnsThePitch : Prop :=
  ∀ (nn u v w x : Word) (s : State),
    decode ⟨0x00000011#32, nn, u, v, w, x⟩ = .ok (.nn2hz nn)
      ∧ ∃ t hz, exec (.nn2hz nn) s = .next t ∧ t.response = some (okResponse hz 0#32 0#32 0#32 0#32) ∧ Untouched s t
        ∧ Binary32.agree hz (Binary32.mul s.cfg.fRef
          (Elementary.exp2 s.cfg.epsT (Binary32.div (Binary32.sub nn s.cfg.nnRef) s.cfg.semis)))
        ∧ (Binary32.isNaN nn = true → Binary32.isNaN hz = true)

/-- 40 R84: the reference pitch is 440 exactly, and one octave up 880 within 1e-3, whatever the block's `EXP2`. -/
def Obligations.Nn2hzReferencePitches : Prop :=
  ∀ s : State, s.cfg.fRef = 0x43DC0000#32 → s.cfg.nnRef = 0x42700000#32 → s.cfg.semis = 0x41400000#32 →
    (∃ t, exec (.nn2hz 0x42700000#32) s = .next t ∧ t.r0 = 0x43DC0000#32)
      ∧ ∃ t, exec (.nn2hz 0x42900000#32) s = .next t ∧ Binary32.isFinite t.r0 = true
        ∧ |Binary32.toRat t.r0 - 880| ≤ 1 / 1000

/-- 40 R84 over the reals: positive, strictly increasing, 440 at 60, and 12 steps double it. -/
def Obligations.RealPitchDoublesEveryOctave : Prop :=
  (∀ nn : ℝ, 0 < Mapper.noteToHz Num.real 440 60 12 nn
      ∧ Mapper.noteToHz Num.real 440 60 12 (nn + 12) = 2 * Mapper.noteToHz Num.real 440 60 12 nn)
    ∧ StrictMono (Mapper.noteToHz Num.real 440 60 12) ∧ Mapper.noteToHz Num.real 440 60 12 60 = 440

/-- 40 R86: LPFREQ returns the sum where it is below the ceiling and the ceiling otherwise, a NaN sum included; with a ceiling that
is no NaN the result never exceeds it; it changes no register and no port. The rule's examples with the ceiling 19900. -/
def Obligations.LpfreqClampsTheSum : Prop :=
  ∀ (baseHz widthHz u v w : Word) (s : State),
    decode ⟨0x00000012#32, baseHz, widthHz, u, v, w⟩ = .ok (.lpfreq baseHz widthHz)
      ∧ (∃ t lp, exec (.lpfreq baseHz widthHz) s = .next t ∧ t.response = some (okResponse lp 0#32 0#32 0#32 0#32)
        ∧ Untouched s t
        ∧ lp = (if Binary32.lt (Binary32.add baseHz widthHz) s.cfg.lpCeil = true then Binary32.add baseHz widthHz
          else s.cfg.lpCeil)
        ∧ (Binary32.isNaN (Binary32.add baseHz widthHz) = true → lp = s.cfg.lpCeil)
        ∧ (Binary32.isNaN s.cfg.lpCeil = false → Binary32.le lp s.cfg.lpCeil = true))
      ∧ (s.cfg.lpCeil = 0x469B7800#32 →
        (∃ t, exec (.lpfreq 0x42200000#32 0x453B8000#32) s = .next t ∧ t.r0 = 0x453E0000#32)
          ∧ (∃ t, exec (.lpfreq 0x461C4000#32 0x453B8000#32) s = .next t ∧ t.r0 = 0x464B2000#32)
          ∧ ∃ t, exec (.lpfreq 0x461C4000#32 0x463B8000#32) s = .next t ∧ t.r0 = 0x469B7800#32)

/-- 40 R80: the three mapper commands read no register, write no register and touch no port; their results depend on their operand
words and the fixed parameters alone, up to the bits of a NaN (30 R65). -/
def Obligations.MapperCommandsArePure : Prop :=
  ∀ i : Instr, i.mnemonic = "MAPLIN" ∨ i.mnemonic = "NN2HZ" ∨ i.mnemonic = "LPFREQ" →
    ∀ s s' : State, s.cfg = s'.cfg →
      ∃ t t', exec i s = .next t ∧ exec i s' = .next t' ∧ Untouched s t ∧ Untouched s' t'
        ∧ CoeffsAgree t.coeffs t'.coeffs

/-! ## filter_coeff_calculator -/

/-- 41 R92, R91, R95 (b), (h): CHP inside its contract returns the cookbook high-pass, each operation rounded in the rule's order; on
any operands it completes, `b2` is `b0` bit for bit, a NaN operand gives NaNs, and no register and no port changes. -/
def Obligations.ChpReturnsTheHighPass : Prop :=
  ∀ (freqHz q fs u v : Word) (s : State),
    decode ⟨0x00000020#32, freqHz, q, fs, u, v⟩ = .ok (.chp freqHz q fs)
      ∧ ∃ t b0 b1 a1 a2, exec (.chp freqHz q fs) s = .next t ∧ t.response = some (okResponse b0 b1 b0 a1 a2)
        ∧ Untouched s t
        ∧ (Binary32.MeetsContract freqHz q fs →
          let w0 := Binary32.div (Binary32.mul 0x40C90FDB#32 freqHz) fs
          let cw := Elementary.cos s.cfg.epsT w0
          let sw := Elementary.sin s.cfg.epsT w0
          let alpha := Binary32.div sw (Binary32.mul 0x40000000#32 q)
          let a0 := Binary32.add 0x3F800000#32 alpha
          let tt := Binary32.add 0x3F800000#32 cw
          Binary32.agree b0 (Binary32.div (Binary32.div tt 0x40000000#32) a0)
            ∧ Binary32.agree b1 (Binary32.div (Binary32.sub 0x00000000#32 tt) a0)
            ∧ Binary32.agree a1 (Binary32.div (Binary32.mul 0xC0000000#32 cw) a0)
            ∧ Binary32.agree a2 (Binary32.div (Binary32.sub 0x3F800000#32 alpha) a0))
        ∧ ((∃ w ∈ [freqHz, q, fs], Binary32.isNaN w = true) → ∀ r ∈ [b0, b1, a1, a2], Binary32.isNaN r = true)

/-- 41 R93, R91, R95 (b), (h): CLP likewise returns the cookbook low-pass. -/
def Obligations.ClpReturnsTheLowPass : Prop :=
  ∀ (freqHz q fs u v : Word) (s : State),
    decode ⟨0x00000021#32, freqHz, q, fs, u, v⟩ = .ok (.clp freqHz q fs)
      ∧ ∃ t b0 b1 a1 a2, exec (.clp freqHz q fs) s = .next t ∧ t.response = some (okResponse b0 b1 b0 a1 a2)
        ∧ Untouched s t
        ∧ (Binary32.MeetsContract freqHz q fs →
          let w0 := Binary32.div (Binary32.mul 0x40C90FDB#32 freqHz) fs
          let cw := Elementary.cos s.cfg.epsT w0
          let sw := Elementary.sin s.cfg.epsT w0
          let alpha := Binary32.div sw (Binary32.mul 0x40000000#32 q)
          let a0 := Binary32.add 0x3F800000#32 alpha
          let tt := Binary32.sub 0x3F800000#32 cw
          Binary32.agree b0 (Binary32.div (Binary32.div tt 0x40000000#32) a0)
            ∧ Binary32.agree b1 (Binary32.div tt a0)
            ∧ Binary32.agree a1 (Binary32.div (Binary32.mul 0xC0000000#32 cw) a0)
            ∧ Binary32.agree a2 (Binary32.div (Binary32.sub 0x3F800000#32 alpha) a0))
        ∧ ((∃ w ∈ [freqHz, q, fs], Binary32.isNaN w = true) → ∀ r ∈ [b0, b1, a1, a2], Binary32.isNaN r = true)

/-- 41 R94: for the same three operands, inside the contract and outside it, CHP and CLP return the same a1 and a2, up to the bits of
a NaN (30 R65), in any two states of one block, whose numeric record, `EPS_T` with it, is one (00 R12). -/
def Obligations.ChpAndClpShareTheFeedback : Prop :=
  ∀ (freqHz q fs : Word) (s s' : State), s.cfg.epsT = s'.cfg.epsT →
    ∃ t t', exec (.chp freqHz q fs) s = .next t ∧ exec (.clp freqHz q fs) s' = .next t'
    ∧ Binary32.agree t.coeffs.a1 t'.coeffs.a1 ∧ Binary32.agree t.coeffs.a2 t'.coeffs.a2

/-- 41 R90: CHP and CLP are functions of their operand words alone (NaN payloads excepted) in one block, whose numeric record, `EPS_T`
with it, is one (00 R12); they read no register, write no register, touch no port, and load nothing into a biquad. -/
def Obligations.CoefficientCommandsArePure : Prop :=
  ∀ i : Instr, i.mnemonic = "CHP" ∨ i.mnemonic = "CLP" →
    ∀ s s' : State, s.cfg.epsT = s'.cfg.epsT → ∃ t t', exec i s = .next t ∧ exec i s' = .next t' ∧ Untouched s t ∧ Untouched s' t'
      ∧ CoeffsAgree t.coeffs t'.coeffs

/-- 41 R96 over the reals: inside the contract both coefficient sets meet the stability condition. -/
def Obligations.RealCoefficientsAreStable : Prop :=
  ∀ freqHz q fs : ℝ, InContract freqHz q fs →
    (0 < Coeff.w0 Num.real freqHz fs ∧ Coeff.w0 Num.real freqHz fs < Real.pi
      ∧ 0 < Coeff.alpha Num.real freqHz q fs ∧ 1 < Coeff.a0 Num.real freqHz q fs)
      ∧ ∀ c ∈ [Coeff.highPass Num.real freqHz q fs, Coeff.lowPass Num.real freqHz q fs],
        |c.a2| < 1 ∧ |c.a1| < 1 + c.a2

/-- 41 R97 over the reals: inside the contract CLP has gain 1 at 0 Hz and 0 at half the sample rate, CHP 0 and 1, and both have gain
`q` at `freqHz`. -/
def Obligations.RealGainsAtTheThreeFrequencies : Prop :=
  ∀ freqHz q fs : ℝ, InContract freqHz q fs →
    let hp := Coeff.highPass Num.real freqHz q fs
    let lp := Coeff.lowPass Num.real freqHz q fs
    let zinv := Complex.exp (-(Complex.I * ((Coeff.w0 Num.real freqHz fs : ℝ) : ℂ)))
    (∀ c ∈ [hp, lp], denominator c 1 ≠ 0 ∧ denominator c (-1) ≠ 0 ∧ denominator c zinv ≠ 0)
      ∧ numerator lp 1 / denominator lp 1 = 1 ∧ numerator lp (-1) / denominator lp (-1) = 0
      ∧ numerator hp 1 / denominator hp 1 = 0 ∧ numerator hp (-1) / denominator hp (-1) = 1
      ∧ ‖numerator lp zinv / denominator lp zinv‖ = q ∧ ‖numerator hp zinv / denominator hp zinv‖ = q

/-! ## biquad_iir_filter -/

/-- 42 R101: BQSET replaces the five coefficients of its instance, bit for bit and without validation, and leaves its delay line and
everything else alone. -/
def Obligations.BqsetReplacesTheCoefficients : Prop :=
  ∀ (i j : Inst) (b0 b1 b2 a1 a2 : Word) (s : State),
    decode ⟨if i = .lp then 0x00000130#32 else 0x00000030#32, b0, b1, b2, a1, a2⟩ = .ok (.bqset i b0 b1 b2 a1 a2)
      ∧ ∃ t, exec (.bqset i b0 b1 b2 a1 a2) s = .next t ∧ t.response = some (okResponse 0#32 0#32 0#32 0#32 0#32)
        ∧ (t.bq i).coeffs = ⟨b0, b1, b2, a1, a2⟩ ∧ (t.bq i).delay = (s.bq i).delay
        ∧ (j ≠ i → t.bq j = s.bq j) ∧ t.lfo = s.lfo ∧ t.ind = s.ind
        ∧ HostSideKept s t ∧ OutputsKept s t ∧ t.events = []

/-- 42 R103: BQTICK returns the direct form I difference equation in the rule's order of operations on the old values, advances the
delay line of its instance, and leaves its coefficients and everything else alone. Over the reals it is the equation
`y = b0 x + b1 x1 + b2 x2 - a1 y1 - a2 y2`. -/
def Obligations.BqtickComputesTheDifferenceEquation : Prop :=
  (∀ (i j : Inst) (x u v w z : Word) (s : State),
    decode ⟨if i = .lp then 0x00000131#32 else 0x00000031#32, x, u, v, w, z⟩ = .ok (.bqtick i x)
      ∧ ∃ t y, exec (.bqtick i x) s = .next t ∧ t.response = some (okResponse y 0#32 0#32 0#32 0#32)
        ∧ (let c := (s.bq i).coeffs
           let d := (s.bq i).delay
           Binary32.agree y (Binary32.sub (Binary32.sub (Binary32.add (Binary32.add (Binary32.mul c.b0 x)
             (Binary32.mul c.b1 d.x1)) (Binary32.mul c.b2 d.x2)) (Binary32.mul c.a1 d.y1)) (Binary32.mul c.a2 d.y2)))
        ∧ (t.bq i).coeffs = (s.bq i).coeffs
        ∧ (t.bq i).delay = ⟨x, (s.bq i).delay.x1, y, (s.bq i).delay.y1⟩
        ∧ (j ≠ i → t.bq j = s.bq j) ∧ t.lfo = s.lfo ∧ t.ind = s.ind
        ∧ HostSideKept s t ∧ OutputsKept s t ∧ t.events = [])
    ∧ ∀ (c : Coeffs ℝ) (d : Delay ℝ) (x : ℝ), Filter.output Num.real c d x
      = c.b0 * x + c.b1 * d.x1 + c.b2 * d.x2 - c.a1 * d.y1 - c.a2 * d.y2

/-- 42 R100: a biquad command reads and writes only the nine registers of the instance it names: from two states that agree on that
instance it leaves that instance the same (up to the bits of a NaN output) and answers the same; the other instance, the LFO,
`IND` and the ports are left alone. -/
def Obligations.BiquadInstancesAreIsolated : Prop :=
  ∀ (i : Inst) (c : Instr), ((∃ b0 b1 b2 a1 a2, c = .bqset i b0 b1 b2 a1 a2) ∨ ∃ x, c = .bqtick i x) →
    ∀ s s' : State, s.bq i = s'.bq i →
      ∃ t t', exec c s = .next t ∧ exec c s' = .next t'
        ∧ Binary32.agree t.r0 t'.r0
        ∧ (t.bq i).coeffs = (t'.bq i).coeffs ∧ (t.bq i).delay.x1 = (t'.bq i).delay.x1
        ∧ (t.bq i).delay.x2 = (t'.bq i).delay.x2 ∧ Binary32.agree (t.bq i).delay.y1 (t'.bq i).delay.y1
        ∧ (t.bq i).delay.y2 = (t'.bq i).delay.y2
        ∧ (∀ j, j ≠ i → t.bq j = s.bq j) ∧ t.lfo = s.lfo ∧ t.ind = s.ind ∧ OutputsKept s t ∧ t.events = []

/-- 42 R102 (c): a BQSET whose operands equal the five registers bit for bit changes no register. -/
def Obligations.RepeatedBqsetChangesNothing : Prop :=
  ∀ (i : Inst) (s : State), ∃ t,
    exec (.bqset i (s.bq i).coeffs.b0 (s.bq i).coeffs.b1 (s.bq i).coeffs.b2 (s.bq i).coeffs.a1 (s.bq i).coeffs.a2) s = .next t
      ∧ Untouched s t

/-- 42 R104 (a): with the coefficients (1, 0, 0, 0, 0) and a finite delay line a finite input comes out as it went in; only the sign of
a negative zero can change. -/
def Obligations.InertCoefficientsPassTheSignal : Prop :=
  ∀ (i : Inst) (x : Word) (s : State),
    (s.bq i).coeffs = ⟨0x3F800000#32, 0x00000000#32, 0x00000000#32, 0x00000000#32, 0x00000000#32⟩ →
    (∀ w ∈ [x, (s.bq i).delay.x1, (s.bq i).delay.x2, (s.bq i).delay.y1, (s.bq i).delay.y2], Binary32.isFinite w = true) →
      ∃ t, exec (.bqtick i x) s = .next t ∧ (x ≠ 0x80000000#32 → t.r0 = x) ∧ (x = 0x80000000#32 → Binary32.isZero t.r0 = true)

/-- 42 R104 (b), 70 R179: a NaN sample, and a non-finite word in the delay line whatever its coefficient is when that is zero, makes
the output a NaN. -/
def Obligations.NonFiniteHistoryPoisonsTheOutput : Prop :=
  ∀ (i : Inst) (x : Word) (s : State),
    (Binary32.isNaN x = true
      ∨ (∃ p ∈ [((s.bq i).coeffs.b1, (s.bq i).delay.x1), ((s.bq i).coeffs.b2, (s.bq i).delay.x2),
            ((s.bq i).coeffs.a1, (s.bq i).delay.y1), ((s.bq i).coeffs.a2, (s.bq i).delay.y2)],
          Binary32.isNaN p.2 = true ∨ (Binary32.isZero p.1 = true ∧ Binary32.isInf p.2 = true))) →
      ∃ t, exec (.bqtick i x) s = .next t ∧ Binary32.isNaN t.r0 = true ∧ Binary32.isNaN (t.bq i).delay.y1 = true

/-- 42 R107 over the reals: a stable set fed an impulse from rest answers a response that tends to 0. -/
def Obligations.RealImpulseResponseDecays : Prop :=
  ∀ c : Coeffs ℝ, |c.a2| < 1 → |c.a1| < 1 + c.a2 →
    Filter.Tendsto (outputAt c fun n => if n = 0 then 1 else 0) Filter.atTop (nhds 0)

/-! ## lfo_oscillator -/

/-- 43 R111: LFORATE stores its operand, bit for bit, in LFO.RATE, and leaves LFO.PHASE and everything else alone. -/
def Obligations.LforateSetsTheRate : Prop :=
  ∀ (hz u v w z : Word) (s : State),
    decode ⟨0x00000040#32, hz, u, v, w, z⟩ = .ok (.lforate hz)
      ∧ ∃ t, exec (.lforate hz) s = .next t ∧ t.response = some (okResponse 0#32 0#32 0#32 0#32 0#32)
        ∧ t.lfo.rate = hz ∧ t.lfo.phase = s.lfo.phase
        ∧ t.hp = s.hp ∧ t.lp = s.lp ∧ t.ind = s.ind ∧ HostSideKept s t ∧ OutputsKept s t ∧ t.events = []

/-- 43 R113: LFOTICK returns the waveform of the phase before the advance and advances the phase by `RATE / FS_LFO`, wrapped by
`p - floor(p)` with the guard; it leaves LFO.RATE and everything else alone. -/
def Obligations.LfotickReturnsTheSampleAndAdvances : Prop :=
  ∀ (u v w y z : Word) (s : State),
    decode ⟨0x00000041#32, u, v, w, y, z⟩ = .ok .lfotick
      ∧ ∃ t out, exec .lfotick s = .next t ∧ t.response = some (okResponse out 0#32 0#32 0#32 0#32)
        ∧ (s.cfg.lfoWave = .sine → Binary32.agree out (Elementary.sin s.cfg.epsT (Binary32.mul 0x40C90FDB#32 s.lfo.phase)))
        ∧ (∀ n, s.cfg.lfoWave = .other n → Binary32.agree out (Config.otherWave n s.lfo.phase))
        ∧ (let p := Binary32.add s.lfo.phase (Binary32.div s.lfo.rate s.cfg.fsLfo)
           let r := Binary32.sub p (Binary32.floor p)
           t.lfo.phase = if Binary32.le 0x00000000#32 r = true ∧ Binary32.lt r 0x3F800000#32 = true then r
             else 0x00000000#32)
        ∧ t.lfo.rate = s.lfo.rate
        ∧ t.hp = s.hp ∧ t.lp = s.lp ∧ t.ind = s.ind ∧ HostSideKept s t ∧ OutputsKept s t ∧ t.events = []

/-- 10 R25: the phase is in [0, 1) after reset and after every LFOTICK, whatever the rate and the phase before; no other command
writes it (RENDER with `LFO_WIRE = 1` does what LFOTICK does), so once in [0, 1) it stays there. -/
def Obligations.ThePhaseStaysInTheUnitInterval : Prop :=
  (∀ cfg, Binary32.inUnit (State.resetWith cfg).lfo.phase = true)
    ∧ (∀ s t : State, exec .lfotick s = .next t → Binary32.inUnit t.lfo.phase = true)
    ∧ (∀ (i : Instr) (s t : State), exec i s = .next t → i ≠ .lfotick → (i = .render → s.cfg.lfoWire = false) →
      t.lfo.phase = s.lfo.phase)
    ∧ ∀ (i : Instr) (s t : State), exec i s = .next t → Binary32.inUnit s.lfo.phase = true →
      Binary32.inUnit t.lfo.phase = true

/-- 43 R112: LFORATE is the only command that changes LFO.RATE, and the rate is 0 after reset. -/
def Obligations.OnlyLforateChangesTheRate : Prop :=
  (∀ cfg, (State.resetWith cfg).lfo.rate = 0x00000000#32)
    ∧ ∀ (i : Instr) (s t : State), exec i s = .next t → (∀ hz, i ≠ .lforate hz) → t.lfo.rate = s.lfo.rate

/-- 43 R114 (a): at rate 0 the phase does not move. -/
def Obligations.RateZeroHoldsThePhase : Prop :=
  ∀ s : State, Binary32.isZero s.lfo.rate = true → Binary32.isFinite s.cfg.fsLfo = true →
    Binary32.isZero s.cfg.fsLfo = false → Binary32.inUnit s.lfo.phase = true → s.lfo.phase ≠ 0x80000000#32 →
      ∃ t, exec .lfotick s = .next t ∧ t.lfo = s.lfo

/-- 43 R113: with the default waveform and a phase in [0, 1) the sample is within [-1, 1]; at phase 0 it is 0 exactly. -/
def Obligations.TheDefaultSampleIsBounded : Prop :=
  ∀ s : State, s.cfg.lfoWave = .sine → Binary32.inUnit s.lfo.phase = true →
    ∃ t, exec .lfotick s = .next t ∧ Binary32.isFinite t.r0 = true ∧ |Binary32.toRat t.r0| ≤ 1
      ∧ (s.lfo.phase = 0x00000000#32 → t.r0 = 0x00000000#32)

/-! ## sequencer -/

/-- 44 R121, R128: RENDER is BLKSW, then for each frame in ascending order the control update where IND = 1 and `n mod K = 0`, then
the frame, which takes the channels in ascending order; then the response `OK` with five zero words. -/
def Obligations.RenderRunsTheLoop : Prop :=
  (∀ (u v w y z : Word), decode ⟨0x00000050#32, u, v, w, y, z⟩ = .ok .render)
    ∧ (∀ s : State, ∃ at_ : Nat → State, at_ 0 = blksw { s with events := [] }
      ∧ (∀ n, at_ (n + 1) = frame n (if (at_ n).ind = true ∧ n % s.cfg.k = 0 then ctrlupd (n / s.cfg.k) (at_ n) else at_ n))
      ∧ exec .render s = .next { at_ s.cfg.nf with response := some (okResponse 0#32 0#32 0#32 0#32 0#32) })
    ∧ ∀ (n : Nat) (s : State), ∃ at_ : Nat → State, at_ 0 = s ∧ (∀ c, at_ (c + 1) = frameSample n c (at_ c))
      ∧ frame n s = at_ s.cfg.nch

/-- 44 R122: the switch is read once, first, latched in IND and written to the indicator output, in every block, exactly once. -/
def Obligations.RenderLatchesTheSwitch : Prop :=
  ∀ s : State, ∃ t rest, exec .render s = .next t ∧ t.ind = s.inputs.swin ∧ t.indOut = s.inputs.swin
    ∧ t.events = [.readSwin 0 s.inputs.swin, .writeIndOut 0 s.inputs.swin] ++ rest
    ∧ ∀ e ∈ rest, e.place.1 ≠ .swin ∧ e.place.1 ≠ .indOut

/-- 44 R121, R122, R124, R128; 20 R41, R42, R48, R52: the port events of a block take place in exactly the scheduled order, and each
read carries what the port held and each write what the output port then holds. -/
def Obligations.RenderPortEventsFollowTheSchedule : Prop :=
  ∀ s : State, s.aout.wf = true → ∃ t, exec .render s = .next t ∧ t.events.map PortEvent.place = schedule s.cfg s.inputs.swin
    ∧ ∀ e ∈ t.events, e.holdsIn t

/-- 44 R129, R130: in a Bypass block every element of AOUT receives the word of AIN, bit for bit; no register but IND is written, CIN
is not read. -/
def Obligations.BypassCopiesAndFreezes : Prop :=
  ∀ s : State, s.inputs.swin = false → s.aout.wf = true →
    ∃ t, exec .render s = .next t ∧ (∀ k, k < s.cfg.nf * s.cfg.nch → t.aout.read k = s.inputs.ain.read k)
      ∧ t.hp = s.hp ∧ t.lp = s.lp ∧ t.lfo = s.lfo ∧ t.ind = false ∧ t.indOut = false
      ∧ ∀ e ∈ t.events, e.place.1 ≠ .cin

/-- 44 R121, R130; 43 R116: what RENDER leaves alone: the parameters, the input ports, LFO.RATE, the elements of AOUT outside the
block, the LFO's phase when `LFO_WIRE = 0` or in Bypass. -/
def Obligations.RenderLeavesTheRestAlone : Prop :=
  ∀ s : State, ∃ t, exec .render s = .next t ∧ t.response = some (okResponse 0#32 0#32 0#32 0#32 0#32) ∧ HostSideKept s t
    ∧ t.lfo.rate = s.lfo.rate
    ∧ (∀ a, (∀ n c, n < s.cfg.nf → c < s.cfg.nch → a ≠ audioIndex s.cfg n c) → t.aout.read a = s.aout.read a)
    ∧ (s.cfg.lfoWire = false ∨ s.inputs.swin = false → t.lfo = s.lfo)

/-- 44 R124, R125, R126: a control update leaves the registers that the commands MAPLIN, NN2HZ, MAPLIN, MAPLIN, with `LFO_WIRE = 1`
LFOTICK, then LPFREQ, CHP at the base frequency, CLP at the low-pass frequency, BQSET.HP, BQSET.LP leave, each operand being the result
named in the rule. The base frequency that LPFREQ and CHP take is NN2HZ's, and with `LFO_WIRE = 1` what `MODFN` makes of it and of
LFOTICK's sample. It reads three elements of CIN in index order. -/
def Obligations.ControlUpdateIsItsCommandSequence : Prop :=
  ∀ (t : Nat) (s : State),
    ∃ s1 s2 s3 s4 s5 s6 s7 s8 s9 s10, ∃ base : Word,
      exec (.maplin (s.inputs.cin.read (3 * t)) s.cfg.rawMin s.cfg.rawMax s.cfg.nnLo s.cfg.nnHi) s = .next s1
        ∧ exec (.nn2hz s1.r0) s1 = .next s2
        ∧ exec (.maplin (s.inputs.cin.read (3 * t + 1)) s.cfg.rawMin s.cfg.rawMax s.cfg.wLo s.cfg.wHi) s2 = .next s3
        ∧ exec (.maplin (s.inputs.cin.read (3 * t + 2)) s.cfg.rawMin s.cfg.rawMax s.cfg.qLo s.cfg.qHi) s3 = .next s4
        ∧ (s.cfg.lfoWire = false → s5 = s4 ∧ base = s2.r0)
        ∧ (s.cfg.lfoWire = true → exec .lfotick s4 = .next s5 ∧ (s.cfg.modFn = .keepBase → base = s2.r0)
          ∧ ∀ n, s.cfg.modFn = .other n → base = Config.otherMod n s2.r0 s5.r0)
        ∧ exec (.lpfreq base s3.r0) s5 = .next s6
        ∧ exec (.chp base s4.r0 s.cfg.fs) s6 = .next s7
        ∧ exec (.clp s6.r0 s4.r0 s.cfg.fs) s7 = .next s8
        ∧ exec (.bqset .hp s7.coeffs.b0 s7.coeffs.b1 s7.coeffs.b2 s7.coeffs.a1 s7.coeffs.a2) s8 = .next s9
        ∧ exec (.bqset .lp s8.coeffs.b0 s8.coeffs.b1 s8.coeffs.b2 s8.coeffs.a1 s8.coeffs.a2) s9 = .next s10
        ∧ (ctrlupd t s).hp = s10.hp ∧ (ctrlupd t s).lp = s10.lp ∧ (ctrlupd t s).lfo = s10.lfo ∧ (ctrlupd t s).ind = s10.ind
        ∧ (ctrlupd t s).aout = s10.aout ∧ (ctrlupd t s).draws = s10.draws
        ∧ (ctrlupd t s).events = s.events ++ [.readCin (3 * t) (s.inputs.cin.read (3 * t)),
          .readCin (3 * t + 1) (s.inputs.cin.read (3 * t + 1)), .readCin (3 * t + 2) (s.inputs.cin.read (3 * t + 2))]

/-- 44 R126, 43 R116: at the wiring point nothing happens with `LFO_WIRE = 0`; with `LFO_WIRE = 1` the LFO is ticked once, as LFOTICK
ticks it, and `MODFN` combines its sample with the base frequency, the default keeping the base. -/
def Obligations.TheWiringPointTicksTheLfo : Prop :=
  ∀ (base : Word) (s : State),
    (s.cfg.lfoWire = false → modulateBase base s = (base, s))
      ∧ (s.cfg.lfoWire = true → ∃ s1, exec .lfotick s = .next s1
        ∧ (modulateBase base s).2 = { s1 with response := s.response, events := s.events }
        ∧ (s.cfg.modFn = .keepBase → (modulateBase base s).1 = base)
        ∧ ∀ n, s.cfg.modFn = .other n → (modulateBase base s).1 = Config.otherMod n base s1.r0)

/-- 44 R128: in Filtering one sample of a frame is read, goes through BQTICK.HP and then BQTICK.LP, and is written. -/
def Obligations.FrameSampleIsTwoTicksInSeries : Prop :=
  ∀ (n c : Nat) (s : State), s.ind = true →
    ∃ s1 s2, exec (.bqtick .hp (s.inputs.ain.read (n * s.cfg.nch + c))) s = .next s1
      ∧ exec (.bqtick .lp s1.r0) s1 = .next s2
      ∧ (frameSample n c s).hp = s2.hp ∧ (frameSample n c s).lp = s2.lp ∧ (frameSample n c s).lfo = s2.lfo
      ∧ (frameSample n c s).ind = s2.ind ∧ (frameSample n c s).draws = s2.draws
      ∧ (frameSample n c s).aout = s.aout.write (n * s.cfg.nch + c) s2.r0
      ∧ (frameSample n c s).events = s.events ++
        [.readAin (n * s.cfg.nch + c) (s.inputs.ain.read (n * s.cfg.nch + c)), .writeAout (n * s.cfg.nch + c) s2.r0]

/-- 42 R106: with two channels one delay line serves both: after frame `n` the high-pass holds R(n) and, behind it, L(n), and the
low-pass holds the high-pass's last two outputs. -/
def Obligations.StereoSharesOneDelayLine : Prop :=
  ∀ (n : Nat) (s : State), s.ind = true → s.cfg.nch = 2 →
    (frame n s).hp.delay.x1 = s.inputs.ain.read (n * 2 + 1) ∧ (frame n s).hp.delay.x2 = s.inputs.ain.read (n * 2)
      ∧ (frame n s).lp.delay.x1 = (frame n s).hp.delay.y1 ∧ (frame n s).lp.delay.x2 = (frame n s).hp.delay.y2

/-- 44 R127, 40 R87: with every raw reading in [RAW_MIN, RAW_MAX], the mapping constants of 00 R12, an `EPS_T` of 2^-23 to 2^-22 (the
default), `LFO_WIRE = 0` and FS > 39800, both designs of a control update are inside the contract of CHP and CLP, and the mapped
parameters are in their ranges. -/
def Obligations.InRangeControlsMeetTheContract : Prop :=
  ∀ (t : Nat) (s : State), s.cfg.MapsAsGiven → s.cfg.lfoWire = false → Binary32.isFinite s.cfg.fs = true →
    39800 < Binary32.toRat s.cfg.fs → 1 / 2 ^ 23 ≤ s.cfg.epsT → s.cfg.epsT ≤ 1 / 2 ^ 22 →
    (∀ i, i < 3 → Binary32.le 0x00000000#32 (s.inputs.cin.read (3 * t + i)) = true
      ∧ Binary32.le (s.inputs.cin.read (3 * t + i)) 0x3F53B646#32 = true) →
      let p := (mapControls (readControls t s).1 (readControls t s).2).1
      Binary32.MeetsContract p.1 p.2.2 s.cfg.fs ∧ Binary32.MeetsContract p.2.1 p.2.2 s.cfg.fs
        ∧ Binary32.le 0x3F19999A#32 p.2.2 = true ∧ Binary32.le p.2.2 0x40A00000#32 = true
        ∧ 65 ≤ Binary32.toRat p.1 ∧ Binary32.toRat p.1 ≤ 16745
        ∧ 85 ≤ Binary32.toRat p.2.1 ∧ Binary32.toRat p.2.1 ≤ 19900

/-- 44 R131 (95 E10): with the same readings and parameters, and `LFO_WIRE = 0`, two control updates write the same ten coefficient
words, up to the bits of a NaN, whatever the registers held. -/
def Obligations.SameControlsGiveTheSameCoefficients : Prop :=
  ∀ (t t' : Nat) (s s' : State), s.cfg = s'.cfg → s.cfg.lfoWire = false →
    (∀ i, i < 3 → s.inputs.cin.read (3 * t + i) = s'.inputs.cin.read (3 * t' + i)) →
      CoeffsAgree (ctrlupd t s).hp.coeffs (ctrlupd t' s').hp.coeffs
        ∧ CoeffsAgree (ctrlupd t s).lp.coeffs (ctrlupd t' s').lp.coeffs

/-- 44 R131: RENDER is a function of the biquad and LFO registers before it, the parameters and the block's inputs (and of the free
values of NaN results): what else the two states hold, IND among it, has no effect on the registers, the port events and the
block's output. -/
def Obligations.RenderHasNoOtherInput : Prop :=
  ∀ s s' : State, s.cfg = s'.cfg → s.hp = s'.hp → s.lp = s'.lp → s.lfo = s'.lfo → s.inputs = s'.inputs → s.draws = s'.draws →
    ∃ t t', exec .render s = .next t ∧ exec .render s' = .next t'
      ∧ t.hp = t'.hp ∧ t.lp = t'.lp ∧ t.lfo = t'.lfo ∧ t.ind = t'.ind ∧ t.indOut = t'.indOut ∧ t.events = t'.events
      ∧ (s.aout.wf = true → s'.aout.wf = true → ∀ k, k < s.cfg.nf * s.cfg.nch → t.aout.read k = t'.aout.read k)

/-! ## The machine's invariant -/

/-- The invariant holds after reset with any legal parameter record (10 R25, R26, R30). -/
def Obligations.ResetMeetsTheInvariant : Prop :=
  State.reset.Inv ∧ ∀ cfg : Cfg, cfg.sampled.legal = true → (State.resetWith cfg).Inv

/-- Every step keeps the invariant, from every state that meets it: legal parameters (10 R30), `FS_LFO` the rounded quotient of `FS`
by `K` (00 R12), the phase in [0, 1) (10 R25), the indicator output equal to IND (10 R26), canonical port spaces, only the two
response forms (30 R63, 60 R142), and no port event outside its space (20 R45). -/
def Obligations.StepKeepsTheInvariant : Prop := ∀ s t : State, s.Inv → step s = .next t → t.Inv
end

