-- ==== Sys2Proof/Laws/Binary32.lean ====
section
/-! SUPPORT. Rounding, said once: the bits and the value of a packed word, and that `round` answers a nearest word, ties to an
even significand (00 R8). -/

namespace Sys2Proof.Binary32

/-- The magnitude bits 30:0 stand for, in units of 2^-149. -/
def magBits (m : Nat) : Nat := if m / 2 ^ 23 = 0 then m else (2 ^ 23 + m % 2 ^ 23) * 2 ^ (m / 2 ^ 23 - 1)

theorem pack_toNat (neg : Bool) {m : Nat} (h : m < 2 ^ 31) : (pack neg m).toNat = (if neg then 2 ^ 31 else 0) + m := by
  unfold pack
  rw [BitVec.toNat_ofNat, Nat.mod_eq_of_lt]
  cases neg <;> (simp; omega)

@[simp] theorem expo_pack (neg : Bool) {m : Nat} (h : m < 2 ^ 31) : expo (pack neg m) = m / 2 ^ 23 := by
  rw [expo, pack_toNat neg h]; cases neg <;> (simp; omega)

@[simp] theorem frac_pack (neg : Bool) {m : Nat} (h : m < 2 ^ 31) : frac (pack neg m) = m % 2 ^ 23 := by
  rw [frac, pack_toNat neg h]; cases neg <;> (simp; try omega)

@[simp] theorem signBit_pack (neg : Bool) {m : Nat} (h : m < 2 ^ 31) : signBit (pack neg m) = neg := by
  rw [signBit, BitVec.getLsbD, Nat.testBit_eq_decide_div_mod_eq, pack_toNat neg h]; cases neg <;> (simp; omega)

/-- Every word is the packing of its sign and its bits 30:0. -/
theorem pack_eta (w : Word) : pack (signBit w) (w.toNat % 2 ^ 31) = w := by
  have hw := w.isLt
  apply BitVec.eq_of_toNat_eq
  rw [pack_toNat _ (Nat.mod_lt _ (by norm_num))]
  have : signBit w = decide (w.toNat / 2 ^ 31 % 2 = 1) := by
    rw [signBit, BitVec.getLsbD, Nat.testBit_eq_decide_div_mod_eq]
  rw [this]
  simp only [decide_eq_true_eq]
  split <;> omega

theorem mag_pack (neg : Bool) {m : Nat} (h : m < 2 ^ 31) : mag (pack neg m) = magBits m := by
  unfold mag magBits
  rw [expo_pack neg h, frac_pack neg h]
  split
  · next h0 => rw [Nat.mod_eq_of_lt]; omega
  · rfl

theorem isFinite_pack (neg : Bool) {m : Nat} (h : m < infBits) : isFinite (pack neg m) = true := by
  have : m < 2 ^ 31 := by simp [infBits] at h; omega
  simp only [isFinite, expo_pack neg this, bne_iff_ne, ne_eq]
  simp [infBits] at h; omega

theorem bits_lt_of_finite {w : Word} (h : isFinite w = true) : w.toNat % 2 ^ 31 < infBits := by
  simp only [isFinite, expo, bne_iff_ne, ne_eq] at h
  have := w.isLt
  simp only [infBits]; omega

/-- `s * 2^23 + r` with `r` a significand of 24 bits, or the next power of two, stands for `r * 2^s`. -/
theorem magBits_add {s r : Nat} (h : r ≤ 2 ^ 24) (hs : s = 0 ∨ 2 ^ 23 ≤ r) : magBits (s * 2 ^ 23 + r) = r * 2 ^ s := by
  unfold magBits
  rcases Nat.lt_or_ge r (2 ^ 23) with hr | hr
  · obtain rfl : s = 0 := by omega
    rw [if_pos (by omega), pow_zero, mul_one, zero_mul, zero_add]
  · rcases Nat.lt_or_ge r (2 ^ 24) with h4 | h4
    · have h1 : (s * 2 ^ 23 + r) / 2 ^ 23 = s + 1 := by omega
      have h2 : (s * 2 ^ 23 + r) % 2 ^ 23 = r - 2 ^ 23 := by omega
      rw [h1, h2, if_neg (by omega), Nat.add_sub_cancel' hr, Nat.add_sub_cancel]
    · have hr' : r = 2 ^ 24 := le_antisymm h h4
      have h1 : (s * 2 ^ 23 + r) / 2 ^ 23 = s + 2 := by omega
      have h2 : (s * 2 ^ 23 + r) % 2 ^ 23 = 0 := by omega
      rw [h1, h2, if_neg (by omega), hr']
      rw [show s + 2 - 1 = s + 1 by omega, Nat.add_zero, pow_succ' 2 s, ← Nat.mul_assoc]
      norm_num

/-- Every magnitude is a multiple of `2^s`, or below `2^(23 + s)`. -/
theorem magBits_dvd_or_lt (m s : Nat) : 2 ^ s ∣ magBits m ∨ magBits m < 2 ^ (23 + s) := by
  unfold magBits
  split
  · right
    calc m < 2 ^ 23 := by omega
      _ ≤ 2 ^ (23 + s) := Nat.pow_le_pow_right (by norm_num) (by omega)
  · rcases Nat.lt_or_ge (m / 2 ^ 23 - 1) s with h | h
    · right
      calc (2 ^ 23 + m % 2 ^ 23) * 2 ^ (m / 2 ^ 23 - 1) < 2 ^ 24 * 2 ^ (m / 2 ^ 23 - 1) :=
            Nat.mul_lt_mul_of_pos_right (by omega) (by positivity)
        _ = 2 ^ (24 + (m / 2 ^ 23 - 1)) := (pow_add ..).symm
        _ ≤ 2 ^ (23 + s) := Nat.pow_le_pow_right (by norm_num) (by omega)
    · left
      exact Dvd.dvd.mul_left (pow_dvd_pow 2 h) _

/-- `roundDiv` is within half, and even on a tie. -/
theorem roundDiv_half (num : Nat) {den : Nat} (hd : 0 < den) :
    2 * |(roundDiv num den * den : ℤ) - num| ≤ den
      ∧ (2 * |(roundDiv num den * den : ℤ) - num| = den → roundDiv num den % 2 = 0) := by
  have hq := Nat.div_add_mod num den
  have hr := Nat.mod_lt num hd
  unfold roundDiv
  generalize num / den = q at *
  generalize num % den = r at *
  have e : (num : ℤ) = q * den + r := by rw [← hq]; push_cast; ring
  simp only [Bool.or_eq_true, decide_eq_true_eq, Bool.and_eq_true, beq_iff_eq]
  split
  · next h =>
    have : ((↑(q + 1) : ℤ) * den - num) = den - r := by rw [e]; push_cast; ring
    rw [this, abs_of_nonneg (by omega)]
    refine ⟨by omega, fun h2 => by omega⟩
  · next h =>
    have : ((q : ℤ) * den - num) = -r := by rw [e]; ring
    rw [this, abs_neg, abs_of_nonneg (by omega)]
    refine ⟨by omega, fun h2 => by omega⟩

/-- `roundDiv` is a nearest whole number, and even where another is as near. -/
theorem roundDiv_nearest (num : Nat) {den : Nat} (hd : 0 < den) (k : ℤ) :
    |(roundDiv num den * den : ℤ) - num| ≤ |k * den - num|
      ∧ (|k * den - num| = |(roundDiv num den * den : ℤ) - num| → k ≠ roundDiv num den → roundDiv num den % 2 = 0) := by
  obtain ⟨h1, h2⟩ := roundDiv_half num hd
  by_cases hk : k = roundDiv num den
  · subst hk; exact ⟨le_refl _, fun _ h => absurd rfl h⟩
  · have h3 : (den : ℤ) ≤ |k * den - roundDiv num den * den| := by
      rw [← sub_mul, abs_mul, abs_of_nonneg (by omega : (0 : ℤ) ≤ den)]
      have : 1 ≤ |k - (roundDiv num den : ℤ)| := Int.one_le_abs (sub_ne_zero.mpr hk)
      nlinarith [(by omega : (0 : ℤ) < den)]
    have h4 : |k * den - roundDiv num den * den| ≤ |k * (den : ℤ) - num| + |(roundDiv num den * den : ℤ) - num| := by
      have := abs_sub_le (k * (den : ℤ)) num (roundDiv num den * den)
      rwa [abs_sub_comm (num : ℤ)] at this
    exact ⟨by omega, fun h _ => h2 (by omega)⟩

/-- The significand `roundMag` rounds to, and its unit in the last place. -/
theorem shift_bounds (num : Nat) {den : Nat} (hd : 0 < den) :
    num < den * 2 ^ shift num den * 2 ^ 24 ∧ (shift num den = 0 ∨ den * 2 ^ shift num den * 2 ^ 23 ≤ num) := by
  unfold shift
  have hq := Nat.div_add_mod num den
  have hr := Nat.mod_lt num hd
  generalize num / den = q at *
  have hlt : q < 2 ^ (Nat.log2 q + 1) := Nat.lt_log2_self
  constructor
  · have h1 : q + 1 ≤ 2 ^ (Nat.log2 q - 23) * 2 ^ 24 := by
      rw [← pow_add]
      exact hlt.trans_le (Nat.pow_le_pow_right (by norm_num) (by omega))
    calc num < den * (q + 1) := by rw [Nat.mul_add]; omega
      _ ≤ den * (2 ^ (Nat.log2 q - 23) * 2 ^ 24) := Nat.mul_le_mul_left _ h1
      _ = _ := by ring
  · by_cases h : Nat.log2 q ≤ 23
    · left; omega
    · right
      have h0 : q ≠ 0 := by rintro rfl; simp at h
      have h1 : 2 ^ (Nat.log2 q - 23) * 2 ^ 23 ≤ q := by
        rw [← pow_add, Nat.sub_add_cancel (by omega)]
        exact Nat.log2_self_le h0
      calc den * 2 ^ (Nat.log2 q - 23) * 2 ^ 23 = den * (2 ^ (Nat.log2 q - 23) * 2 ^ 23) := by ring
        _ ≤ den * q := Nat.mul_le_mul_left _ h1
        _ ≤ num := by omega

theorem roundDiv_le {num den c : Nat} (hd : 0 < den) (h : num ≤ den * c) : roundDiv num den ≤ c := by
  have := (roundDiv_half num hd).1
  by_contra hc
  have h1 : ((c : ℤ) + 1) * den ≤ roundDiv num den * den := by
    have : (c : ℤ) + 1 ≤ roundDiv num den := by omega
    exact mul_le_mul_of_nonneg_right this (by omega)
  have h2 : (num : ℤ) ≤ den * c := by exact_mod_cast h
  have h3 := le_abs_self ((roundDiv num den * den : ℤ) - num)
  have h4 : ((c : ℤ) + 1) * den = den * c + den := by ring
  omega

theorem le_roundDiv {num den c : Nat} (hd : 0 < den) (h : den * c ≤ num) : c ≤ roundDiv num den := by
  have := (roundDiv_half num hd).1
  by_contra hc
  have h1 : ((roundDiv num den : ℤ) + 1) * den ≤ c * den := by
    have : (roundDiv num den : ℤ) + 1 ≤ c := by omega
    exact mul_le_mul_of_nonneg_right this (by omega)
  have h2 : (den : ℤ) * c ≤ num := by exact_mod_cast h
  have h3 := neg_le_abs ((roundDiv num den * den : ℤ) - num)
  have h4 : ((roundDiv num den : ℤ) + 1) * den = roundDiv num den * den + den := by ring
  have h5 : (c : ℤ) * den = den * c := by ring
  omega


/-- Below half a unit above the largest finite number, `roundMag` answers the bits of a nearest magnitude, and even bits where
another magnitude is as near; from there on it answers infinity. -/
theorem roundMag_spec (num : Nat) {den : Nat} (hd : 0 < den) :
    (num < (2 ^ 25 - 1) * (2 ^ 252 * den) → roundMag num den < infBits
      ∧ ∀ m' : Nat, |(magBits (roundMag num den) * den : ℤ) - num| ≤ |(magBits m' * den : ℤ) - num|
        ∧ (|(magBits m' * den : ℤ) - num| = |(magBits (roundMag num den) * den : ℤ) - num| →
          magBits m' ≠ magBits (roundMag num den) → roundMag num den % 2 = 0))
      ∧ ((2 ^ 25 - 1) * (2 ^ 252 * den) ≤ num → roundMag num den = infBits) := by
  obtain ⟨hlt, hge⟩ := shift_bounds num hd
  unfold roundMag
  generalize shift num den = s at *
  have hD : 0 < den * 2 ^ s := by positivity
  have hr24 : roundDiv num (den * 2 ^ s) ≤ 2 ^ 24 := roundDiv_le hD hlt.le
  have hr23 : s = 0 ∨ 2 ^ 23 ≤ roundDiv num (den * 2 ^ s) := hge.imp_right (le_roundDiv hD)
  obtain ⟨hh, he⟩ := roundDiv_half num hD
  have hn := roundDiv_nearest num hD
  generalize hr : roundDiv num (den * 2 ^ s) = r at *
  have hp : 0 < 2 ^ s := by positivity
  constructor
  · intro hb
    have hbits : s * 2 ^ 23 + r < infBits := by
      by_contra hc
      simp only [infBits] at hc
      have hs : 253 ≤ s := by omega
      rcases Nat.lt_or_ge 253 s with h | h
      · have h1 : den * 2 ^ (252 + 2) * 2 ^ 23 ≤ num := by
          refine le_trans ?_ (hge.resolve_left (by omega))
          exact Nat.mul_le_mul_right _ (Nat.mul_le_mul_left _ (Nat.pow_le_pow_right (by norm_num) (by omega)))
        rw [pow_add, ← Nat.mul_assoc, Nat.mul_comm den] at h1
        generalize 2 ^ 252 * den = u at *
        omega
      · obtain rfl : s = 252 + 1 := by omega
        obtain rfl : r = 2 ^ 24 := by omega
        have h1 := le_abs_self (((2 ^ 24 : ℕ) * (den * 2 ^ (252 + 1) : ℕ) : ℤ) - num)
        rw [pow_add, ← Nat.mul_assoc, Nat.mul_comm den] at h1 hh hD
        generalize 2 ^ 252 * den = u at *
        push_cast at h1 hh
        omega
    rw [Nat.min_eq_left hbits.le]
    refine ⟨hbits, fun m' => ?_⟩
    rw [magBits_add hr24 hr23]
    have hcast : ((r * 2 ^ s : ℕ) : ℤ) * den = r * (den * 2 ^ s : ℕ) := by push_cast; ring
    rw [hcast]
    have heven : r % 2 = 0 → (s * 2 ^ 23 + r) % 2 = 0 := by omega
    rcases magBits_dvd_or_lt m' s with ⟨k, hk⟩ | hlow
    · have hm : (magBits m' : ℤ) * den = k * (den * 2 ^ s : ℕ) := by rw [hk]; push_cast; ring
      rw [hm]
      obtain ⟨h1, h2⟩ := hn k
      refine ⟨h1, fun h3 h4 => heven (h2 h3 fun h5 => h4 ?_)⟩
      rw [hk, Nat.cast_inj.mp h5, Nat.mul_comm]
    · rcases hge with rfl | hge
      · have hm : (magBits m' : ℤ) * den = (magBits m' : ℕ) * (den * 2 ^ 0 : ℕ) := by simp
        rw [hm]
        obtain ⟨h1, h2⟩ := hn (magBits m')
        refine ⟨h1, fun h3 h4 => heven (h2 h3 fun h5 => h4 ?_)⟩
        simpa using h5
      · have h1 : (magBits m' : ℤ) * den < (2 ^ 23 : ℕ) * (den * 2 ^ s : ℕ) := by
          have : magBits m' * den < 2 ^ 23 * (den * 2 ^ s) := by
            calc magBits m' * den < 2 ^ (23 + s) * den := Nat.mul_lt_mul_of_pos_right hlow hd
              _ = _ := by rw [pow_add]; ring
          exact_mod_cast this
        have h2 : ((2 ^ 23 : ℕ) : ℤ) * (den * 2 ^ s : ℕ) ≤ num := by
          have : 2 ^ 23 * (den * 2 ^ s) ≤ num := by rw [Nat.mul_comm]; exact hge
          exact_mod_cast this
        have h3 := (hn ((2 ^ 23 : ℕ) : ℤ)).1
        rw [abs_of_nonpos (by omega : ((2 ^ 23 : ℕ) : ℤ) * (den * 2 ^ s : ℕ) - num ≤ 0)] at h3
        rw [abs_of_nonpos (by omega : (magBits m' : ℤ) * den - num ≤ 0)]
        exact ⟨by omega, fun h => by omega⟩
  · intro hb
    apply Nat.min_eq_right
    simp only [infBits]
    have hs : 253 ≤ s := by
      by_contra hc
      have h1 : den * 2 ^ s * 2 ^ 24 ≤ den * 2 ^ 252 * 2 ^ 24 :=
        Nat.mul_le_mul_right _ (Nat.mul_le_mul_left _ (Nat.pow_le_pow_right (by norm_num) (by omega)))
      rw [Nat.mul_comm den (2 ^ 252)] at h1
      generalize 2 ^ 252 * den = u at *
      generalize den * 2 ^ s = v at *
      omega
    rcases Nat.lt_or_ge 253 s with h | h
    · have := hr23.resolve_left (by omega); omega
    · obtain rfl : s = 252 + 1 := by omega
      by_contra hc
      have h1 := neg_le_abs (((r : ℕ) * (den * 2 ^ (252 + 1) : ℕ) : ℤ) - num)
      rw [pow_add, ← Nat.mul_assoc, Nat.mul_comm den] at h1 hh hD he
      generalize 2 ^ 252 * den = u at *
      push_cast at h1 hh he
      have h6 : (r : ℤ) ≤ 2 ^ 24 - 1 := by omega
      have h7 : (r : ℤ) * (u * 2) ≤ (2 ^ 24 - 1) * (u * 2) := mul_le_mul_of_nonneg_right h6 (by positivity)
      have h8 : r = 2 ^ 24 - 1 := by
        by_contra h9
        have h6 : (r : ℤ) ≤ 2 ^ 24 - 2 := by omega
        have h7 : (r : ℤ) * (u * 2) ≤ (2 ^ 24 - 2) * (u * 2) := mul_le_mul_of_nonneg_right h6 (by positivity)
        generalize (r : ℤ) * (u * 2) = v at *
        omega
      have := he (le_antisymm hh (by generalize (r : ℤ) * (u * 2) = v at *; omega))
      omega

theorem toRat_pack (neg : Bool) {m : Nat} (h : m < 2 ^ 31) :
    toRat (pack neg m) = (if neg then -1 else 1) * (magBits m : ℚ) / 2 ^ 149 := by
  unfold toRat units
  rw [signBit_pack neg h, mag_pack neg h]
  cases neg <;> simp

/-- `round` is correct rounding: the word nearest to `± num / den` units, ties to an even significand, infinity on overflow. -/
theorem round_roundsTo (neg : Bool) (num : Nat) {den : Nat} (hd : 0 < den) (q : ℚ)
    (hq : q = (if neg then -1 else 1) * ((num : ℚ) / den) / 2 ^ 149) : RoundsTo q (round neg num den) := by
  obtain ⟨hfin, hinf⟩ := roundMag_spec num hd
  have hdq : (0 : ℚ) < den := by exact_mod_cast hd
  have hqabs : |q| = (num : ℚ) / den / 2 ^ 149 := by
    rw [hq, abs_div, abs_mul, abs_of_nonneg (by positivity : (0 : ℚ) ≤ (num : ℚ) / den),
      abs_of_pos (by positivity : (0 : ℚ) < 2 ^ 149)]
    cases neg <;> simp
  have hbound : |q| < overflowBound ↔ num < (2 ^ 25 - 1) * (2 ^ 252 * den) := by
    have h1 : overflowBound = (((2 ^ 25 - 1) * 2 ^ 252 : ℕ) : ℚ) / 2 ^ 149 := by norm_num [overflowBound]
    rw [hqabs, h1, div_lt_div_iff_of_pos_right (by positivity), div_lt_iff₀ hdq]
    rw [← Nat.mul_assoc]
    exact_mod_cast Iff.rfl
  unfold RoundsTo round
  split
  · next h =>
    obtain ⟨hm, hnear⟩ := hfin (hbound.mp h)
    generalize roundMag num den = m at *
    have hm31 : m < 2 ^ 31 := by simp only [infBits] at hm; omega
    -- the distances, in units
    have hdist : ∀ m' : Nat, |(magBits m' : ℚ) / 2 ^ 149 - (num : ℚ) / den / 2 ^ 149|
        = ((|(magBits m' * den : ℤ) - num| : ℤ) : ℚ) / (den * 2 ^ 149) := by
      intro m'
      have : (magBits m' : ℚ) / 2 ^ 149 - (num : ℚ) / den / 2 ^ 149
          = (((magBits m' * den : ℤ) - num : ℤ) : ℚ) / (den * 2 ^ 149) := by
        push_cast
        field_simp
      rw [this, abs_div, abs_of_pos (by positivity : (0 : ℚ) < den * 2 ^ 149), Int.cast_abs]
    have hle : ∀ m' : Nat, |(magBits m : ℚ) / 2 ^ 149 - (num : ℚ) / den / 2 ^ 149|
        ≤ |(magBits m' : ℚ) / 2 ^ 149 - (num : ℚ) / den / 2 ^ 149| := by
      intro m'
      rw [hdist, hdist]
      exact div_le_div_of_nonneg_right (by exact_mod_cast (hnear m').1) (by positivity)
    have hsame : ∀ m' : Nat, m' < 2 ^ 31 → |toRat (pack neg m') - q| = |(magBits m' : ℚ) / 2 ^ 149 - (num : ℚ) / den / 2 ^ 149| := by
      intro m' h'
      rw [toRat_pack neg h', hq]
      cases neg
      · simp
      · rw [← abs_neg]; congr 1; simp; ring
    have hopp : ∀ m' : Nat, m' < 2 ^ 31 → |toRat (pack (!neg) m') - q| = (magBits m' : ℚ) / 2 ^ 149 + (num : ℚ) / den / 2 ^ 149 := by
      intro m' h'
      rw [toRat_pack _ h', hq]
      have h0 : (0 : ℚ) ≤ (magBits m' : ℚ) / 2 ^ 149 + (num : ℚ) / den / 2 ^ 149 := by positivity
      cases neg
      · rw [← abs_neg, ← abs_of_nonneg h0]; simp only [Bool.not_false, if_true, Bool.false_eq_true, if_false]; congr 1; ring
      · rw [← abs_of_nonneg h0]; simp only [Bool.not_true, if_true, Bool.false_eq_true, if_false]; congr 1; ring
    have hzero : |(magBits m : ℚ) / 2 ^ 149 - (num : ℚ) / den / 2 ^ 149| ≤ (num : ℚ) / den / 2 ^ 149 := by
      have := hle 0
      simpa [magBits, abs_of_nonneg (by positivity : (0 : ℚ) ≤ (num : ℚ) / den / 2 ^ 149)] using this
    refine ⟨isFinite_pack neg hm, fun v hv => ?_, fun v hv heq hne => ?_⟩
    all_goals
      obtain ⟨sg, m', hv31, rfl⟩ : ∃ sg m', m' < 2 ^ 31 ∧ v = pack sg m' :=
        ⟨signBit v, _, Nat.mod_lt _ (by norm_num), (pack_eta v).symm⟩
      have hcase : sg = neg ∨ sg = !neg := by cases sg <;> cases neg <;> simp
    · rcases hcase with rfl | rfl
      · rw [hsame m hm31, hsame m' hv31]
        exact hle m'
      · rw [hsame m hm31, hopp m' hv31]
        have : (0 : ℚ) ≤ (magBits m' : ℚ) / 2 ^ 149 := by positivity
        linarith
    · rw [frac_pack neg hm31]
      rcases hcase with rfl | rfl
      · rw [hsame m hm31, hsame m' hv31, hdist, hdist, div_left_inj' (by positivity)] at heq
        have := (hnear m').2 (by exact_mod_cast heq) fun he => hne (by rw [toRat_pack _ hv31, toRat_pack _ hm31, he])
        omega
      · rw [hsame m hm31, hopp m' hv31] at heq
        have h0 : (0 : ℚ) ≤ (magBits m' : ℚ) / 2 ^ 149 := by positivity
        have h2 : magBits m' = 0 := by
          have h1 : (magBits m' : ℚ) / 2 ^ 149 = 0 := by linarith
          simpa using h1
        have h3 : |(magBits 0 : ℚ) / 2 ^ 149 - (num : ℚ) / den / 2 ^ 149|
            = |(magBits m : ℚ) / 2 ^ 149 - (num : ℚ) / den / 2 ^ 149| := by
          rw [← heq, h2]
          simp [magBits, abs_of_nonneg (by positivity : (0 : ℚ) ≤ (num : ℚ) / den / 2 ^ 149)]
        rw [hdist, hdist, div_left_inj' (by positivity)] at h3
        have := (hnear 0).2 (by exact_mod_cast h3) fun he => hne (by
          rw [toRat_pack _ hv31, toRat_pack neg hm31, h2, ← he]; simp [magBits])
        omega
  · next h =>
    have hb : ¬ num < (2 ^ 25 - 1) * (2 ^ 252 * den) := fun h' => h (hbound.mpr h')
    rw [hinf (by omega)]
    unfold inf
    congr 1
    have hn : (0 : ℚ) < num := by
      have : 0 < num := by
        have : 0 < (2 ^ 25 - 1) * (2 ^ 252 * den) := by positivity
        omega
      exact_mod_cast this
    rw [hq]
    have : (0 : ℚ) < (num : ℚ) / den / 2 ^ 149 := by positivity
    cases neg
    · simp; positivity
    · simp; rw [neg_div]; linarith

end Sys2Proof.Binary32
end

