-- ==== Sys2Proof/Laws/Decode.lean ====
section
/-! SUPPORT. The fields of an encoded header, each said once. -/

namespace Sys2Proof.Decode

theorem op_header (b : Bool) (o : BitVec 8) : op (header b o) = o := by
  cases b <;> revert o <;> decide

theorem inst_header (b : Bool) (o : BitVec 8) : (header b o).getLsbD 8 = b := by
  cases b <;> revert o <;> decide

theorem rsv_header (b : Bool) (o : BitVec 8) : header b o >>> 9 = 0#32 := by
  cases b <;> revert o <;> decide

@[simp] theorem inst_instBit (i : Inst) (o : BitVec 8) : inst (header (instBit i) o) = i := by
  unfold inst
  rw [inst_header]
  cases i <;> rfl

theorem formatU_header (o : BitVec 8) (i : Instr) : formatU (header false o) i = .ok i := by
  unfold formatU
  rw [inst_header]
  rfl

end Sys2Proof.Decode
end

