-- ==== Sys2Proof/Laws/Memory.lean ====
section
/-! SUPPORT. The laws of a port space: read after write, and the canonical form, which every write keeps. -/

namespace Sys2Proof.Machine.Memory

@[simp] theorem read_nil (a : Nat) : read [] a = unlisted := rfl

theorem wfFrom_mono {lo lo' : Nat} {m : Memory} (h : lo' ≤ lo) (hm : wfFrom lo m = true) : wfFrom lo' m = true := by
  cases m with
  | nil => rfl
  | cons p m =>
    obtain ⟨b, w⟩ := p
    simp only [wfFrom, Bool.and_eq_true, decide_eq_true_eq] at hm ⊢
    exact ⟨⟨by omega, hm.1.2⟩, hm.2⟩

/-- Below the lowest listed index nothing is listed. -/
theorem read_below {m : Memory} : ∀ {lo a : Nat}, wfFrom lo m = true → a < lo → read m a = unlisted := by
  induction m with
  | nil => intros; rfl
  | cons p m ih =>
    obtain ⟨b, w⟩ := p
    intro lo a hm ha
    simp only [wfFrom, Bool.and_eq_true, decide_eq_true_eq] at hm
    rw [read, if_neg (by omega)]
    exact ih hm.2 (by omega)

theorem write_wfFrom {m : Memory} : ∀ {lo a : Nat} (v : Word), wfFrom lo m = true → lo ≤ a →
    wfFrom lo (write m a v) = true := by
  induction m with
  | nil =>
    intro lo a v _ ha
    by_cases hv : v = unlisted <;> simp [write, wfFrom, hv, ha]
  | cons p m ih =>
    obtain ⟨b, w⟩ := p
    intro lo a v hm ha
    have hm' := hm
    simp only [wfFrom, Bool.and_eq_true, decide_eq_true_eq, bne_iff_ne, ne_eq] at hm'
    obtain ⟨⟨hlo, hw⟩, hrest⟩ := hm'
    simp only [write]
    split
    · next hlt =>
      split
      · exact hm
      · next hv => simp [wfFrom, ha, hv, hlt, hw, hrest]
    · next hlt =>
      split
      · next heq =>
        split
        · exact wfFrom_mono (by omega) hrest
        · next hv => subst heq; simp [wfFrom, ha, hv, hrest]
      · next hne =>
        have := ih v hrest (by omega : b + 1 ≤ a)
        simp [wfFrom, hlo, hw, this]

/-- A write keeps the canonical form. -/
theorem write_wf {m : Memory} (a : Nat) (v : Word) (h : wf m = true) : wf (write m a v) = true :=
  write_wfFrom v h (Nat.zero_le a)

/-- A read after a write of another element. -/
theorem read_write_ne (m : Memory) {a a' : Nat} (v : Word) (h : a' ≠ a) : read (write m a v) a' = read m a' := by
  induction m with
  | nil => by_cases hv : v = unlisted <;> simp [write, read, hv, h]
  | cons p m ih =>
    obtain ⟨b, w⟩ := p
    simp only [write]
    split
    · split
      · rfl
      · simp [read, h]
    · split
      · next heq => subst heq; split <;> simp [read, h]
      · simp only [read, ih]

theorem read_write_sameFrom {m : Memory} : ∀ {lo : Nat} (a : Nat) (v : Word), wfFrom lo m = true →
    read (write m a v) a = v := by
  induction m with
  | nil => intro _ a v _; by_cases hv : v = unlisted <;> simp [write, read, hv]
  | cons p m ih =>
    obtain ⟨b, w⟩ := p
    intro lo a v hm
    simp only [wfFrom, Bool.and_eq_true, decide_eq_true_eq] at hm
    simp only [write]
    split
    · next hlt =>
      split
      · next hv => rw [read, if_neg (by omega), hv, read_below hm.2 (by omega)]
      · simp [read]
    · split
      · next heq =>
        split
        · next hv => rw [hv, read_below hm.2 (by omega)]
        · simp [read]
      · next hne => rw [read, if_neg hne, ih a v hm.2]

/-- A read after a write of the same element. -/
theorem read_write_same {m : Memory} (a : Nat) (v : Word) (h : wf m = true) : read (write m a v) a = v :=
  read_write_sameFrom a v h

theorem ext_from {m m' : Memory} : ∀ {lo : Nat}, wfFrom lo m = true → wfFrom lo m' = true →
    (∀ a, read m a = read m' a) → m = m' := by
  induction m generalizing m' with
  | nil =>
    intro lo _ h' hr
    cases m' with
    | nil => rfl
    | cons q m' =>
      obtain ⟨b, w⟩ := q
      simp only [wfFrom, Bool.and_eq_true, bne_iff_ne, ne_eq] at h'
      exact absurd (by simpa [read] using (hr b).symm) h'.1.2
  | cons p m ih =>
    obtain ⟨b, w⟩ := p
    intro lo h h' hr
    cases m' with
    | nil =>
      simp only [wfFrom, Bool.and_eq_true, bne_iff_ne, ne_eq] at h
      exact absurd (by simpa [read] using hr b) h.1.2
    | cons q m' =>
      obtain ⟨b', w'⟩ := q
      simp only [wfFrom, Bool.and_eq_true, decide_eq_true_eq, bne_iff_ne, ne_eq] at h h'
      have hb : b = b' := by
        rcases Nat.lt_trichotomy b b' with hlt | heq | hgt
        · have := hr b
          rw [read, if_pos rfl, read, if_neg (by omega), read_below h'.2 (by omega)] at this
          exact absurd this h.1.2
        · exact heq
        · have := (hr b').symm
          rw [read, if_pos rfl, read, if_neg (by omega), read_below h.2 (by omega)] at this
          exact absurd this h'.1.2
      subst hb
      have hw : w = w' := by simpa [read] using hr b
      subst hw
      rw [ih h.2 h'.2 fun a => ?_]
      by_cases ha : a = b
      · subst ha; rw [read_below h.2 (by omega), read_below h'.2 (by omega)]
      · simpa [read, ha] using hr a

/-- Equal contents are equal data. -/
theorem ext {m m' : Memory} (h : wf m = true) (h' : wf m' = true) (hr : ∀ a, read m a = read m' a) : m = m' :=
  ext_from h h' hr

end Sys2Proof.Machine.Memory
end

