-- ==== Sys2Proof/Laws/State.lean ====
section
/-! SUPPORT. One lemma per field per update of State, true by rfl, so that no proof unfolds a record update. -/

namespace Sys2Proof.Machine

@[simp] theorem setInd_cfg (s : State) (b : Bool) : (s.setInd b).cfg = s.cfg := rfl
@[simp] theorem setInd_hp (s : State) (b : Bool) : (s.setInd b).hp = s.hp := rfl
@[simp] theorem setInd_lp (s : State) (b : Bool) : (s.setInd b).lp = s.lp := rfl
@[simp] theorem setInd_lfo (s : State) (b : Bool) : (s.setInd b).lfo = s.lfo := rfl
@[simp] theorem setInd_ind (s : State) (b : Bool) : (s.setInd b).ind = b := rfl
@[simp] theorem setInd_inputs (s : State) (b : Bool) : (s.setInd b).inputs = s.inputs := rfl
@[simp] theorem setInd_aout (s : State) (b : Bool) : (s.setInd b).aout = s.aout := rfl
@[simp] theorem setInd_indOut (s : State) (b : Bool) : (s.setInd b).indOut = s.indOut := rfl
@[simp] theorem setInd_response (s : State) (b : Bool) : (s.setInd b).response = s.response := rfl
@[simp] theorem setInd_events (s : State) (b : Bool) : (s.setInd b).events = s.events := rfl
@[simp] theorem setInd_host (s : State) (b : Bool) : (s.setInd b).host = s.host := rfl
@[simp] theorem setInd_draws (s : State) (b : Bool) : (s.setInd b).draws = s.draws := rfl

@[simp] theorem setPhase_cfg (s : State) (v : Word) : (s.setPhase v).cfg = s.cfg := rfl
@[simp] theorem setPhase_hp (s : State) (v : Word) : (s.setPhase v).hp = s.hp := rfl
@[simp] theorem setPhase_lp (s : State) (v : Word) : (s.setPhase v).lp = s.lp := rfl
@[simp] theorem setPhase_lfo (s : State) (v : Word) : (s.setPhase v).lfo = { s.lfo with phase := v } := rfl
@[simp] theorem setPhase_ind (s : State) (v : Word) : (s.setPhase v).ind = s.ind := rfl
@[simp] theorem setPhase_inputs (s : State) (v : Word) : (s.setPhase v).inputs = s.inputs := rfl
@[simp] theorem setPhase_aout (s : State) (v : Word) : (s.setPhase v).aout = s.aout := rfl
@[simp] theorem setPhase_indOut (s : State) (v : Word) : (s.setPhase v).indOut = s.indOut := rfl
@[simp] theorem setPhase_response (s : State) (v : Word) : (s.setPhase v).response = s.response := rfl
@[simp] theorem setPhase_events (s : State) (v : Word) : (s.setPhase v).events = s.events := rfl
@[simp] theorem setPhase_host (s : State) (v : Word) : (s.setPhase v).host = s.host := rfl
@[simp] theorem setPhase_draws (s : State) (v : Word) : (s.setPhase v).draws = s.draws := rfl

@[simp] theorem setRate_cfg (s : State) (v : Word) : (s.setRate v).cfg = s.cfg := rfl
@[simp] theorem setRate_hp (s : State) (v : Word) : (s.setRate v).hp = s.hp := rfl
@[simp] theorem setRate_lp (s : State) (v : Word) : (s.setRate v).lp = s.lp := rfl
@[simp] theorem setRate_lfo (s : State) (v : Word) : (s.setRate v).lfo = { s.lfo with rate := v } := rfl
@[simp] theorem setRate_ind (s : State) (v : Word) : (s.setRate v).ind = s.ind := rfl
@[simp] theorem setRate_inputs (s : State) (v : Word) : (s.setRate v).inputs = s.inputs := rfl
@[simp] theorem setRate_aout (s : State) (v : Word) : (s.setRate v).aout = s.aout := rfl
@[simp] theorem setRate_indOut (s : State) (v : Word) : (s.setRate v).indOut = s.indOut := rfl
@[simp] theorem setRate_response (s : State) (v : Word) : (s.setRate v).response = s.response := rfl
@[simp] theorem setRate_events (s : State) (v : Word) : (s.setRate v).events = s.events := rfl
@[simp] theorem setRate_host (s : State) (v : Word) : (s.setRate v).host = s.host := rfl
@[simp] theorem setRate_draws (s : State) (v : Word) : (s.setRate v).draws = s.draws := rfl

@[simp] theorem settled_cfg (s : State) (w : Word) : (s.settled w).2.cfg = s.cfg := rfl
@[simp] theorem settled_hp (s : State) (w : Word) : (s.settled w).2.hp = s.hp := rfl
@[simp] theorem settled_lp (s : State) (w : Word) : (s.settled w).2.lp = s.lp := rfl
@[simp] theorem settled_lfo (s : State) (w : Word) : (s.settled w).2.lfo = s.lfo := rfl
@[simp] theorem settled_ind (s : State) (w : Word) : (s.settled w).2.ind = s.ind := rfl
@[simp] theorem settled_inputs (s : State) (w : Word) : (s.settled w).2.inputs = s.inputs := rfl
@[simp] theorem settled_aout (s : State) (w : Word) : (s.settled w).2.aout = s.aout := rfl
@[simp] theorem settled_indOut (s : State) (w : Word) : (s.settled w).2.indOut = s.indOut := rfl
@[simp] theorem settled_response (s : State) (w : Word) : (s.settled w).2.response = s.response := rfl
@[simp] theorem settled_events (s : State) (w : Word) : (s.settled w).2.events = s.events := rfl
@[simp] theorem settled_host (s : State) (w : Word) : (s.settled w).2.host = s.host := rfl
@[simp] theorem settled_draws (s : State) (w : Word) : (s.settled w).2.draws = s.draws + 1 := rfl

@[simp] theorem settledCoeffs_cfg (s : State) (c : Coeffs Word) : (s.settledCoeffs c).2.cfg = s.cfg := rfl
@[simp] theorem settledCoeffs_hp (s : State) (c : Coeffs Word) : (s.settledCoeffs c).2.hp = s.hp := rfl
@[simp] theorem settledCoeffs_lp (s : State) (c : Coeffs Word) : (s.settledCoeffs c).2.lp = s.lp := rfl
@[simp] theorem settledCoeffs_lfo (s : State) (c : Coeffs Word) : (s.settledCoeffs c).2.lfo = s.lfo := rfl
@[simp] theorem settledCoeffs_ind (s : State) (c : Coeffs Word) : (s.settledCoeffs c).2.ind = s.ind := rfl
@[simp] theorem settledCoeffs_inputs (s : State) (c : Coeffs Word) : (s.settledCoeffs c).2.inputs = s.inputs := rfl
@[simp] theorem settledCoeffs_aout (s : State) (c : Coeffs Word) : (s.settledCoeffs c).2.aout = s.aout := rfl
@[simp] theorem settledCoeffs_indOut (s : State) (c : Coeffs Word) : (s.settledCoeffs c).2.indOut = s.indOut := rfl
@[simp] theorem settledCoeffs_response (s : State) (c : Coeffs Word) : (s.settledCoeffs c).2.response = s.response := rfl
@[simp] theorem settledCoeffs_events (s : State) (c : Coeffs Word) : (s.settledCoeffs c).2.events = s.events := rfl
@[simp] theorem settledCoeffs_host (s : State) (c : Coeffs Word) : (s.settledCoeffs c).2.host = s.host := rfl
@[simp] theorem settledCoeffs_draws (s : State) (c : Coeffs Word) : (s.settledCoeffs c).2.draws = s.draws + 4 := rfl

@[simp] theorem log_cfg (s : State) (e : PortEvent) : (s.log e).cfg = s.cfg := rfl
@[simp] theorem log_hp (s : State) (e : PortEvent) : (s.log e).hp = s.hp := rfl
@[simp] theorem log_lp (s : State) (e : PortEvent) : (s.log e).lp = s.lp := rfl
@[simp] theorem log_lfo (s : State) (e : PortEvent) : (s.log e).lfo = s.lfo := rfl
@[simp] theorem log_ind (s : State) (e : PortEvent) : (s.log e).ind = s.ind := rfl
@[simp] theorem log_inputs (s : State) (e : PortEvent) : (s.log e).inputs = s.inputs := rfl
@[simp] theorem log_aout (s : State) (e : PortEvent) : (s.log e).aout = s.aout := rfl
@[simp] theorem log_indOut (s : State) (e : PortEvent) : (s.log e).indOut = s.indOut := rfl
@[simp] theorem log_response (s : State) (e : PortEvent) : (s.log e).response = s.response := rfl
@[simp] theorem log_events (s : State) (e : PortEvent) : (s.log e).events = s.events ++ [e] := rfl
@[simp] theorem log_host (s : State) (e : PortEvent) : (s.log e).host = s.host := rfl
@[simp] theorem log_draws (s : State) (e : PortEvent) : (s.log e).draws = s.draws := rfl

@[simp] theorem readSwin_cfg (s : State) : s.readSwin.2.cfg = s.cfg := rfl
@[simp] theorem readSwin_hp (s : State) : s.readSwin.2.hp = s.hp := rfl
@[simp] theorem readSwin_lp (s : State) : s.readSwin.2.lp = s.lp := rfl
@[simp] theorem readSwin_lfo (s : State) : s.readSwin.2.lfo = s.lfo := rfl
@[simp] theorem readSwin_ind (s : State) : s.readSwin.2.ind = s.ind := rfl
@[simp] theorem readSwin_inputs (s : State) : s.readSwin.2.inputs = s.inputs := rfl
@[simp] theorem readSwin_aout (s : State) : s.readSwin.2.aout = s.aout := rfl
@[simp] theorem readSwin_indOut (s : State) : s.readSwin.2.indOut = s.indOut := rfl
@[simp] theorem readSwin_response (s : State) : s.readSwin.2.response = s.response := rfl
@[simp] theorem readSwin_events (s : State) : s.readSwin.2.events = s.events ++ [.readSwin 0 s.inputs.swin] := rfl
@[simp] theorem readSwin_host (s : State) : s.readSwin.2.host = s.host := rfl
@[simp] theorem readSwin_draws (s : State) : s.readSwin.2.draws = s.draws := rfl

@[simp] theorem writeIndOut_cfg (s : State) (b : Bool) : (s.writeIndOut b).cfg = s.cfg := rfl
@[simp] theorem writeIndOut_hp (s : State) (b : Bool) : (s.writeIndOut b).hp = s.hp := rfl
@[simp] theorem writeIndOut_lp (s : State) (b : Bool) : (s.writeIndOut b).lp = s.lp := rfl
@[simp] theorem writeIndOut_lfo (s : State) (b : Bool) : (s.writeIndOut b).lfo = s.lfo := rfl
@[simp] theorem writeIndOut_ind (s : State) (b : Bool) : (s.writeIndOut b).ind = s.ind := rfl
@[simp] theorem writeIndOut_inputs (s : State) (b : Bool) : (s.writeIndOut b).inputs = s.inputs := rfl
@[simp] theorem writeIndOut_aout (s : State) (b : Bool) : (s.writeIndOut b).aout = s.aout := rfl
@[simp] theorem writeIndOut_indOut (s : State) (b : Bool) : (s.writeIndOut b).indOut = b := rfl
@[simp] theorem writeIndOut_response (s : State) (b : Bool) : (s.writeIndOut b).response = s.response := rfl
@[simp] theorem writeIndOut_events (s : State) (b : Bool) : (s.writeIndOut b).events = s.events ++ [.writeIndOut 0 b] := rfl
@[simp] theorem writeIndOut_host (s : State) (b : Bool) : (s.writeIndOut b).host = s.host := rfl
@[simp] theorem writeIndOut_draws (s : State) (b : Bool) : (s.writeIndOut b).draws = s.draws := rfl

@[simp] theorem readCin_cfg (s : State) (k : Nat) : (s.readCin k).2.cfg = s.cfg := rfl
@[simp] theorem readCin_hp (s : State) (k : Nat) : (s.readCin k).2.hp = s.hp := rfl
@[simp] theorem readCin_lp (s : State) (k : Nat) : (s.readCin k).2.lp = s.lp := rfl
@[simp] theorem readCin_lfo (s : State) (k : Nat) : (s.readCin k).2.lfo = s.lfo := rfl
@[simp] theorem readCin_ind (s : State) (k : Nat) : (s.readCin k).2.ind = s.ind := rfl
@[simp] theorem readCin_inputs (s : State) (k : Nat) : (s.readCin k).2.inputs = s.inputs := rfl
@[simp] theorem readCin_aout (s : State) (k : Nat) : (s.readCin k).2.aout = s.aout := rfl
@[simp] theorem readCin_indOut (s : State) (k : Nat) : (s.readCin k).2.indOut = s.indOut := rfl
@[simp] theorem readCin_response (s : State) (k : Nat) : (s.readCin k).2.response = s.response := rfl
@[simp] theorem readCin_events (s : State) (k : Nat) : (s.readCin k).2.events = s.events ++ [.readCin k (s.inputs.cin.read k)] := rfl
@[simp] theorem readCin_host (s : State) (k : Nat) : (s.readCin k).2.host = s.host := rfl
@[simp] theorem readCin_draws (s : State) (k : Nat) : (s.readCin k).2.draws = s.draws := rfl

@[simp] theorem readAin_cfg (s : State) (k : Nat) : (s.readAin k).2.cfg = s.cfg := rfl
@[simp] theorem readAin_hp (s : State) (k : Nat) : (s.readAin k).2.hp = s.hp := rfl
@[simp] theorem readAin_lp (s : State) (k : Nat) : (s.readAin k).2.lp = s.lp := rfl
@[simp] theorem readAin_lfo (s : State) (k : Nat) : (s.readAin k).2.lfo = s.lfo := rfl
@[simp] theorem readAin_ind (s : State) (k : Nat) : (s.readAin k).2.ind = s.ind := rfl
@[simp] theorem readAin_inputs (s : State) (k : Nat) : (s.readAin k).2.inputs = s.inputs := rfl
@[simp] theorem readAin_aout (s : State) (k : Nat) : (s.readAin k).2.aout = s.aout := rfl
@[simp] theorem readAin_indOut (s : State) (k : Nat) : (s.readAin k).2.indOut = s.indOut := rfl
@[simp] theorem readAin_response (s : State) (k : Nat) : (s.readAin k).2.response = s.response := rfl
@[simp] theorem readAin_events (s : State) (k : Nat) : (s.readAin k).2.events = s.events ++ [.readAin k (s.inputs.ain.read k)] := rfl
@[simp] theorem readAin_host (s : State) (k : Nat) : (s.readAin k).2.host = s.host := rfl
@[simp] theorem readAin_draws (s : State) (k : Nat) : (s.readAin k).2.draws = s.draws := rfl

@[simp] theorem writeAout_cfg (s : State) (k : Nat) (v : Word) : (s.writeAout k v).cfg = s.cfg := rfl
@[simp] theorem writeAout_hp (s : State) (k : Nat) (v : Word) : (s.writeAout k v).hp = s.hp := rfl
@[simp] theorem writeAout_lp (s : State) (k : Nat) (v : Word) : (s.writeAout k v).lp = s.lp := rfl
@[simp] theorem writeAout_lfo (s : State) (k : Nat) (v : Word) : (s.writeAout k v).lfo = s.lfo := rfl
@[simp] theorem writeAout_ind (s : State) (k : Nat) (v : Word) : (s.writeAout k v).ind = s.ind := rfl
@[simp] theorem writeAout_inputs (s : State) (k : Nat) (v : Word) : (s.writeAout k v).inputs = s.inputs := rfl
@[simp] theorem writeAout_aout (s : State) (k : Nat) (v : Word) : (s.writeAout k v).aout = s.aout.write k v := rfl
@[simp] theorem writeAout_indOut (s : State) (k : Nat) (v : Word) : (s.writeAout k v).indOut = s.indOut := rfl
@[simp] theorem writeAout_response (s : State) (k : Nat) (v : Word) : (s.writeAout k v).response = s.response := rfl
@[simp] theorem writeAout_events (s : State) (k : Nat) (v : Word) : (s.writeAout k v).events = s.events ++ [.writeAout k v] := rfl
@[simp] theorem writeAout_host (s : State) (k : Nat) (v : Word) : (s.writeAout k v).host = s.host := rfl
@[simp] theorem writeAout_draws (s : State) (k : Nat) (v : Word) : (s.writeAout k v).draws = s.draws := rfl

@[simp] theorem start_cfg (s : State) : s.start.cfg = s.cfg := rfl
@[simp] theorem start_hp (s : State) : s.start.hp = s.hp := rfl
@[simp] theorem start_lp (s : State) : s.start.lp = s.lp := rfl
@[simp] theorem start_lfo (s : State) : s.start.lfo = s.lfo := rfl
@[simp] theorem start_ind (s : State) : s.start.ind = s.ind := rfl
@[simp] theorem start_inputs (s : State) : s.start.inputs = s.inputs := rfl
@[simp] theorem start_aout (s : State) : s.start.aout = s.aout := rfl
@[simp] theorem start_indOut (s : State) : s.start.indOut = s.indOut := rfl
@[simp] theorem start_response (s : State) : s.start.response = s.response := rfl
@[simp] theorem start_events (s : State) : s.start.events = [] := rfl
@[simp] theorem start_host (s : State) : s.start.host = s.host := rfl
@[simp] theorem start_draws (s : State) : s.start.draws = s.draws := rfl

@[simp] theorem answer_cfg (s : State) (rs : List Word) : (s.answer rs).cfg = s.cfg := rfl
@[simp] theorem answer_hp (s : State) (rs : List Word) : (s.answer rs).hp = s.hp := rfl
@[simp] theorem answer_lp (s : State) (rs : List Word) : (s.answer rs).lp = s.lp := rfl
@[simp] theorem answer_lfo (s : State) (rs : List Word) : (s.answer rs).lfo = s.lfo := rfl
@[simp] theorem answer_ind (s : State) (rs : List Word) : (s.answer rs).ind = s.ind := rfl
@[simp] theorem answer_inputs (s : State) (rs : List Word) : (s.answer rs).inputs = s.inputs := rfl
@[simp] theorem answer_aout (s : State) (rs : List Word) : (s.answer rs).aout = s.aout := rfl
@[simp] theorem answer_indOut (s : State) (rs : List Word) : (s.answer rs).indOut = s.indOut := rfl
@[simp] theorem answer_response (s : State) (rs : List Word) : (s.answer rs).response = some (.of .ok rs) := rfl
@[simp] theorem answer_events (s : State) (rs : List Word) : (s.answer rs).events = s.events := rfl
@[simp] theorem answer_host (s : State) (rs : List Word) : (s.answer rs).host = s.host := rfl
@[simp] theorem answer_draws (s : State) (rs : List Word) : (s.answer rs).draws = s.draws := rfl

@[simp] theorem raiseIllegal_cfg (s : State) : (raiseIllegal s).cfg = s.cfg := rfl
@[simp] theorem raiseIllegal_hp (s : State) : (raiseIllegal s).hp = s.hp := rfl
@[simp] theorem raiseIllegal_lp (s : State) : (raiseIllegal s).lp = s.lp := rfl
@[simp] theorem raiseIllegal_lfo (s : State) : (raiseIllegal s).lfo = s.lfo := rfl
@[simp] theorem raiseIllegal_ind (s : State) : (raiseIllegal s).ind = s.ind := rfl
@[simp] theorem raiseIllegal_inputs (s : State) : (raiseIllegal s).inputs = s.inputs := rfl
@[simp] theorem raiseIllegal_aout (s : State) : (raiseIllegal s).aout = s.aout := rfl
@[simp] theorem raiseIllegal_indOut (s : State) : (raiseIllegal s).indOut = s.indOut := rfl
@[simp] theorem raiseIllegal_response (s : State) : (raiseIllegal s).response = some (.of .illegal []) := rfl
@[simp] theorem raiseIllegal_events (s : State) : (raiseIllegal s).events = [] := rfl
@[simp] theorem raiseIllegal_host (s : State) : (raiseIllegal s).host = s.host := rfl
@[simp] theorem raiseIllegal_draws (s : State) : (raiseIllegal s).draws = s.draws := rfl

@[simp] theorem accept_cfg (s : State) (p : BlockInputs) (r : List HostAction) : (accept p r s).cfg = s.cfg := rfl
@[simp] theorem accept_hp (s : State) (p : BlockInputs) (r : List HostAction) : (accept p r s).hp = s.hp := rfl
@[simp] theorem accept_lp (s : State) (p : BlockInputs) (r : List HostAction) : (accept p r s).lp = s.lp := rfl
@[simp] theorem accept_lfo (s : State) (p : BlockInputs) (r : List HostAction) : (accept p r s).lfo = s.lfo := rfl
@[simp] theorem accept_ind (s : State) (p : BlockInputs) (r : List HostAction) : (accept p r s).ind = s.ind := rfl
@[simp] theorem accept_inputs (s : State) (p : BlockInputs) (r : List HostAction) : (accept p r s).inputs = p := rfl
@[simp] theorem accept_aout (s : State) (p : BlockInputs) (r : List HostAction) : (accept p r s).aout = s.aout := rfl
@[simp] theorem accept_indOut (s : State) (p : BlockInputs) (r : List HostAction) : (accept p r s).indOut = s.indOut := rfl
@[simp] theorem accept_response (s : State) (p : BlockInputs) (r : List HostAction) : (accept p r s).response = s.response := rfl
@[simp] theorem accept_events (s : State) (p : BlockInputs) (r : List HostAction) : (accept p r s).events = s.events := rfl
@[simp] theorem accept_host (s : State) (p : BlockInputs) (r : List HostAction) : (accept p r s).host = r := rfl
@[simp] theorem accept_draws (s : State) (p : BlockInputs) (r : List HostAction) : (accept p r s).draws = s.draws := rfl

@[simp] theorem settled_value (s : State) (w : Word) : (s.settled w).1 = settle s.draws w := rfl
@[simp] theorem settledCoeffs_value (s : State) (c : Coeffs Word) : (s.settledCoeffs c).1 = settleCoeffs s.draws c := rfl
@[simp] theorem readSwin_value (s : State) : s.readSwin.1 = s.inputs.swin := rfl
@[simp] theorem readCin_value (s : State) (k : Nat) : (s.readCin k).1 = s.inputs.cin.read k := rfl
@[simp] theorem readAin_value (s : State) (k : Nat) : (s.readAin k).1 = s.inputs.ain.read k := rfl

@[simp] theorem setBq_cfg (s : State) (i : Inst) (b : Biquad) : (s.setBq i b).cfg = s.cfg := by cases i <;> rfl
@[simp] theorem setBq_lfo (s : State) (i : Inst) (b : Biquad) : (s.setBq i b).lfo = s.lfo := by cases i <;> rfl
@[simp] theorem setBq_ind (s : State) (i : Inst) (b : Biquad) : (s.setBq i b).ind = s.ind := by cases i <;> rfl
@[simp] theorem setBq_inputs (s : State) (i : Inst) (b : Biquad) : (s.setBq i b).inputs = s.inputs := by cases i <;> rfl
@[simp] theorem setBq_aout (s : State) (i : Inst) (b : Biquad) : (s.setBq i b).aout = s.aout := by cases i <;> rfl
@[simp] theorem setBq_indOut (s : State) (i : Inst) (b : Biquad) : (s.setBq i b).indOut = s.indOut := by cases i <;> rfl
@[simp] theorem setBq_response (s : State) (i : Inst) (b : Biquad) : (s.setBq i b).response = s.response := by cases i <;> rfl
@[simp] theorem setBq_events (s : State) (i : Inst) (b : Biquad) : (s.setBq i b).events = s.events := by cases i <;> rfl
@[simp] theorem setBq_host (s : State) (i : Inst) (b : Biquad) : (s.setBq i b).host = s.host := by cases i <;> rfl
@[simp] theorem setBq_draws (s : State) (i : Inst) (b : Biquad) : (s.setBq i b).draws = s.draws := by cases i <;> rfl
@[simp] theorem setBq_bq (s : State) (i : Inst) (b : Biquad) : (s.setBq i b).bq i = b := by cases i <;> rfl
theorem setBq_bq_ne (s : State) (i j : Inst) (b : Biquad) (h : j ≠ i) : (s.setBq i b).bq j = s.bq j := by
  cases i <;> cases j <;> first | rfl | exact absurd rfl h
@[simp] theorem setBq_hp_hp (s : State) (b : Biquad) : (s.setBq .hp b).hp = b := rfl
@[simp] theorem setBq_hp_lp (s : State) (b : Biquad) : (s.setBq .hp b).lp = s.lp := rfl
@[simp] theorem setBq_lp_lp (s : State) (b : Biquad) : (s.setBq .lp b).lp = b := rfl
@[simp] theorem setBq_lp_hp (s : State) (b : Biquad) : (s.setBq .lp b).hp = s.hp := rfl

@[simp] theorem setCoeffs_cfg (s : State) (i : Inst) (c : Coeffs Word) : (s.setCoeffs i c).cfg = s.cfg := by cases i <;> rfl
@[simp] theorem setCoeffs_lfo (s : State) (i : Inst) (c : Coeffs Word) : (s.setCoeffs i c).lfo = s.lfo := by cases i <;> rfl
@[simp] theorem setCoeffs_ind (s : State) (i : Inst) (c : Coeffs Word) : (s.setCoeffs i c).ind = s.ind := by cases i <;> rfl
@[simp] theorem setCoeffs_inputs (s : State) (i : Inst) (c : Coeffs Word) : (s.setCoeffs i c).inputs = s.inputs := by cases i <;> rfl
@[simp] theorem setCoeffs_aout (s : State) (i : Inst) (c : Coeffs Word) : (s.setCoeffs i c).aout = s.aout := by cases i <;> rfl
@[simp] theorem setCoeffs_indOut (s : State) (i : Inst) (c : Coeffs Word) : (s.setCoeffs i c).indOut = s.indOut := by cases i <;> rfl
@[simp] theorem setCoeffs_response (s : State) (i : Inst) (c : Coeffs Word) : (s.setCoeffs i c).response = s.response := by cases i <;> rfl
@[simp] theorem setCoeffs_events (s : State) (i : Inst) (c : Coeffs Word) : (s.setCoeffs i c).events = s.events := by cases i <;> rfl
@[simp] theorem setCoeffs_host (s : State) (i : Inst) (c : Coeffs Word) : (s.setCoeffs i c).host = s.host := by cases i <;> rfl
@[simp] theorem setCoeffs_draws (s : State) (i : Inst) (c : Coeffs Word) : (s.setCoeffs i c).draws = s.draws := by cases i <;> rfl
@[simp] theorem setCoeffs_bq (s : State) (i : Inst) (c : Coeffs Word) : (s.setCoeffs i c).bq i = { s.bq i with coeffs := c } := by cases i <;> rfl
theorem setCoeffs_bq_ne (s : State) (i j : Inst) (c : Coeffs Word) (h : j ≠ i) : (s.setCoeffs i c).bq j = s.bq j := by
  cases i <;> cases j <;> first | rfl | exact absurd rfl h
@[simp] theorem setCoeffs_hp_hp (s : State) (c : Coeffs Word) : (s.setCoeffs .hp c).hp = { s.hp with coeffs := c } := rfl
@[simp] theorem setCoeffs_hp_lp (s : State) (c : Coeffs Word) : (s.setCoeffs .hp c).lp = s.lp := rfl
@[simp] theorem setCoeffs_lp_lp (s : State) (c : Coeffs Word) : (s.setCoeffs .lp c).lp = { s.lp with coeffs := c } := rfl
@[simp] theorem setCoeffs_lp_hp (s : State) (c : Coeffs Word) : (s.setCoeffs .lp c).hp = s.hp := rfl

@[simp] theorem setDelay_cfg (s : State) (i : Inst) (d : Delay Word) : (s.setDelay i d).cfg = s.cfg := by cases i <;> rfl
@[simp] theorem setDelay_lfo (s : State) (i : Inst) (d : Delay Word) : (s.setDelay i d).lfo = s.lfo := by cases i <;> rfl
@[simp] theorem setDelay_ind (s : State) (i : Inst) (d : Delay Word) : (s.setDelay i d).ind = s.ind := by cases i <;> rfl
@[simp] theorem setDelay_inputs (s : State) (i : Inst) (d : Delay Word) : (s.setDelay i d).inputs = s.inputs := by cases i <;> rfl
@[simp] theorem setDelay_aout (s : State) (i : Inst) (d : Delay Word) : (s.setDelay i d).aout = s.aout := by cases i <;> rfl
@[simp] theorem setDelay_indOut (s : State) (i : Inst) (d : Delay Word) : (s.setDelay i d).indOut = s.indOut := by cases i <;> rfl
@[simp] theorem setDelay_response (s : State) (i : Inst) (d : Delay Word) : (s.setDelay i d).response = s.response := by cases i <;> rfl
@[simp] theorem setDelay_events (s : State) (i : Inst) (d : Delay Word) : (s.setDelay i d).events = s.events := by cases i <;> rfl
@[simp] theorem setDelay_host (s : State) (i : Inst) (d : Delay Word) : (s.setDelay i d).host = s.host := by cases i <;> rfl
@[simp] theorem setDelay_draws (s : State) (i : Inst) (d : Delay Word) : (s.setDelay i d).draws = s.draws := by cases i <;> rfl
@[simp] theorem setDelay_bq (s : State) (i : Inst) (d : Delay Word) : (s.setDelay i d).bq i = { s.bq i with delay := d } := by cases i <;> rfl
theorem setDelay_bq_ne (s : State) (i j : Inst) (d : Delay Word) (h : j ≠ i) : (s.setDelay i d).bq j = s.bq j := by
  cases i <;> cases j <;> first | rfl | exact absurd rfl h
@[simp] theorem setDelay_hp_hp (s : State) (d : Delay Word) : (s.setDelay .hp d).hp = { s.hp with delay := d } := rfl
@[simp] theorem setDelay_hp_lp (s : State) (d : Delay Word) : (s.setDelay .hp d).lp = s.lp := rfl
@[simp] theorem setDelay_lp_lp (s : State) (d : Delay Word) : (s.setDelay .lp d).lp = { s.lp with delay := d } := rfl
@[simp] theorem setDelay_lp_hp (s : State) (d : Delay Word) : (s.setDelay .lp d).hp = s.hp := rfl

@[simp] theorem bq_hp (s : State) : s.bq .hp = s.hp := rfl
@[simp] theorem bq_lp (s : State) : s.bq .lp = s.lp := rfl

@[simp] theorem applyReset_cfg (s : State) (c : Cfg) (r : List HostAction) : (applyReset c r s).cfg = c.sampled := rfl
@[simp] theorem applyReset_hp (s : State) (c : Cfg) (r : List HostAction) : (applyReset c r s).hp = ⟨c.coefReset, Delay.rest⟩ := rfl
@[simp] theorem applyReset_lp (s : State) (c : Cfg) (r : List HostAction) : (applyReset c r s).lp = ⟨c.coefReset, Delay.rest⟩ := rfl
@[simp] theorem applyReset_lfo (s : State) (c : Cfg) (r : List HostAction) : (applyReset c r s).lfo = ⟨0#32, 0#32⟩ := rfl
@[simp] theorem applyReset_ind (s : State) (c : Cfg) (r : List HostAction) : (applyReset c r s).ind = false := rfl
@[simp] theorem applyReset_inputs (s : State) (c : Cfg) (r : List HostAction) : (applyReset c r s).inputs = s.inputs := rfl
@[simp] theorem applyReset_aout (s : State) (c : Cfg) (r : List HostAction) : (applyReset c r s).aout = s.aout := rfl
@[simp] theorem applyReset_indOut (s : State) (c : Cfg) (r : List HostAction) : (applyReset c r s).indOut = false := rfl
@[simp] theorem applyReset_response (s : State) (c : Cfg) (r : List HostAction) : (applyReset c r s).response = none := rfl
@[simp] theorem applyReset_events (s : State) (c : Cfg) (r : List HostAction) : (applyReset c r s).events = [] := rfl
@[simp] theorem applyReset_host (s : State) (c : Cfg) (r : List HostAction) : (applyReset c r s).host = r := rfl
@[simp] theorem applyReset_draws (s : State) (c : Cfg) (r : List HostAction) : (applyReset c r s).draws = s.draws := rfl

@[simp] theorem abandon_cfg (s t : State) (c : Cfg) : (abandon c s t).cfg = c.sampled := rfl
@[simp] theorem abandon_hp (s t : State) (c : Cfg) : (abandon c s t).hp = ⟨c.coefReset, Delay.rest⟩ := rfl
@[simp] theorem abandon_lp (s t : State) (c : Cfg) : (abandon c s t).lp = ⟨c.coefReset, Delay.rest⟩ := rfl
@[simp] theorem abandon_lfo (s t : State) (c : Cfg) : (abandon c s t).lfo = ⟨0#32, 0#32⟩ := rfl
@[simp] theorem abandon_ind (s t : State) (c : Cfg) : (abandon c s t).ind = false := rfl
@[simp] theorem abandon_inputs (s t : State) (c : Cfg) : (abandon c s t).inputs = s.inputs := rfl
@[simp] theorem abandon_aout (s t : State) (c : Cfg) : (abandon c s t).aout = landedWrites t.draws 0 t.events s.aout := rfl
@[simp] theorem abandon_indOut (s t : State) (c : Cfg) : (abandon c s t).indOut = false := rfl
@[simp] theorem abandon_response (s t : State) (c : Cfg) : (abandon c s t).response = none := rfl
@[simp] theorem abandon_events (s t : State) (c : Cfg) : (abandon c s t).events = [] := rfl
@[simp] theorem abandon_host (s t : State) (c : Cfg) : (abandon c s t).host = s.host := rfl
@[simp] theorem abandon_draws (s t : State) (c : Cfg) : (abandon c s t).draws = t.draws + 1 := rfl

@[simp] theorem mapLinear_cfg (s : State) (a b c d e : Word) : (s.mapLinear a b c d e).2.cfg = s.cfg := rfl
@[simp] theorem mapLinear_hp (s : State) (a b c d e : Word) : (s.mapLinear a b c d e).2.hp = s.hp := rfl
@[simp] theorem mapLinear_lp (s : State) (a b c d e : Word) : (s.mapLinear a b c d e).2.lp = s.lp := rfl
@[simp] theorem mapLinear_lfo (s : State) (a b c d e : Word) : (s.mapLinear a b c d e).2.lfo = s.lfo := rfl
@[simp] theorem mapLinear_ind (s : State) (a b c d e : Word) : (s.mapLinear a b c d e).2.ind = s.ind := rfl
@[simp] theorem mapLinear_inputs (s : State) (a b c d e : Word) : (s.mapLinear a b c d e).2.inputs = s.inputs := rfl
@[simp] theorem mapLinear_aout (s : State) (a b c d e : Word) : (s.mapLinear a b c d e).2.aout = s.aout := rfl
@[simp] theorem mapLinear_indOut (s : State) (a b c d e : Word) : (s.mapLinear a b c d e).2.indOut = s.indOut := rfl
@[simp] theorem mapLinear_response (s : State) (a b c d e : Word) : (s.mapLinear a b c d e).2.response = s.response := rfl
@[simp] theorem mapLinear_events (s : State) (a b c d e : Word) : (s.mapLinear a b c d e).2.events = s.events := rfl
@[simp] theorem mapLinear_host (s : State) (a b c d e : Word) : (s.mapLinear a b c d e).2.host = s.host := rfl

@[simp] theorem noteToHz_cfg (s : State) (a : Word) : (s.noteToHz a).2.cfg = s.cfg := rfl
@[simp] theorem noteToHz_hp (s : State) (a : Word) : (s.noteToHz a).2.hp = s.hp := rfl
@[simp] theorem noteToHz_lp (s : State) (a : Word) : (s.noteToHz a).2.lp = s.lp := rfl
@[simp] theorem noteToHz_lfo (s : State) (a : Word) : (s.noteToHz a).2.lfo = s.lfo := rfl
@[simp] theorem noteToHz_ind (s : State) (a : Word) : (s.noteToHz a).2.ind = s.ind := rfl
@[simp] theorem noteToHz_inputs (s : State) (a : Word) : (s.noteToHz a).2.inputs = s.inputs := rfl
@[simp] theorem noteToHz_aout (s : State) (a : Word) : (s.noteToHz a).2.aout = s.aout := rfl
@[simp] theorem noteToHz_indOut (s : State) (a : Word) : (s.noteToHz a).2.indOut = s.indOut := rfl
@[simp] theorem noteToHz_response (s : State) (a : Word) : (s.noteToHz a).2.response = s.response := rfl
@[simp] theorem noteToHz_events (s : State) (a : Word) : (s.noteToHz a).2.events = s.events := rfl
@[simp] theorem noteToHz_host (s : State) (a : Word) : (s.noteToHz a).2.host = s.host := rfl

@[simp] theorem highPass_cfg (s : State) (a b c : Word) : (s.highPass a b c).2.cfg = s.cfg := rfl
@[simp] theorem highPass_hp (s : State) (a b c : Word) : (s.highPass a b c).2.hp = s.hp := rfl
@[simp] theorem highPass_lp (s : State) (a b c : Word) : (s.highPass a b c).2.lp = s.lp := rfl
@[simp] theorem highPass_lfo (s : State) (a b c : Word) : (s.highPass a b c).2.lfo = s.lfo := rfl
@[simp] theorem highPass_ind (s : State) (a b c : Word) : (s.highPass a b c).2.ind = s.ind := rfl
@[simp] theorem highPass_inputs (s : State) (a b c : Word) : (s.highPass a b c).2.inputs = s.inputs := rfl
@[simp] theorem highPass_aout (s : State) (a b c : Word) : (s.highPass a b c).2.aout = s.aout := rfl
@[simp] theorem highPass_indOut (s : State) (a b c : Word) : (s.highPass a b c).2.indOut = s.indOut := rfl
@[simp] theorem highPass_response (s : State) (a b c : Word) : (s.highPass a b c).2.response = s.response := rfl
@[simp] theorem highPass_events (s : State) (a b c : Word) : (s.highPass a b c).2.events = s.events := rfl
@[simp] theorem highPass_host (s : State) (a b c : Word) : (s.highPass a b c).2.host = s.host := rfl

@[simp] theorem lowPass_cfg (s : State) (a b c : Word) : (s.lowPass a b c).2.cfg = s.cfg := rfl
@[simp] theorem lowPass_hp (s : State) (a b c : Word) : (s.lowPass a b c).2.hp = s.hp := rfl
@[simp] theorem lowPass_lp (s : State) (a b c : Word) : (s.lowPass a b c).2.lp = s.lp := rfl
@[simp] theorem lowPass_lfo (s : State) (a b c : Word) : (s.lowPass a b c).2.lfo = s.lfo := rfl
@[simp] theorem lowPass_ind (s : State) (a b c : Word) : (s.lowPass a b c).2.ind = s.ind := rfl
@[simp] theorem lowPass_inputs (s : State) (a b c : Word) : (s.lowPass a b c).2.inputs = s.inputs := rfl
@[simp] theorem lowPass_aout (s : State) (a b c : Word) : (s.lowPass a b c).2.aout = s.aout := rfl
@[simp] theorem lowPass_indOut (s : State) (a b c : Word) : (s.lowPass a b c).2.indOut = s.indOut := rfl
@[simp] theorem lowPass_response (s : State) (a b c : Word) : (s.lowPass a b c).2.response = s.response := rfl
@[simp] theorem lowPass_events (s : State) (a b c : Word) : (s.lowPass a b c).2.events = s.events := rfl
@[simp] theorem lowPass_host (s : State) (a b c : Word) : (s.lowPass a b c).2.host = s.host := rfl

@[simp] theorem lfoTick_cfg (s : State) : (s.lfoTick).2.cfg = s.cfg := rfl
@[simp] theorem lfoTick_hp (s : State) : (s.lfoTick).2.hp = s.hp := rfl
@[simp] theorem lfoTick_lp (s : State) : (s.lfoTick).2.lp = s.lp := rfl
@[simp] theorem lfoTick_ind (s : State) : (s.lfoTick).2.ind = s.ind := rfl
@[simp] theorem lfoTick_inputs (s : State) : (s.lfoTick).2.inputs = s.inputs := rfl
@[simp] theorem lfoTick_aout (s : State) : (s.lfoTick).2.aout = s.aout := rfl
@[simp] theorem lfoTick_indOut (s : State) : (s.lfoTick).2.indOut = s.indOut := rfl
@[simp] theorem lfoTick_response (s : State) : (s.lfoTick).2.response = s.response := rfl
@[simp] theorem lfoTick_events (s : State) : (s.lfoTick).2.events = s.events := rfl
@[simp] theorem lfoTick_host (s : State) : (s.lfoTick).2.host = s.host := rfl

@[simp] theorem tick_cfg (s : State) (i : Inst) (x : Word) : (s.tick i x).2.cfg = s.cfg := by cases i <;> rfl
@[simp] theorem tick_lfo (s : State) (i : Inst) (x : Word) : (s.tick i x).2.lfo = s.lfo := by cases i <;> rfl
@[simp] theorem tick_ind (s : State) (i : Inst) (x : Word) : (s.tick i x).2.ind = s.ind := by cases i <;> rfl
@[simp] theorem tick_inputs (s : State) (i : Inst) (x : Word) : (s.tick i x).2.inputs = s.inputs := by cases i <;> rfl
@[simp] theorem tick_aout (s : State) (i : Inst) (x : Word) : (s.tick i x).2.aout = s.aout := by cases i <;> rfl
@[simp] theorem tick_indOut (s : State) (i : Inst) (x : Word) : (s.tick i x).2.indOut = s.indOut := by cases i <;> rfl
@[simp] theorem tick_response (s : State) (i : Inst) (x : Word) : (s.tick i x).2.response = s.response := by cases i <;> rfl
@[simp] theorem tick_events (s : State) (i : Inst) (x : Word) : (s.tick i x).2.events = s.events := by cases i <;> rfl
@[simp] theorem tick_host (s : State) (i : Inst) (x : Word) : (s.tick i x).2.host = s.host := by cases i <;> rfl

@[simp] theorem sampled_fs (c : Cfg) : c.sampled.fs = c.fs := rfl
@[simp] theorem sampled_nch (c : Cfg) : c.sampled.nch = c.nch := rfl
@[simp] theorem sampled_nf (c : Cfg) : c.sampled.nf = c.nf := rfl
@[simp] theorem sampled_k (c : Cfg) : c.sampled.k = c.k := rfl
@[simp] theorem sampled_lfoWire (c : Cfg) : c.sampled.lfoWire = c.lfoWire := rfl
@[simp] theorem sampled_rawMin (c : Cfg) : c.sampled.rawMin = c.rawMin := rfl
@[simp] theorem sampled_rawMax (c : Cfg) : c.sampled.rawMax = c.rawMax := rfl
@[simp] theorem sampled_nnLo (c : Cfg) : c.sampled.nnLo = c.nnLo := rfl
@[simp] theorem sampled_nnHi (c : Cfg) : c.sampled.nnHi = c.nnHi := rfl
@[simp] theorem sampled_nnRef (c : Cfg) : c.sampled.nnRef = c.nnRef := rfl
@[simp] theorem sampled_fRef (c : Cfg) : c.sampled.fRef = c.fRef := rfl
@[simp] theorem sampled_semis (c : Cfg) : c.sampled.semis = c.semis := rfl
@[simp] theorem sampled_qLo (c : Cfg) : c.sampled.qLo = c.qLo := rfl
@[simp] theorem sampled_qHi (c : Cfg) : c.sampled.qHi = c.qHi := rfl
@[simp] theorem sampled_wLo (c : Cfg) : c.sampled.wLo = c.wLo := rfl
@[simp] theorem sampled_wHi (c : Cfg) : c.sampled.wHi = c.wHi := rfl
@[simp] theorem sampled_lpCeil (c : Cfg) : c.sampled.lpCeil = c.lpCeil := rfl
@[simp] theorem sampled_lfoWave (c : Cfg) : c.sampled.lfoWave = c.lfoWave := rfl
@[simp] theorem sampled_modFn (c : Cfg) : c.sampled.modFn = c.modFn := rfl
@[simp] theorem sampled_coefReset (c : Cfg) : c.sampled.coefReset = c.coefReset := rfl
@[simp] theorem sampled_epsT (c : Cfg) : c.sampled.epsT = c.epsT := rfl
@[simp] theorem sampled_fsLfo (c : Cfg) : c.sampled.fsLfo = Binary32.divNat c.fs c.k := rfl
@[simp] theorem sampled_sampled (c : Cfg) : c.sampled.sampled = c.sampled := rfl

end Sys2Proof.Machine
end

