-- ==== Sys2Proof/Laws/Ops.lean ====
section
/-! SUPPORT. What the shared operations and the units can do, said once: NaN draws, the commands' own steps, and what each
leaves alone. -/

namespace Sys2Proof.Machine

open Binary32

theorem isNaN_nan : isNaN nan = true := by decide

/-- A drawn word is a NaN. -/
theorem isNaN_freshNaN (n : Nat) : isNaN (freshNaN n) = true := by
  unfold freshNaN
  split
  · assumption
  · exact isNaN_nan

/-- Settling keeps what is a NaN and what is not. -/
@[simp] theorem isNaN_settle (n : Nat) (w : Word) : isNaN (settle n w) = isNaN w := by
  unfold settle
  split
  · next h => rw [isNaN_freshNaN, h]
  · rfl

/-- A word that is no NaN is settled as it is. -/
theorem settle_of_not_nan {w : Word} (n : Nat) (h : isNaN w = false) : settle n w = w := by
  simp [settle, h]

theorem agree_refl (w : Word) : agree w w := .inl rfl

theorem agree_symm {v w : Word} (h : agree v w) : agree w v := h.imp Eq.symm And.symm

theorem agree_trans {u v w : Word} (h : agree u v) (h' : agree v w) : agree u w := by
  rcases h with rfl | ⟨hu, hv⟩
  · exact h'
  · rcases h' with rfl | ⟨_, hw⟩
    · exact .inr ⟨hu, hv⟩
    · exact .inr ⟨hu, hw⟩

/-- A settled word agrees with the formula's. -/
theorem agree_settle (n : Nat) (w : Word) : agree (settle n w) w := by
  cases h : isNaN w
  · exact .inl (settle_of_not_nan n h)
  · exact .inr ⟨by rw [isNaN_settle, h], h⟩

theorem coeffsAgree_settleCoeffs (n : Nat) (c : Coeffs Word) : CoeffsAgree (settleCoeffs n c) c :=
  ⟨agree_settle .., agree_settle .., agree_settle .., agree_settle .., agree_settle ..⟩

/-- `b2` stays a copy of `b0` (41 R95 (b)). -/
theorem settleCoeffs_b2 (n : Nat) {c : Coeffs Word} (h : c.b2 = c.b0) : (settleCoeffs n c).b2 = (settleCoeffs n c).b0 := by
  simp [settleCoeffs, h]

theorem highPassWord_b2 (N : Num Word) (f q fs : Word) : (Coeff.highPassWord N f q fs).b2 = (Coeff.highPassWord N f q fs).b0 := by
  unfold Coeff.highPassWord; split <;> rfl

theorem lowPassWord_b2 (N : Num Word) (f q fs : Word) : (Coeff.lowPassWord N f q fs).b2 = (Coeff.lowPassWord N f q fs).b0 := by
  unfold Coeff.lowPassWord; split <;> rfl

/-- 41 R94: `a1` is the same word in both commands, inside and outside the contract. -/
theorem highPassWord_a1 (N : Num Word) (f q fs : Word) : (Coeff.highPassWord N f q fs).a1 = (Coeff.lowPassWord N f q fs).a1 := by
  unfold Coeff.highPassWord Coeff.lowPassWord; split <;> rfl

/-- 41 R94: `a2` is the same word in both commands, inside and outside the contract. -/
theorem highPassWord_a2 (N : Num Word) (f q fs : Word) : (Coeff.highPassWord N f q fs).a2 = (Coeff.lowPassWord N f q fs).a2 := by
  unfold Coeff.highPassWord Coeff.lowPassWord; split <;> rfl

@[simp] theorem response_of_ok (rs : List Word) : Response.of .ok rs =
    okResponse (rs.getD 0 0#32) (rs.getD 1 0#32) (rs.getD 2 0#32) (rs.getD 3 0#32) (rs.getD 4 0#32) := rfl

@[simp] theorem response_of_illegal : Response.of .illegal [] = illegalResponse := rfl

theorem illegalResponse_ne_ok (a b c d e : Word) : illegalResponse ≠ okResponse a b c d e := by
  intro h; injection h with h0; exact absurd h0 (by decide)

/-- The guard keeps the phase in [0, 1) whatever the sum (43 R113, R114). -/
theorem wrap_inUnit (eps : ℚ) (p : Word) : inUnit (Oscillator.wrap (Num.binary32 eps) p) = true := by
  simp only [Oscillator.wrap]
  split
  · next h => exact h
  · exact (by decide : inUnit posZero = true)

/-- A property that every turn of a counted loop keeps is kept by the loop. -/
theorem countUp_keeps {P : State → Prop} {f : Nat → State → State} (n : Nat) {s : State} (h0 : P s)
    (hf : ∀ k < n, ∀ t, P t → P (f k t)) : P (countUp f n s) := by
  induction n with
  | zero => exact h0
  | succ n ih => exact hf n (Nat.lt_succ_self n) _ (ih fun k hk => hf k (Nat.lt_succ_of_lt hk))

/-- What the sequencer's operations leave alone in a block once the switch is latched. -/
structure SeqKept (s t : State) : Prop where
  cfg : t.cfg = s.cfg
  inputs : t.inputs = s.inputs
  host : t.host = s.host
  ind : t.ind = s.ind
  indOut : t.indOut = s.indOut
  response : t.response = s.response
  rate : t.lfo.rate = s.lfo.rate

theorem SeqKept.refl (s : State) : SeqKept s s := ⟨rfl, rfl, rfl, rfl, rfl, rfl, rfl⟩

theorem SeqKept.trans {s t u : State} (h : SeqKept s t) (h' : SeqKept t u) : SeqKept s u :=
  ⟨h'.cfg.trans h.cfg, h'.inputs.trans h.inputs, h'.host.trans h.host, h'.ind.trans h.ind, h'.indOut.trans h.indOut,
   h'.response.trans h.response, h'.rate.trans h.rate⟩

theorem seqKept_countUp {f : Nat → State → State} (n : Nat) (s : State) (hf : ∀ k t, SeqKept t (f k t)) :
    SeqKept s (countUp f n s) :=
  countUp_keeps n (SeqKept.refl s) fun k _ t h => h.trans (hf k t)

theorem seqKept_settled (w : Word) (s : State) : SeqKept s (s.settled w).2 := ⟨rfl, rfl, rfl, rfl, rfl, rfl, rfl⟩

theorem seqKept_tick (i : Inst) (x : Word) (s : State) : SeqKept s (s.tick i x).2 := by
  cases i <;> exact ⟨rfl, rfl, rfl, rfl, rfl, rfl, rfl⟩

theorem seqKept_lfoTick (s : State) : SeqKept s s.lfoTick.2 := ⟨rfl, rfl, rfl, rfl, rfl, rfl, rfl⟩

theorem seqKept_readControls (t : Nat) (s : State) : SeqKept s (readControls t s).2 := ⟨rfl, rfl, rfl, rfl, rfl, rfl, rfl⟩

theorem seqKept_modulateBase (b : Word) (s : State) : SeqKept s (modulateBase b s).2 := by
  unfold modulateBase
  split
  · exact seqKept_lfoTick s
  · exact SeqKept.refl s

theorem seqKept_mapControls (r : Word × Word × Word) (s : State) : SeqKept s (mapControls r s).2 :=
  SeqKept.trans (t := ((((s.mapLinear r.1 s.cfg.rawMin s.cfg.rawMax s.cfg.nnLo s.cfg.nnHi).2.noteToHz
    (s.mapLinear r.1 s.cfg.rawMin s.cfg.rawMax s.cfg.nnLo s.cfg.nnHi).1).2.mapLinear r.2.1 s.cfg.rawMin s.cfg.rawMax
    s.cfg.wLo s.cfg.wHi).2.mapLinear r.2.2 s.cfg.rawMin s.cfg.rawMax s.cfg.qLo s.cfg.qHi).2)
    ⟨rfl, rfl, rfl, rfl, rfl, rfl, rfl⟩ (seqKept_modulateBase _ _)

theorem seqKept_pushCoeffs (p : Word × Word × Word) (s : State) : SeqKept s (pushCoeffs p s) :=
  ⟨rfl, rfl, rfl, rfl, rfl, rfl, rfl⟩

theorem seqKept_ctrlupd (t : Nat) (s : State) : SeqKept s (ctrlupd t s) :=
  ((seqKept_readControls t s).trans (seqKept_mapControls _ _)).trans (seqKept_pushCoeffs _ _)

theorem seqKept_frameSample (n c : Nat) (s : State) : SeqKept s (frameSample n c s) := by
  unfold frameSample
  split <;> exact ⟨rfl, rfl, rfl, rfl, rfl, rfl, rfl⟩

theorem seqKept_frame (n : Nat) (s : State) : SeqKept s (frame n s) := seqKept_countUp _ s (seqKept_frameSample n)

theorem seqKept_renderFrame (n : Nat) (s : State) : SeqKept s (renderFrame n s) := by
  unfold renderFrame
  split
  · exact (seqKept_ctrlupd _ s).trans (seqKept_frame n _)
  · exact seqKept_frame n s

/-- After `BLKSW` the block keeps the latch, the indicator, the parameters, the inputs, the host's actions, the response and the
LFO's rate. -/
theorem seqKept_renderBlock (s : State) : SeqKept (blksw s) (renderBlock s) := seqKept_countUp _ _ seqKept_renderFrame

@[simp] theorem blksw_cfg (s : State) : (blksw s).cfg = s.cfg := rfl
@[simp] theorem blksw_hp (s : State) : (blksw s).hp = s.hp := rfl
@[simp] theorem blksw_lp (s : State) : (blksw s).lp = s.lp := rfl
@[simp] theorem blksw_lfo (s : State) : (blksw s).lfo = s.lfo := rfl
@[simp] theorem blksw_ind (s : State) : (blksw s).ind = s.inputs.swin := rfl
@[simp] theorem blksw_inputs (s : State) : (blksw s).inputs = s.inputs := rfl
@[simp] theorem blksw_aout (s : State) : (blksw s).aout = s.aout := rfl
@[simp] theorem blksw_indOut (s : State) : (blksw s).indOut = s.inputs.swin := rfl
@[simp] theorem blksw_response (s : State) : (blksw s).response = s.response := rfl
@[simp] theorem blksw_host (s : State) : (blksw s).host = s.host := rfl
@[simp] theorem blksw_draws (s : State) : (blksw s).draws = s.draws := rfl
@[simp] theorem blksw_events (s : State) : (blksw s).events =
    s.events ++ [.readSwin 0 s.inputs.swin] ++ [.writeIndOut 0 s.inputs.swin] := rfl

/-- Mapping the controls writes no biquad register and touches no port (44 R124). -/
structure MapKept (s t : State) : Prop where
  hp : t.hp = s.hp
  lp : t.lp = s.lp
  aout : t.aout = s.aout
  indOut : t.indOut = s.indOut
  events : t.events = s.events

theorem mapKept_modulateBase (b : Word) (s : State) : MapKept s (modulateBase b s).2 := by
  unfold modulateBase
  split
  · exact ⟨rfl, rfl, rfl, rfl, rfl⟩
  · exact ⟨rfl, rfl, rfl, rfl, rfl⟩

theorem mapKept_mapControls (r : Word × Word × Word) (s : State) : MapKept s (mapControls r s).2 := by
  unfold mapControls
  obtain ⟨h1, h2, h3, h4, h5⟩ := mapKept_modulateBase
    ((s.mapLinear r.1 s.cfg.rawMin s.cfg.rawMax s.cfg.nnLo s.cfg.nnHi).2.noteToHz
      (s.mapLinear r.1 s.cfg.rawMin s.cfg.rawMax s.cfg.nnLo s.cfg.nnHi).1).1
    ((((s.mapLinear r.1 s.cfg.rawMin s.cfg.rawMax s.cfg.nnLo s.cfg.nnHi).2.noteToHz
      (s.mapLinear r.1 s.cfg.rawMin s.cfg.rawMax s.cfg.nnLo s.cfg.nnHi).1).2.mapLinear r.2.1 s.cfg.rawMin s.cfg.rawMax
      s.cfg.wLo s.cfg.wHi).2.mapLinear r.2.2 s.cfg.rawMin s.cfg.rawMax s.cfg.qLo s.cfg.qHi).2
  exact ⟨h1, h2, h3, h4, h5⟩

theorem pushCoeffs_hp_delay (p : Word × Word × Word) (s : State) : (pushCoeffs p s).hp.delay = s.hp.delay := rfl
theorem pushCoeffs_lp_delay (p : Word × Word × Word) (s : State) : (pushCoeffs p s).lp.delay = s.lp.delay := rfl

/-- A control update writes no delay line (44 R124). -/
theorem ctrlupd_hp_delay (t : Nat) (s : State) : (ctrlupd t s).hp.delay = s.hp.delay :=
  (pushCoeffs_hp_delay _ _).trans (congrArg Biquad.delay (mapKept_mapControls _ (readControls t s).2).hp)

theorem ctrlupd_lp_delay (t : Nat) (s : State) : (ctrlupd t s).lp.delay = s.lp.delay :=
  (pushCoeffs_lp_delay _ _).trans (congrArg Biquad.delay (mapKept_mapControls _ (readControls t s).2).lp)

/-- A control update writes no output port (44 R124). -/
theorem ctrlupd_aout (t : Nat) (s : State) : (ctrlupd t s).aout = s.aout :=
  (mapKept_mapControls (readControls t s).1 (readControls t s).2).aout

/-- A control update reads three elements of CIN, in index order, and that is all its port events (44 R124). -/
theorem ctrlupd_events (t : Nat) (s : State) : (ctrlupd t s).events = s.events ++
    [.readCin (3 * t) (s.inputs.cin.read (3 * t)), .readCin (3 * t + 1) (s.inputs.cin.read (3 * t + 1)),
     .readCin (3 * t + 2) (s.inputs.cin.read (3 * t + 2))] :=
  (mapKept_mapControls (readControls t s).1 (readControls t s).2).events.trans
    (by simp [readControls, controlIndex, Config.nctrl])

/-- One sample of a frame: one element of AIN is read and the same element of AOUT written, with the word the events say (44 R128). -/
theorem frameSample_io (n c : Nat) (s : State) : ∃ y,
    (frameSample n c s).events = s.events ++ [.readAin (audioIndex s.cfg n c) (s.inputs.ain.read (audioIndex s.cfg n c)),
      .writeAout (audioIndex s.cfg n c) y]
    ∧ (frameSample n c s).aout = s.aout.write (audioIndex s.cfg n c) y := by
  unfold frameSample
  split
  · exact ⟨_, by simp only [writeAout_events, tick_events, readAin_events, List.append_assoc]; rfl, rfl⟩
  · exact ⟨_, by simp only [writeAout_events, readAin_events, List.append_assoc]; rfl, rfl⟩

/-- What `exec` answers, command by command: every command answers a next state (60 R140). -/
theorem exec_next (i : Instr) (s : State) : ∃ t, exec i s = .next t := by
  cases i <;> exact ⟨_, rfl⟩

/-- A presented command always answers a next state (60 R140, R142). -/
theorem runCommand_next (c : Command) (s : State) : ∃ t, runCommand c s = .next t := by
  unfold runCommand
  cases decode c with
  | ok i => exact exec_next i s
  | error e => exact ⟨_, rfl⟩

/-- The writes of an abandoned command keep the canonical form, and each element afterwards is as before or as one of those writes
left it (70 R162). -/
theorem landedWrites_spec (n : Nat) (es : List PortEvent) : ∀ (k : Nat) (m : Memory), m.wf = true →
    (landedWrites n k es m).wf = true ∧ ∀ a, (landedWrites n k es m).read a = m.read a
      ∨ PortEvent.writeAout a ((landedWrites n k es m).read a) ∈ es := by
  induction es with
  | nil => exact fun _ _ h => ⟨h, fun _ => .inl rfl⟩
  | cons e es ih =>
    intro k m h
    have skip := (ih (k + 1) m h).imp id fun h2 a => (h2 a).imp id (List.mem_cons_of_mem e)
    cases e with
    | writeAout i v =>
      simp only [landedWrites]
      split
      · obtain ⟨h1, h2⟩ := ih (k + 1) (m.write i v) (Memory.write_wf i v h)
        refine ⟨h1, fun a => ?_⟩
        rcases h2 a with h3 | h3
        · by_cases ha : a = i
          · subst ha
            rw [h3, Memory.read_write_same a v h]
            exact .inr (List.mem_cons_self ..)
          · exact .inl (h3.trans (Memory.read_write_ne m v ha))
        · exact .inr (List.mem_cons_of_mem _ h3)
      · exact skip
    | _ => exact skip

end Sys2Proof.Machine
end

