-- ==== Sys2Proof/Laws/PerInstr.lean ====
section
/-! SUPPORT. The per-instruction family WellFormedEncoding: what the encoder writes is a well-formed command (30 R67, R69). -/

namespace Sys2Proof.Laws.WellFormedEncoding

/-- The six words of the instruction pass every check of a legal command. -/
def Statement (i : Instr) : Prop := (encode i).wellFormed = true

/-- The checks look at the header alone. -/
theorem wellFormed_header (h a b c d e : Word) : (⟨h, a, b, c, d, e⟩ : Command).wellFormed
    = (⟨h, 0#32, 0#32, 0#32, 0#32, 0#32⟩ : Command).wellFormed := rfl

theorem maplin (raw rawMin rawMax outMin outMax : Word) : Statement (.maplin raw rawMin rawMax outMin outMax) := by
  rw [Statement, encode, wellFormed_header]; decide
theorem nn2hz (nn : Word) : Statement (.nn2hz nn) := by rw [Statement, encode, wellFormed_header]; decide
theorem lpfreq (baseHz widthHz : Word) : Statement (.lpfreq baseHz widthHz) := by
  rw [Statement, encode, wellFormed_header]; decide
theorem chp (freqHz q sampleRateHz : Word) : Statement (.chp freqHz q sampleRateHz) := by
  rw [Statement, encode, wellFormed_header]; decide
theorem clp (freqHz q sampleRateHz : Word) : Statement (.clp freqHz q sampleRateHz) := by
  rw [Statement, encode, wellFormed_header]; decide
theorem bqset (i : Inst) (b0 b1 b2 a1 a2 : Word) : Statement (.bqset i b0 b1 b2 a1 a2) := by
  rw [Statement, encode, wellFormed_header]; cases i <;> decide
theorem bqtick (i : Inst) (x : Word) : Statement (.bqtick i x) := by
  rw [Statement, encode, wellFormed_header]; cases i <;> decide
theorem lforate (hz : Word) : Statement (.lforate hz) := by rw [Statement, encode, wellFormed_header]; decide
theorem lfotick : Statement .lfotick := by rw [Statement]; decide
theorem render : Statement .render := by rw [Statement]; decide

end Sys2Proof.Laws.WellFormedEncoding
end

