-- ==== Sys2Proof/Machine/Pseudo.lean ====
section
/-! DEFINITION. What the host writes above single commands: program lines whose operands may be a result of an earlier command
(30 R70), and the pseudo-commands, each exactly its expansion (30 R71). They are no instructions of the block. -/

namespace Sys2Proof.Machine

/-- An operand as a program writes it: a word, or `%k`, result word `Rk` of the most recent earlier command that returned a result
(30 R70). -/
inductive Arg where
  | word (w : Word)
  | result (k : Nat)
deriving DecidableEq, Repr

/-- One program line: a header and its operands (30 R70). -/
structure Line where
  cw0 : Word
  args : List Arg
deriving DecidableEq, Repr

/-- The pseudo-commands (30 R71). -/
inductive Pseudo where
  | bqpass (i : Inst)
  | bqloadhp (freqHz q sampleRateHz : Word)
  | bqloadlp (freqHz q sampleRateHz : Word)
  | series (x : Word)
  | impulse (i : Inst) (k : Nat)
deriving DecidableEq, Repr

/-- How many results a command returns (30 R66, column results). -/
def resultCount : Instr → Nat
  | .maplin .. => 1
  | .nn2hz .. => 1
  | .lpfreq .. => 1
  | .chp .. => 5
  | .clp .. => 5
  | .bqset .. => 0
  | .bqtick .. => 1
  | .lforate .. => 0
  | .lfotick => 1
  | .render => 0

/-- Result word `Rk` of a response (30 R63). -/
def Response.result (r : Response) (k : Nat) : Word := [r.rw1, r.rw2, r.rw3, r.rw4, r.rw5].getD k 0#32

/-- The operand word, forwarded bit for bit from the response that `%k` reads (30 R70). -/
def Arg.value (last : Response) : Arg → Word
  | .word w => w
  | .result k => last.result k

/-- The command a line presents. -/
def Line.command (last : Response) (l : Line) : Command :=
  let v := l.args.map (Arg.value last)
  ⟨l.cw0, v.getD 0 0#32, v.getD 1 0#32, v.getD 2 0#32, v.getD 3 0#32, v.getD 4 0#32⟩

/-- The response `%k` reads after a command: its own where it returned a result, the earlier one else (30 R70). -/
def forwarded (c : Command) (last : Response) (s : State) : Response :=
  match decode c with
  | .ok i => if resultCount i = 0 then last else s.response.getD last
  | .error _ => last

/-- Lines executed in order, each to completion, with `last` the response that `%k` reads (30 R70). -/
def runLines : List Line → Response → State → Host.Outcome State Fault Refusal
  | [], _, s => .next s
  | l :: ls, last, s =>
    match runCommand (l.command last) s with
    | .next t => runLines ls (forwarded (l.command last) last t) t
    | .fault r => .fault r
    | .refused r => .refused r

/-- `BQSET.i %0, %1, %2, %3, %4`. -/
def setForwarded (i : Inst) : Line :=
  ⟨Decode.header (Decode.instBit i) 0x30#8, [.result 0, .result 1, .result 2, .result 3, .result 4]⟩

/-- `BQTICK.i x`. -/
def tickLine (i : Inst) (x : Arg) : Line := ⟨Decode.header (Decode.instBit i) 0x31#8, [x]⟩

/-- The expansion of a pseudo-command (30 R71). -/
def Pseudo.expand : Pseudo → List Line
  | .bqpass i => [⟨Decode.header (Decode.instBit i) 0x30#8,
      [.word Binary32.one, .word 0#32, .word 0#32, .word 0#32, .word 0#32]⟩]
  | .bqloadhp freqHz q fs => [⟨Decode.header false 0x20#8, [.word freqHz, .word q, .word fs]⟩, setForwarded .hp]
  | .bqloadlp freqHz q fs => [⟨Decode.header false 0x21#8, [.word freqHz, .word q, .word fs]⟩, setForwarded .lp]
  | .series x => [tickLine .hp (.word x), tickLine .lp (.result 0)]
  | .impulse i k => tickLine i (.word Binary32.one) :: List.replicate (k - 1) (tickLine i (.word 0#32))

end Sys2Proof.Machine
end

