-- ==== Sys2Proof/Tests/Slice0.lean ====
section
/-! SUPPORT. Small tests whose expected results stand in the spec (95_test_vectors.md, by number), and a witness for the
hypotheses of every statement that has some. -/

namespace Sys2Proof.Tests

open Sys2Proof Sys2Proof.Machine Binary32

set_option Elab.async false

/-- The state an instruction leaves. -/
def after (i : Instr) (s : State) : State :=
  match exec i s with
  | .next t => t
  | _ => s

/-- The reset state with other parameters, and the host's next action. -/
def at_ (cfg : Cfg) (host : List HostAction) : State := { State.resetWith cfg with host := host }

def noInputs : BlockInputs := ⟨[], [], false⟩

/-! ## WellFormed: one ill-formed term for each check -/

theorem test_wellFormed_v57 : (⟨0x12#32, 0#32, 0#32, 0xDEADBEEF#32, 0#32, 0#32⟩ : Command).wellFormed = true := by decide
theorem test_reserved_v55 : (⟨0x231#32, 0#32, 0#32, 0#32, 0#32, 0#32⟩ : Command).reservedZero = false
    ∧ (⟨0x231#32, 0#32, 0#32, 0#32, 0#32, 0#32⟩ : Command).wellFormed = false := by decide
theorem test_opcode_v58 : (⟨0x51#32, 0#32, 0#32, 0#32, 0#32, 0#32⟩ : Command).opcodeAssigned = false
    ∧ (⟨0x51#32, 0#32, 0#32, 0#32, 0#32, 0#32⟩ : Command).wellFormed = false := by decide
theorem test_inst_v54 : (⟨0x111#32, 0#32, 0#32, 0#32, 0#32, 0#32⟩ : Command).instAllowed = false
    ∧ (⟨0x111#32, 0#32, 0#32, 0#32, 0#32, 0#32⟩ : Command).wellFormed = false := by decide

/-! ## Legal parameters: one illegal record for each check (93 U14), which witnesses each clause of IllegalParametersAreRefused -/

theorem test_legal_reference : Cfg.reference.legal = true := by decide
theorem test_illegal_k : { Cfg.reference with k := 0 }.legal = false := by decide
theorem test_illegal_nf : { Cfg.reference with nf := 0 }.legal = false := by decide
theorem test_illegal_nch : { Cfg.reference with nch := 0 }.legal = false := by decide
theorem test_illegal_fs : { Cfg.reference with fs := 0#32 }.legal = false
    ∧ { Cfg.reference with fs := posInf }.legal = false := by decide
theorem test_illegal_fsLfo : { Cfg.reference with fsLfo := negZero }.legal = false
    ∧ { Cfg.reference with fsLfo := posInf }.legal = false := by decide
/-- 00 R12, with 95 P5's "for instance": FS_LFO is FS / K, 8 / 2 = 4, whatever the host's record says. -/
theorem test_sampled_fsLfo : { Cfg.reference with fs := 0x41000000#32, fsLfo := 0#32 }.sampled.fsLfo = 0x40800000#32
    ∧ Cfg.reference.sampled = Cfg.reference := by decide
/-- An `FS / K` that rounds to zero is no legal rate (93 U14). -/
theorem test_sampled_underflow : { Cfg.reference with fs := 0x00000001#32 }.sampled.legal = false := by decide
theorem test_illegal_raw : { Cfg.reference with rawMax := 0#32 }.legal = false := by decide

/-! ## Decoding: words written out from 30 R61, R62, R66 -/

theorem test_decode_maplin : decode ⟨0b00000000000000000000000000010000#32, 1#32, 2#32, 3#32, 4#32, 5#32⟩
    = .ok (.maplin 1#32 2#32 3#32 4#32 5#32) := by decide
theorem test_decode_nn2hz : decode ⟨0b00000000000000000000000000010001#32, 1#32, 2#32, 3#32, 4#32, 5#32⟩
    = .ok (.nn2hz 1#32) := by decide
theorem test_decode_lpfreq : decode ⟨0b00000000000000000000000000010010#32, 1#32, 2#32, 3#32, 4#32, 5#32⟩
    = .ok (.lpfreq 1#32 2#32) := by decide
theorem test_decode_chp : decode ⟨0b00000000000000000000000000100000#32, 1#32, 2#32, 3#32, 4#32, 5#32⟩
    = .ok (.chp 1#32 2#32 3#32) := by decide
theorem test_decode_clp : decode ⟨0b00000000000000000000000000100001#32, 1#32, 2#32, 3#32, 4#32, 5#32⟩
    = .ok (.clp 1#32 2#32 3#32) := by decide
theorem test_decode_bqset_lp : decode ⟨0b00000000000000000000000100110000#32, 1#32, 2#32, 3#32, 4#32, 5#32⟩
    = .ok (.bqset .lp 1#32 2#32 3#32 4#32 5#32) := by decide
theorem test_decode_bqtick_hp : decode ⟨0b00000000000000000000000000110001#32, 1#32, 2#32, 3#32, 4#32, 5#32⟩
    = .ok (.bqtick .hp 1#32) := by decide
theorem test_decode_bqtick_lp : decode ⟨0b00000000000000000000000100110001#32, 1#32, 2#32, 3#32, 4#32, 5#32⟩
    = .ok (.bqtick .lp 1#32) := by decide
theorem test_decode_lforate : decode ⟨0b00000000000000000000000001000000#32, 1#32, 2#32, 3#32, 4#32, 5#32⟩
    = .ok (.lforate 1#32) := by decide
theorem test_decode_lfotick : decode ⟨0b00000000000000000000000001000001#32, 1#32, 2#32, 3#32, 4#32, 5#32⟩
    = .ok .lfotick := by decide
theorem test_decode_render : decode ⟨0b00000000000000000000000001010000#32, 1#32, 2#32, 3#32, 4#32, 5#32⟩
    = .ok .render := by decide
theorem test_decodeTableWord : decodeTableWord 32 0x130 = some (.bqset .lp 0#32 0#32 0#32 0#32 0#32)
    ∧ decodeTableWord 64 0x4270000000000011 = some (.nn2hz 0x42700000#32) ∧ decodeTableWord 32 0x111 = none := by decide

/-! ## One step of each command -/

/-- V7: a raw reading above the range extrapolates. -/
theorem test_maplin_v7 : (after (.maplin 0x3F800000#32 0#32 0x3F53B646#32 0x41D80000#32 0x42F60000#32) State.reset).r0
    = 0x430F150C#32 := by decide
/-- V5, middle: the rounding of each operation shows. -/
theorem test_maplin_v5 : (after (.maplin 0x3ED3B646#32 0#32 0x3F53B646#32 0x3F19999A#32 0x40A00000#32) State.reset).r0
    = 0x40333334#32 := by decide
/-- V10 and V50. -/
theorem test_nn2hz_v10 : (after (.nn2hz 0x42700000#32) State.reset).response
    = some ⟨0#32, 0x43DC0000#32, 0#32, 0#32, 0#32, 0#32⟩ := by decide
/-- V17: the sum 22000 is clamped. -/
theorem test_lpfreq_v17 : (after (.lpfreq 0x461C4000#32 0x463B8000#32) State.reset).r0 = 0x469B7800#32 := by decide
/-- V19, V19a: a NaN sum gives the ceiling, and there is no lower clamp. -/
theorem test_lpfreq_v19 : (after (.lpfreq 0x7FC00000#32 0x41A00000#32) State.reset).r0 = 0x469B7800#32
    ∧ (after (.lpfreq 0xC3FA0000#32 0x41A00000#32) State.reset).r0 = 0xC3F00000#32 := by decide
/-- V23, with the cosine and sine the vector states: the high-pass formula at binary32. -/
theorem test_chp_v23 : Coeff.highPass { Num.binary32 Config.epsT with cos := fun _ => 0x33A22169#32, sin := fun _ => 0x3F800000#32 }
    0x462C4400#32 0x3F000000#32 0x472C4400#32
    = ⟨0x3E800001#32, 0xBF000001#32, 0x3E800001#32, 0xB3A22169#32, 0#32⟩ := by decide
/-- V26, with the cosine and sine the vector states: the low-pass formula at binary32. -/
theorem test_clp_v26 : Coeff.lowPass { Num.binary32 Config.epsT with cos := fun _ => 0x3F7D67F4#32, sin := fun _ => 0x3E1166F5#32 }
    0x447A0000#32 0x3F3504F3#32 0x472C4400#32
    = ⟨0x3B96DD3B#32, 0x3C16DD3B#32, 0x3B96DD3B#32, 0xBFE648CB#32, 0x3F51487F#32⟩ := by decide
/-- V51. -/
theorem test_bqset_v51 : (after (.bqset .lp 0x3E800000#32 0x3F000000#32 0x3E800000#32 0#32 0#32) State.reset).lp
    = ⟨⟨0x3E800000#32, 0x3F000000#32, 0x3E800000#32, 0#32, 0#32⟩, ⟨0#32, 0#32, 0#32, 0#32⟩⟩ := by decide
/-- A state of program P2: HP before the tick of step 6. -/
def p2 : State := { State.reset with hp := ⟨⟨0x3F000000#32, 0xBF000000#32, 0#32, 0#32, 0#32⟩,
  ⟨0#32, 0x3F800000#32, 0xBF000000#32, 0#32⟩⟩ }
/-- P2, step 6: the tick and the whole instance after it. -/
theorem test_bqtick_p2 : (after (.bqtick .hp 0xBF800000#32) p2).r0 = 0xBF000000#32
    ∧ (after (.bqtick .hp 0xBF800000#32) p2).hp.delay = ⟨0xBF800000#32, 0#32, 0xBF000000#32, 0xBF000000#32⟩ := by decide
/-- V39: the reset coefficients pass the signal. -/
theorem test_bqtick_v39 : (after (.bqtick .lp 0x3DCCCCCD#32) State.reset).r0 = 0x3DCCCCCD#32 := by decide
/-- 43 R111's example. -/
theorem test_lforate : (after (.lforate 0x40000000#32) State.reset).lfo = ⟨0#32, 0x40000000#32⟩ := by decide
/-- V46, third tick, with FS = 3 and K = 1: the sum rounds to 1 and wraps to 0. -/
theorem test_lfotick_v46 : (after .lfotick { at_ { Cfg.reference with fs := 0x40400000#32, k := 1 } [] with
    lfo := ⟨0x3F2AAAAB#32, 0x3F800000#32⟩ }).lfo.phase = 0#32 := by decide
/-- V47, with FS = 1 and K = 1: the guard. -/
theorem test_lfotick_v47 : (after .lfotick { at_ { Cfg.reference with fs := 0x3F800000#32, k := 1 } [] with
    lfo := ⟨0#32, 0xB089705F#32⟩ }).lfo.phase = 0#32 := by decide
/-- P3's block: a NaN with a payload and a negative zero come out unchanged. -/
theorem test_render_p3 : (after .render { State.reset with
    inputs := ⟨[(0, 0x3F800000#32), (1, 0xBF800000#32), (2, 0x7FC12345#32), (3, 0x80000000#32)], [], false⟩ }).aout
    = [(0, 0x3F800000#32), (1, 0xBF800000#32), (2, 0x7FC12345#32), (3, 0x80000000#32)] := by decide
/-- V60: the order of a Filtering block's port events. -/
theorem test_render_v60 : (schedule { Cfg.reference with nf := 4, k := 2, nch := 1 } true)
    = [(.swin, 0), (.indOut, 0), (.cin, 0), (.cin, 1), (.cin, 2), (.ain, 0), (.aout, 0), (.ain, 1), (.aout, 1),
       (.cin, 3), (.cin, 4), (.cin, 5), (.ain, 2), (.aout, 2), (.ain, 3), (.aout, 3)] := by decide
/-- V55: an illegal command answers status 1, and the instance is not ticked. -/
theorem test_illegal_v55 : (raiseIllegal p2).response = some ⟨1#32, 0#32, 0#32, 0#32, 0#32, 0#32⟩ ∧ (raiseIllegal p2).hp = p2.hp := by
  decide

/-- 30 R71: `SERIES 1` is `BQTICK.HP 1`, then `BQTICK.LP` of its result. -/
theorem test_pseudo_series : runLines (Pseudo.expand (.series one)) (okResponse 0#32 0#32 0#32 0#32 0#32) State.reset
    = .next (after (.bqtick .lp one) (after (.bqtick .hp one) State.reset)) := rfl
theorem test_pseudo_impulse : (Pseudo.impulse .hp 3).expand.map (Line.command (okResponse 0#32 0#32 0#32 0#32 0#32))
    = [⟨0x31#32, one, 0#32, 0#32, 0#32, 0#32⟩, ⟨0x31#32, 0#32, 0#32, 0#32, 0#32, 0#32⟩, ⟨0x31#32, 0#32, 0#32, 0#32, 0#32, 0#32⟩] := by
  decide

/-! ## The open functions: the correctly rounded values of 95 (b32*) are admitted, a wrong one is not -/

theorem test_sin_admits_v26 : Elementary.sinOk 24 Config.epsT 0x3E11E531#32 0x3E1166F5#32 = true := by decide +kernel
theorem test_cos_admits_v23 : Elementary.cosOk 24 Config.epsT 0x3FC90FDA#32 0x33A22169#32 = true := by decide +kernel
theorem test_sin_refuses : Elementary.sinOk 24 Config.epsT 0x3E11E531#32 0x3E116700#32 = true
    ∧ Elementary.sinOk 24 Config.epsT 0x3E11E531#32 0x3E1168F5#32 = false := by decide +kernel
theorem test_exp2_admits_p4 : Elementary.exp2Ok 48 Config.epsT 0x3FA00000#32 0x401837F0#32 = true
    ∧ Elementary.exp2Ok 48 Config.epsT 0x3FA00000#32 0x401837F4#32 = false := by decide +kernel
/-- The bound is a parameter: what the default admits a narrower one refuses. -/
theorem test_bound_is_a_parameter : Elementary.sinOk 24 (1 / 2 ^ 30) 0x3E11E531#32 0x3E116700#32 = false := by decide +kernel
/-- P3 has no end of its range: a NaN is no sine or cosine of an infinity. -/
theorem test_no_nan_at_infinity : Elementary.sinOk 24 Config.epsT posInf nan = false
    ∧ Elementary.cosOk 24 Config.epsT posInf nan = false ∧ Elementary.cosOk 24 Config.epsT posInf one = true := by decide +kernel

/-! ## Witnesses: states and operands that meet the hypotheses of each statement that has some -/

/-- The reset state with RENDER presented and the port contents of P4. -/
def p4Inputs : BlockInputs := ⟨[(0, 0x3F800000#32)], [(0, 0x3ED3B646#32), (1, 0x3ED3B646#32), (2, 0x3ED3B646#32)], true⟩
def presented (c : Command) : State := at_ Cfg.reference [.command c p4Inputs]

theorem witness_UnusedOperandWordsAreIgnored :
    decode ⟨0x12#32, 1#32, 2#32, 3#32, 4#32, 5#32⟩ = .ok (.lpfreq 1#32 2#32)
      ∧ (⟨0x12#32, 1#32, 2#32, 6#32, 7#32, 8#32⟩ : Command).operands.take 2
        = (⟨0x12#32, 1#32, 2#32, 3#32, 4#32, 5#32⟩ : Command).operands.take 2 := by decide
theorem witness_StepExecutesTheDecodedCommand :
    (presented ⟨0x31#32, one, 0#32, 0#32, 0#32, 0#32⟩).cfg.legal = true
      ∧ decode ⟨0x31#32, one, 0#32, 0#32, 0#32, 0#32⟩ = .ok (.bqtick .hp one) := by decide
theorem witness_IllegalCommandOnlyAnswers :
    (presented ⟨0x231#32, one, 0#32, 0#32, 0#32, 0#32⟩).cfg.legal = true
      ∧ decode ⟨0x231#32, one, 0#32, 0#32, 0#32, 0#32⟩ = .error .reservedBits := by decide
theorem witness_IllegalParametersAreRefused :
    { Cfg.reference with k := 0 }.sampled.k = 0
      ∧ (at_ { Cfg.reference with k := 0 } [.reset { Cfg.reference with k := 0 }]).host
        = [.reset { Cfg.reference with k := 0 }]
      ∧ (at_ Cfg.reference [.abandoned ⟨0x41#32, 0#32, 0#32, 0#32, 0#32, 0#32⟩ noInputs { Cfg.reference with k := 0 }]).host
        = [.abandoned ⟨0x41#32, 0#32, 0#32, 0#32, 0#32, 0#32⟩ noInputs { Cfg.reference with k := 0 }]
      ∧ (at_ { Cfg.reference with k := 0 } []).cfg = { Cfg.reference with k := 0 }.sampled
      ∧ Binary32.lt 0x00000000#32 0x80000000#32 = false ∧ Binary32.isZero 0x80000000#32 = true
      ∧ Binary32.lt Cfg.reference.rawMax Cfg.reference.rawMax = false ∧ Binary32.isFinite posInf = false := by decide
theorem witness_ResetClearsWhateverStood :
    Cfg.reference.sampled.legal = true ∧ (at_ Cfg.reference [.reset Cfg.reference]).host = [.reset Cfg.reference]
      ∧ (at_ Cfg.reference [.abandoned ⟨0x50#32, 0#32, 0#32, 0#32, 0#32, 0#32⟩ p4Inputs Cfg.reference]).host
        = [.abandoned ⟨0x50#32, 0#32, 0#32, 0#32, 0#32, 0#32⟩ p4Inputs Cfg.reference]
      ∧ (at_ Cfg.reference []).cfg.legal = true ∧ (at_ Cfg.reference []).aout.wf = true := by decide
/-- A reset in the middle of P2's tick: the reset values stand, and no response came (70 R162). -/
theorem test_abandoned_tick : abandon Cfg.reference p2 (after (.bqtick .hp 0xBF800000#32) p2)
    = { State.reset with draws := p2.draws + 2 } := by decide
theorem witness_TheBlockWaitsForACommand : State.reset.host = [] := rfl
/-- Operands whose results are a normal number, a rounded subnormal, and an overflow at the largest finite number. -/
theorem witness_ArithmeticRoundsCorrectly :
    isFinite one = true ∧ isFinite two = true ∧ toRat two ≠ 0 ∧ isFinite 0x00000001#32 = true
      ∧ mul 0x00000001#32 0x3FC00000#32 = 0x00000002#32 ∧ isFinite 0x7F7FFFFF#32 = true
      ∧ add 0x7F7FFFFF#32 0x7F7FFFFF#32 = posInf ∧ add 0x7F7FFFFF#32 0x72FFFFFF#32 = 0x7F7FFFFF#32
      ∧ add 0x7F7FFFFF#32 0x73000000#32 = posInf := by decide +kernel
/-- Zero results of each sign, and comparisons across zero. -/
theorem witness_ArithmeticRoundsCorrectly_zeros :
    toRat one - toRat one = 0 ∧ sub one one = posZero ∧ toRat negZero + toRat negZero = 0 ∧ add negZero negZero = negZero
      ∧ add posZero negZero = posZero ∧ sub negZero posZero = negZero ∧ mul 0x00000001#32 0x80000001#32 = negZero
      ∧ div 0x80000001#32 two = negZero ∧ lt 0x80000001#32 posZero = true ∧ lt negZero posZero = false ∧ le posZero negZero = true := by
  decide +kernel
/-- One case for each clause: the infinities of either sign against a number, a zero and each other, and a NaN. -/
theorem witness_IeeeDefaultResults :
    isFinite one = true ∧ isZero one = false ∧ isZero negZero = true ∧ div one negZero = inf true ∧ div (inf true) negZero = posInf
      ∧ isInf posInf = true ∧ isInf (inf true) = true ∧ isNaN (div posInf (inf true)) = true ∧ isNaN (add posInf (inf true)) = true
      ∧ sub posInf (inf true) = posInf ∧ mul (inf true) (inf true) = posInf ∧ add (inf true) one = inf true
      ∧ div negZero posInf = negZero ∧ div posInf negZero = inf true ∧ lt (inf true) posInf = true ∧ lt posInf posInf = false
      ∧ le posInf posInf = true ∧ isNaN 0x7F800001#32 = true := by decide
theorem witness_FloorIsExact : isFinite 0xBF000000#32 = true ∧ floor 0xBF000000#32 = 0xBF800000#32 := by decide
/-- Finite arguments at the ends of P5's two ranges. -/
theorem witness_OpenFunctionsAreAccurate :
    isFinite 0x40C90FDA#32 = true ∧ Elementary.inTurn 0x40C90FDA#32 = true ∧ Elementary.inTurn 0x40C90FDB#32 = false
      ∧ Elementary.inTurn posZero = true ∧ Elementary.inOctaves 0xC1000000#32 = true
      ∧ Elementary.inOctaves 0x41000000#32 = true ∧ Elementary.inOctaves 0x41000001#32 = false
      ∧ 1 / 2 ^ 23 ≤ Config.epsT := by decide +kernel
theorem witness_MaplinReturnsTheAffineMap :
    isFinite posZero = true ∧ isFinite Cfg.reference.rawMax = true ∧ toRat posZero ≠ toRat Cfg.reference.rawMax
      ∧ isNaN 0x7FC00000#32 = true := by decide +kernel
theorem witness_MaplinEndValues :
    isFinite posZero = true ∧ isFinite one = true ∧ isFinite two = true ∧ toRat posZero ≠ toRat one
      ∧ isFinite (sub one posZero) = true ∧ isFinite (sub one two) = true := by decide +kernel
/-- The two ends of the raw range. -/
theorem witness_MaplinStaysInRangeAndIsMonotonic :
    le 0x00000000#32 0x00000000#32 = true ∧ le 0x00000000#32 0x3F53B646#32 = true
      ∧ le 0x3F53B646#32 0x3F53B646#32 = true := by decide
theorem witness_RealMapIsMonotonicWithinItsRange : (0 : ℝ) < 1 ∧ (0 : ℝ) ≤ 1 ∧ (1 : ℝ) ≤ 1 := by norm_num
theorem witness_Nn2hzReferencePitches : State.reset.cfg.fRef = 0x43DC0000#32 ∧ State.reset.cfg.nnRef = 0x42700000#32
    ∧ State.reset.cfg.semis = 0x41400000#32 := by decide
theorem witness_LpfreqClampsTheSum : State.reset.cfg.lpCeil = 0x469B7800#32 ∧ isNaN State.reset.cfg.lpCeil = false
    ∧ isNaN (add 0x7FC00000#32 one) = true := by decide
/-- Two states that differ in every register and agree on the parameters. -/
theorem witness_MapperCommandsArePure : State.reset.cfg = p2.cfg ∧ State.reset ≠ p2 := by decide
/-- V26's operands. -/
theorem witness_ChpReturnsTheHighPass : MeetsContract 0x447A0000#32 0x3F3504F3#32 0x472C4400#32 :=
  ⟨by decide +kernel, by decide +kernel, by decide +kernel, by decide +kernel, by decide +kernel, by decide +kernel⟩
/-- V25's operands: the clamp ceiling at the highest q. -/
theorem witness_ClpReturnsTheLowPass : MeetsContract 0x469B7800#32 0x40A00000#32 0x472C4400#32 :=
  ⟨by decide +kernel, by decide +kernel, by decide +kernel, by decide +kernel, by decide +kernel, by decide +kernel⟩
/-- Two states of one block that differ in every register. -/
theorem witness_ChpAndClpShareTheFeedback : State.reset.cfg.epsT = p2.cfg.epsT ∧ State.reset ≠ p2 := by decide
theorem witness_CoefficientCommandsArePure : State.reset.cfg.epsT = p2.cfg.epsT ∧ State.reset ≠ p2 := by decide
theorem witness_RealCoefficientsAreStable : InContract 11025 (1 / 2) 44100 := by norm_num [InContract]
theorem witness_RealGainsAtTheThreeFrequencies : InContract 19900 5 44100 := by norm_num [InContract]
theorem witness_BiquadInstancesAreIsolated : State.reset.bq .lp = p2.bq .lp ∧ State.reset.bq .hp ≠ p2.bq .hp := by decide
/-- Both clauses: an ordinary number, and a negative zero. -/
theorem witness_InertCoefficientsPassTheSignal :
    (State.reset.bq .lp).coeffs = ⟨0x3F800000#32, 0#32, 0#32, 0#32, 0#32⟩
      ∧ (∀ w ∈ [0x3DCCCCCD#32, (State.reset.bq .lp).delay.x1, (State.reset.bq .lp).delay.x2,
          (State.reset.bq .lp).delay.y1, (State.reset.bq .lp).delay.y2], isFinite w = true)
      ∧ 0x3DCCCCCD#32 ≠ negZero ∧ isFinite negZero = true :=
  ⟨by decide, List.all_eq_true.mp (by decide), by decide, by decide⟩
/-- The reset coefficients with an infinity in the delay line, which the NaN of `0 * infinity` answers. -/
def poisoned : State := { State.reset with hp := ⟨State.reset.hp.coeffs, ⟨posInf, 0#32, 0#32, 0#32⟩⟩ }
theorem witness_NonFiniteHistoryPoisonsTheOutput :
    isZero (poisoned.bq .hp).coeffs.b1 = true ∧ isInf (poisoned.bq .hp).delay.x1 = true ∧ isNaN nan = true := by decide
theorem witness_RealImpulseResponseDecays : |(1 / 2 : ℝ)| < 1 ∧ |(-1 : ℝ)| < 1 + 1 / 2 := by
  norm_num [abs_of_pos, abs_of_neg]
theorem witness_LfotickReturnsTheSampleAndAdvances : State.reset.cfg.lfoWave = .sine
    ∧ { Cfg.reference with lfoWave := .other 7 }.lfoWave = .other 7 := by decide
theorem witness_ThePhaseStaysInTheUnitInterval : exec .lfotick State.reset = .next (after .lfotick State.reset)
    ∧ inUnit State.reset.lfo.phase = true ∧ inUnit 0x3F7FFFFF#32 = true ∧ State.reset.cfg.lfoWire = false :=
  ⟨rfl, by decide, by decide, rfl⟩
theorem witness_OnlyLforateChangesTheRate : exec .render State.reset = .next (after .render State.reset)
    ∧ ∀ hz, Instr.render ≠ .lforate hz := ⟨rfl, fun _ h => by cases h⟩
theorem witness_RateZeroHoldsThePhase : isZero State.reset.lfo.rate = true ∧ isFinite State.reset.cfg.fsLfo = true
    ∧ isZero State.reset.cfg.fsLfo = false ∧ inUnit 0x3F000000#32 = true ∧ (0x3F000000#32 : Word) ≠ negZero := by decide
theorem witness_TheDefaultSampleIsBounded : State.reset.cfg.lfoWave = .sine ∧ inUnit State.reset.lfo.phase = true
    ∧ State.reset.lfo.phase = 0x00000000#32 := by decide
theorem witness_RenderPortEventsFollowTheSchedule : State.reset.aout.wf = true := by decide
theorem witness_BypassCopiesAndFreezes : p2.inputs.swin = false ∧ p2.aout.wf = true ∧ 3 < p2.cfg.nf * p2.cfg.nch := by decide
theorem witness_RenderLeavesTheRestAlone : (State.reset.cfg.lfoWire = false ∨ State.reset.inputs.swin = false)
    ∧ ∀ n c, n < State.reset.cfg.nf → c < State.reset.cfg.nch → 4 ≠ audioIndex State.reset.cfg n c := by
  refine ⟨.inl rfl, fun n c hn hc => ?_⟩
  simp only [State.reset, State.resetWith, Cfg.sampled, Cfg.reference, audioIndex] at hn hc ⊢
  omega
/-- Both values of `LFO_WIRE` and both forms of `MODFN`. -/
theorem witness_ControlUpdateIsItsCommandSequence : State.reset.cfg.lfoWire = false
    ∧ (at_ { Cfg.reference with lfoWire := true } []).cfg.lfoWire = true
    ∧ (at_ { Cfg.reference with lfoWire := true } []).cfg.modFn = .keepBase
    ∧ (at_ { Cfg.reference with lfoWire := true, modFn := .other 3 } []).cfg.modFn = .other 3 := by decide
/-- Both values of `LFO_WIRE` and both forms of `MODFN`. -/
theorem witness_TheWiringPointTicksTheLfo : State.reset.cfg.lfoWire = false
    ∧ (at_ { Cfg.reference with lfoWire := true } []).cfg.lfoWire = true
    ∧ (at_ { Cfg.reference with lfoWire := true } []).cfg.modFn = .keepBase
    ∧ (at_ { Cfg.reference with lfoWire := true, modFn := .other 3 } []).cfg.modFn = .other 3 := by decide
theorem witness_StereoSharesOneDelayLine : ({ State.reset with ind := true } : State).ind = true
    ∧ ({ State.reset with ind := true } : State).cfg.nch = 2 := by decide
/-- P4's parameters and controls, and the two ends of the raw range. -/
theorem witness_InRangeControlsMeetTheContract :
    Cfg.reference.MapsAsGiven ∧ Cfg.reference.lfoWire = false ∧ isFinite Cfg.reference.fs = true
      ∧ 39800 < toRat Cfg.reference.fs
      ∧ (∀ i, i < 3 → le 0x00000000#32 (p4Inputs.cin.read (3 * 0 + i)) = true
        ∧ le (p4Inputs.cin.read (3 * 0 + i)) 0x3F53B646#32 = true)
      ∧ le 0x00000000#32 0x00000000#32 = true ∧ le 0x3F53B646#32 0x3F53B646#32 = true
      ∧ 1 / 2 ^ 23 ≤ Cfg.reference.epsT ∧ Cfg.reference.epsT ≤ 1 / 2 ^ 22 :=
  ⟨⟨rfl, rfl, rfl, rfl, rfl, rfl, rfl, rfl, rfl, rfl, rfl, rfl⟩, rfl, by decide, by decide +kernel, by decide +kernel, by decide,
    by decide, by decide +kernel, by decide +kernel⟩
/-- Two states with other registers and the same readings, at two ticks. -/
theorem witness_SameControlsGiveTheSameCoefficients : State.reset.cfg = p2.cfg ∧ State.reset.cfg.lfoWire = false
    ∧ (∀ i, i < 3 → State.reset.inputs.cin.read (3 * 0 + i) = p2.inputs.cin.read (3 * 1 + i)) ∧ State.reset.hp ≠ p2.hp := by decide
/-- Two states that differ in IND and in AOUT. -/
theorem witness_RenderHasNoOtherInput :
    State.reset.cfg = ({ State.reset with ind := true, aout := [(9, one)] } : State).cfg
      ∧ Memory.wf [(9, one)] = true ∧ State.reset.aout.wf = true := by decide
theorem witness_StepKeepsTheInvariant : (presented ⟨0x50#32, 0#32, 0#32, 0#32, 0#32, 0#32⟩).Inv
    ∧ ∃ t, step (presented ⟨0x50#32, 0#32, 0#32, 0#32, 0#32, 0#32⟩) = .next t :=
  ⟨⟨by decide, by decide, by decide, rfl, rfl, rfl, rfl, by decide, fun _ h => absurd h (by simp [presented, at_, State.resetWith]),
    fun _ h => absurd h (by simp [presented, at_, State.resetWith])⟩, _, rfl⟩

end Sys2Proof.Tests
end

section
/-! The four rounded operations and the comparisons on finite words (00 R8). A finite operand leaves one branch of each
operation, and that branch is one `round` of the exact result in units. -/

namespace Sys2Proof.Binary32

theorem isNaN_of_isFinite {w : Word} (h : isFinite w = true) : isNaN w = false := by
  rw [isFinite, bne_iff_ne] at h
  simp [isNaN, h]

theorem isInf_of_isFinite {w : Word} (h : isFinite w = true) : isInf w = false := by
  rw [isFinite, bne_iff_ne] at h
  simp [isInf, h]

/-! ### The value of a word -/

theorem units_eq (w : Word) : units w = (if signBit w then -1 else 1) * mag w := by
  unfold units
  split <;> simp

theorem toRat_eq (w : Word) : toRat w = (if signBit w then -1 else 1) * mag w / 2 ^ 149 := by
  rw [toRat, units_eq]
  push_cast
  rfl

/-- Signs multiply, and divide, as their bits differ. -/
theorem sign_bne (s t : Bool) : (if s != t then -1 else 1 : ℚ) = (if s then -1 else 1) * (if t then -1 else 1) := by
  cases s <;> cases t <;> simp

theorem sign_inv (s : Bool) : (if s then -1 else 1 : ℚ)⁻¹ = if s then -1 else 1 := by
  cases s <;> simp

theorem isZero_iff_mag (w : Word) : isZero w = true ↔ mag w = 0 := by
  unfold isZero mag
  split
  · next h => simp [h]
  · next h => simp [h]

theorem toRat_eq_zero_iff (w : Word) : toRat w = 0 ↔ isZero w = true := by
  rw [isZero_iff_mag, toRat_eq]
  split <;> simp

/-- A zero is its sign bit alone. -/
theorem eq_pack_of_isZero {w : Word} (h : isZero w = true) : w = pack (signBit w) 0 := by
  have hbits : w.toNat % 2 ^ 31 = 0 := by
    simp only [isZero, expo, frac, Bool.and_eq_true, beq_iff_eq] at h
    omega
  rw [← hbits, pack_eta]

@[simp] theorem pack_false_zero : pack false 0 = posZero := by decide

@[simp] theorem pack_true_zero : pack true 0 = negZero := by decide

theorem signBit_neg (w : Word) : signBit (neg w) = !signBit w := by
  simp [signBit, neg]

theorem toNat_neg (w : Word) : (neg w).toNat % 2 ^ 31 = w.toNat % 2 ^ 31 := by
  rw [neg, BitVec.toNat_xor, Nat.xor_mod_two_pow]
  simp

theorem expo_eq (w : Word) : expo w = w.toNat % 2 ^ 31 / 2 ^ 23 := by
  unfold expo
  omega

theorem frac_eq (w : Word) : frac w = w.toNat % 2 ^ 31 % 2 ^ 23 := by
  unfold frac
  omega

@[simp] theorem expo_neg (w : Word) : expo (neg w) = expo w := by
  rw [expo_eq, toNat_neg, expo_eq]

@[simp] theorem frac_neg (w : Word) : frac (neg w) = frac w := by
  rw [frac_eq, toNat_neg, frac_eq]

@[simp] theorem isFinite_neg (w : Word) : isFinite (neg w) = isFinite w := by
  simp [isFinite]

@[simp] theorem mag_neg (w : Word) : mag (neg w) = mag w := by
  simp [mag]

@[simp] theorem toRat_neg (w : Word) : toRat (neg w) = -toRat w := by
  rw [toRat_eq, toRat_eq, signBit_neg, mag_neg]
  cases signBit w <;> simp [neg_div]

theorem neg_eq_iff (v w : Word) : neg v = w ↔ v = neg w := by
  constructor <;> (rintro rfl; simp [neg])

/-! ### Rounding -/

theorem roundMag_lt (num den : Nat) : roundMag num den < 2 ^ 31 :=
  (min_le_right _ _).trans_lt (by norm_num)

@[simp] theorem signBit_round (neg : Bool) (num den : Nat) : signBit (round neg num den) = neg :=
  signBit_pack neg (roundMag_lt num den)

theorem round_zero (neg : Bool) : round neg 0 1 = pack neg 0 := by
  cases neg <;> decide

/-- A whole number of units, rounded, as `add` does it. -/
theorem round_units_roundsTo (u : ℤ) : RoundsTo (u / 2 ^ 149) (round (decide (u < 0)) u.natAbs 1) := by
  refine round_roundsTo _ _ one_pos _ ?_
  have habs : ((u.natAbs : ℕ) : ℚ) = |(u : ℚ)| := by rw [Nat.cast_natAbs, Int.cast_abs]
  have hu : (u : ℚ) < 0 ↔ u < 0 := by norm_cast
  rw [habs]
  rcases lt_or_ge u 0 with h | h
  · simp [h, abs_of_neg (hu.mpr h)]
  · simp [not_lt.mpr h, abs_of_nonneg (not_lt.mp (hu.not.mpr (not_lt.mpr h)))]

/-- Both zeros are zero rounded. -/
theorem pack_zero_roundsTo (neg : Bool) : RoundsTo 0 (pack neg 0) := by
  rw [← round_zero]
  exact round_roundsTo neg 0 one_pos 0 (by simp)

/-! ### The one branch of each operation that finite operands reach -/

section
variable {a b : Word} (ha : isFinite a = true) (hb : isFinite b = true)
include ha hb

theorem add_of_isFinite : add a b = if units a + units b = 0 then pack (signBit a && signBit b) 0
    else round (decide (units a + units b < 0)) (units a + units b).natAbs 1 := by
  unfold add
  rw [isNaN_of_isFinite ha, isNaN_of_isFinite hb, isInf_of_isFinite ha, isInf_of_isFinite hb]
  cases signBit a <;> cases signBit b <;> simp

theorem mul_of_isFinite : mul a b = round (signBit a != signBit b) (mag a * mag b) (2 ^ 149) := by
  unfold mul
  rw [isNaN_of_isFinite ha, isNaN_of_isFinite hb, isInf_of_isFinite ha, isInf_of_isFinite hb]
  rfl

theorem div_of_isFinite (h0 : isZero b = false) :
    div a b = round (signBit a != signBit b) (mag a * 2 ^ 149) (mag b) := by
  unfold div
  rw [isNaN_of_isFinite ha, isNaN_of_isFinite hb, isInf_of_isFinite ha, isInf_of_isFinite hb, h0]
  rfl

/-! ### Each operation is correctly rounded -/

theorem add_roundsTo : RoundsTo (toRat a + toRat b) (add a b) := by
  have hsum : toRat a + toRat b = ((units a + units b : ℤ) : ℚ) / 2 ^ 149 := by
    rw [toRat, toRat, Int.cast_add, add_div]
  rw [hsum, add_of_isFinite ha hb]
  split
  · next h => rw [h, Int.cast_zero, zero_div]; exact pack_zero_roundsTo _
  · exact round_units_roundsTo _

theorem sub_roundsTo : RoundsTo (toRat a - toRat b) (sub a b) := by
  rw [sub_eq_add_neg, ← toRat_neg]
  exact add_roundsTo ha ((isFinite_neg b).trans hb)

theorem mul_roundsTo : RoundsTo (toRat a * toRat b) (mul a b) := by
  rw [mul_of_isFinite ha hb]
  refine round_roundsTo _ _ (by positivity) _ ?_
  rw [toRat_eq, toRat_eq, sign_bne]
  push_cast
  ring

theorem div_roundsTo (h0 : isZero b = false) : RoundsTo (toRat a / toRat b) (div a b) := by
  have hpos : 0 < mag b := Nat.pos_of_ne_zero fun h => by simp [(isZero_iff_mag b).mpr h] at h0
  rw [div_of_isFinite ha hb h0]
  refine round_roundsTo _ _ hpos _ ?_
  rw [toRat_eq, toRat_eq, sign_bne]
  push_cast
  linear_combination (if signBit a then -1 else 1) * (mag a : ℚ) / mag b * sign_inv (signBit b)

/-! ### The sign of a zero sum, and of a product and a quotient -/

/-- Two negative terms have the sum zero only where both are negative zeros. -/
theorem add_of_sum_zero (h : toRat a + toRat b = 0) :
    add a b = if a = negZero ∧ b = negZero then negZero else posZero := by
  have hu : units a + units b = 0 := by
    rw [toRat, toRat, ← add_div, div_eq_zero_iff] at h
    exact_mod_cast h.resolve_right (by positivity)
  rw [add_of_isFinite ha hb, if_pos hu]
  cases hsa : signBit a <;> cases hsb : signBit b
  case true.true =>
    have hzero : mag a = 0 ∧ mag b = 0 := by
      rw [units_eq, units_eq, hsa, hsb] at hu
      simp only [if_true] at hu
      omega
    have hna := eq_pack_of_isZero ((isZero_iff_mag a).mpr hzero.1)
    have hnb := eq_pack_of_isZero ((isZero_iff_mag b).mpr hzero.2)
    rw [hsa, pack_true_zero] at hna
    rw [hsb, pack_true_zero] at hnb
    simp [hna, hnb]
  all_goals
    have hnot : ¬(a = negZero ∧ b = negZero) := by
      rintro ⟨rfl, rfl⟩
      revert hsa hsb
      decide
    simp [hnot]

theorem sub_of_difference_zero (h : toRat a - toRat b = 0) :
    sub a b = if a = negZero ∧ b = posZero then negZero else posZero := by
  rw [sub_eq_add_neg, ← toRat_neg] at h
  have hneg : neg negZero = posZero := by decide
  rw [sub, add_of_sum_zero ha ((isFinite_neg b).trans hb) h]
  simp only [neg_eq_iff, hneg]

theorem signBit_mul : signBit (mul a b) = (signBit a != signBit b) := by
  rw [mul_of_isFinite ha hb, signBit_round]

theorem signBit_div (h0 : isZero b = false) : signBit (div a b) = (signBit a != signBit b) := by
  rw [div_of_isFinite ha hb h0, signBit_round]

end

/-! ### Comparisons: the order of the bits is the order of the numbers -/

theorem mag_eq_magBits (w : Word) : mag w = magBits (w.toNat % 2 ^ 31) := by
  conv_lhs => rw [← pack_eta w]
  exact mag_pack _ (Nat.mod_lt _ (by norm_num))

/-- The next bits are one unit in the last place more. -/
theorem magBits_strictMono : StrictMono magBits := by
  refine strictMono_nat_of_lt_succ fun m => ?_
  obtain ⟨s, r, hm, hr, hs⟩ : ∃ s r, m = s * 2 ^ 23 + r ∧ r < 2 ^ 24 ∧ (s = 0 ∨ 2 ^ 23 ≤ r) :=
    ⟨m / 2 ^ 23 - 1, m - (m / 2 ^ 23 - 1) * 2 ^ 23, by omega, by omega, by omega⟩
  rw [hm, magBits_add hr.le hs, add_assoc, magBits_add hr (hs.imp_right Nat.le_succ_of_le)]
  exact Nat.mul_lt_mul_of_pos_right r.lt_succ_self (by positivity)

theorem order_lt_iff (a b : Word) : order a < order b ↔ toRat a < toRat b := by
  have hunits : toRat a < toRat b ↔ units a < units b := by
    rw [toRat, toRat, div_lt_div_iff_of_pos_right (by positivity)]
    exact Int.cast_lt
  have hlt := fun m n : ℕ => magBits_strictMono.lt_iff_lt (a := m) (b := n)
  have hzero : magBits 0 = 0 := rfl
  rw [hunits, units, units, order, order, mag_eq_magBits, mag_eq_magBits]
  generalize a.toNat % 2 ^ 31 = m
  generalize b.toNat % 2 ^ 31 = n
  have hmn := hlt m n
  have hnm := hlt n m
  have hm := hlt 0 m
  have hn := hlt 0 n
  split <;> split <;> omega

theorem lt_iff {a b : Word} (ha : isFinite a = true) (hb : isFinite b = true) :
    lt a b = true ↔ toRat a < toRat b := by
  simp [lt, isNaN_of_isFinite ha, isNaN_of_isFinite hb, order_lt_iff]

theorem le_iff {a b : Word} (ha : isFinite a = true) (hb : isFinite b = true) :
    le a b = true ↔ toRat a ≤ toRat b := by
  rw [← not_lt, ← order_lt_iff, not_lt]
  simp [le, isNaN_of_isFinite ha, isNaN_of_isFinite hb]

/-- Settles O14, from one lemma for each operation and the order of the bits. -/
theorem arithmeticRoundsCorrectly : Obligations.ArithmeticRoundsCorrectly := by
  intro a b ha hb
  have hzero : toRat b ≠ 0 → isZero b = false := fun h => by simpa [toRat_eq_zero_iff] using h
  exact ⟨add_roundsTo ha hb, sub_roundsTo ha hb, mul_roundsTo ha hb, fun h => div_roundsTo ha hb (hzero h),
    add_of_sum_zero ha hb, sub_of_difference_zero ha hb, signBit_mul ha hb, fun h => signBit_div ha hb (hzero h),
    lt_iff ha hb, le_iff ha hb⟩

end Sys2Proof.Binary32
end

section
/-! The open functions' named values (00 R10, P1 to P4): what a correctly rounded word inherits from the number it stands for, and the
three answers an open function can give. -/

namespace Sys2Proof.Binary32

/-- The finite words end below the overflow bound. -/
theorem abs_toRat_lt {w : Word} (hw : isFinite w = true) : |toRat w| < overflowBound := by
  have hmag : mag w ≤ magBits (infBits - 1) := by
    rw [mag_eq_magBits]
    exact magBits_strictMono.monotone (Nat.le_pred_of_lt (bits_lt_of_finite hw))
  have habs : |toRat w| = mag w / 2 ^ 149 := by
    rw [toRat_eq, abs_div, abs_mul]
    cases signBit w <;> simp
  calc |toRat w| ≤ (magBits (infBits - 1) : ℕ) / 2 ^ 149 := by rw [habs]; gcongr
    _ < overflowBound := by norm_num [magBits, overflowBound]

/-- A number within the size of a finite word rounds to a word within it. -/
theorem RoundsTo.abs_toRat_le {q : ℚ} {w v : Word} (h : RoundsTo q w) (hv : isFinite v = true) (hq : |q| ≤ toRat v) :
    isFinite w = true ∧ |toRat w| ≤ toRat v := by
  rw [RoundsTo, if_pos (hq.trans_lt ((le_abs_self _).trans_lt (abs_toRat_lt hv)))] at h
  obtain ⟨hw, hnear, -⟩ := h
  obtain ⟨hq1, hq2⟩ := abs_le.mp hq
  have hup : |toRat w - q| ≤ toRat v - q := by
    simpa only [abs_of_nonneg (sub_nonneg.mpr hq2)] using hnear v hv
  have hdown : |toRat w - q| ≤ toRat v + q := by
    have h := hnear (neg v) ((isFinite_neg v).trans hv)
    rwa [toRat_neg, ← abs_neg (-toRat v - q), neg_sub, sub_neg_eq_add, add_comm q,
      abs_of_nonneg (by linarith : 0 ≤ toRat v + q)] at h
  exact ⟨hw, abs_le.mpr ⟨by linarith [neg_abs_le (toRat w - q)], by linarith [le_abs_self (toRat w - q)]⟩⟩

/-- A number that is a word's value rounds to a word of that value. -/
theorem RoundsTo.value_of_word {w v : Word} (h : RoundsTo (toRat v) w) (hv : isFinite v = true) :
    isFinite w = true ∧ toRat w = toRat v := by
  rw [RoundsTo, if_pos (abs_toRat_lt hv)] at h
  obtain ⟨hw, hnear, -⟩ := h
  have h0 := hnear v hv
  rw [sub_self, abs_zero] at h0
  exact ⟨hw, sub_eq_zero.mp (abs_nonpos_iff.mp h0)⟩

/-- A rational in the units of `round`. -/
theorem eq_signed_units (q : ℚ) :
    q = (if decide (q < 0) then -1 else 1) * (((q.num.natAbs * 2 ^ 149 : ℕ) : ℚ) / q.den) / 2 ^ 149 := by
  have habs : ((q.num.natAbs * 2 ^ 149 : ℕ) : ℚ) / q.den = |q| * 2 ^ 149 := by
    conv_rhs => rw [← Rat.num_div_den q, abs_div, Nat.abs_cast]
    push_cast [Nat.cast_natAbs]
    ring
  rw [habs, ← mul_assoc, mul_div_cancel_right₀ _ (by positivity)]
  by_cases h : q < 0
  · simp [h, abs_of_neg h]
  · simp [h, abs_of_nonneg (not_lt.mp h)]

theorem ofRat_roundsTo (q : ℚ) : RoundsTo q (ofRat q) :=
  round_roundsTo _ _ q.pos _ (eq_signed_units q)

theorem isFinite_one : isFinite one = true := by decide

theorem toRat_posZero : toRat posZero = 0 := (toRat_eq_zero_iff _).mpr (by decide)

theorem toRat_one : toRat one = 1 := by decide +kernel

theorem toRat_two : toRat two = 2 := by decide +kernel

end Sys2Proof.Binary32

namespace Sys2Proof.Elementary

open Binary32

/-! ### The answers of the open functions -/

section
variable (eps : ℚ) {x : Word}

theorem sin_of_isNaN (h : isNaN x = true) : sin eps x = nan := by simp [sin, h]

theorem cos_of_isNaN (h : isNaN x = true) : cos eps x = nan := by simp [cos, h]

theorem exp2_of_isNaN (h : isNaN x = true) : exp2 eps x = nan := by simp [exp2, h]

theorem cos_of_isZero (h : isNaN x = false) (h0 : isZero x = true) : cos eps x = one := by simp [cos, h, h0]

theorem exp2_of_isZero (h : isNaN x = false) (h0 : isZero x = true) : exp2 eps x = one := by simp [exp2, h, h0]

/-- `SIN` answers an admitted word, or else the series' own. -/
theorem sin_cases (h : isNaN x = false) : (x = posZero ∧ sin eps x = posZero)
    ∨ sinOk (Config.terms x) eps x (sin eps x) = true ∨ sin eps x = sinSeries x := by
  rw [sin, if_neg (by simp [h])]
  split
  · next h0 => exact .inl ⟨h0, rfl⟩
  · split
    · next hok => exact .inr (.inl hok)
    · exact .inr (.inr rfl)

/-- `COS` answers an admitted word, or else the series' own. -/
theorem cos_cases (h : isNaN x = false) : (isZero x = true ∧ cos eps x = one)
    ∨ cosOk (Config.terms x) eps x (cos eps x) = true ∨ cos eps x = cosSeries x := by
  rw [cos, if_neg (by simp [h])]
  split
  · next h0 => exact .inl ⟨h0, rfl⟩
  · split
    · next hok => exact .inr (.inl hok)
    · exact .inr (.inr rfl)

/-- `EXP2` answers an admitted word, or else the series' own. -/
theorem exp2_cases (h : isNaN x = false) : (isZero x = true ∧ exp2 eps x = one)
    ∨ exp2Ok (Config.terms x) eps x (exp2 eps x) = true ∨ exp2 eps x = exp2Series x := by
  rw [exp2, if_neg (by simp [h])]
  split
  · next h0 => exact .inl ⟨h0, rfl⟩
  · split
    · next hok => exact .inr (.inl hok)
    · exact .inr (.inr rfl)

/-! ### P3: sine and cosine are finite and within [-1, 1] -/

/-- A finite word within [-1, 1]. -/
def InUnitBall (r : Word) : Prop := isFinite r = true ∧ |toRat r| ≤ 1

theorem abs_unitClamp_le (q : ℚ) : |unitClamp q| ≤ 1 :=
  abs_le.mpr ⟨le_max_left .., max_le (by norm_num) (min_le_left ..)⟩

theorem inUnitBall_ofRat_unitClamp (q : ℚ) : InUnitBall (ofRat (unitClamp q)) := by
  have h := (ofRat_roundsTo (unitClamp q)).abs_toRat_le isFinite_one (by rw [toRat_one]; exact abs_unitClamp_le q)
  rwa [toRat_one] at h

theorem inUnitBall_posZero : InUnitBall posZero := ⟨by decide, by rw [toRat_posZero]; norm_num⟩

theorem inUnitBall_one : InUnitBall one := ⟨isFinite_one, by rw [toRat_one]; norm_num⟩

theorem inUnitBall_sin (h : isNaN x = false) : InUnitBall (sin eps x) := by
  rcases sin_cases eps h with ⟨-, hr⟩ | hok | hr
  · rw [hr]; exact inUnitBall_posZero
  · simp only [sinOk, Bool.and_eq_true, decide_eq_true_eq] at hok
    exact hok.1.1
  · rw [hr, sinSeries]
    split
    · exact inUnitBall_ofRat_unitClamp _
    · exact inUnitBall_posZero

theorem inUnitBall_cos (h : isNaN x = false) : InUnitBall (cos eps x) := by
  rcases cos_cases eps h with ⟨-, hr⟩ | hok | hr
  · rw [hr]; exact inUnitBall_one
  · simp only [cosOk, Bool.and_eq_true, decide_eq_true_eq] at hok
    exact hok.1
  · rw [hr, cosSeries]
    split
    · exact inUnitBall_ofRat_unitClamp _
    · exact inUnitBall_posZero

end

/-! ### P2: the power of one is near two -/

theorem inOctaves_one : inOctaves one = true := by
  simp only [inOctaves, toRat_one, decide_eq_true_eq]
  norm_num

/-- The series' own answer at one is two itself: the fraction is zero. -/
theorem toRat_exp2Series_one : isFinite (exp2Series one) = true ∧ toRat (exp2Series one) = 2 := by
  have hsum : exp2Sum 48 0 = 1 := by simp [exp2Sum, expSum, Finset.sum_range_succ']
  have hval : exp2Series one = ofRat (toRat two) := by
    rw [exp2Series, if_pos (by rw [isFinite_one, inOctaves_one]; rfl), toRat_one, toRat_two, Int.fract_one, hsum]
    simp
  have h := (ofRat_roundsTo (toRat two)).value_of_word (by decide)
  rwa [← hval, toRat_two] at h

theorem exp2_one (eps : ℚ) :
    isFinite (exp2 eps one) = true ∧ |toRat (exp2 eps one) - 2| ≤ 2 / 1000000 := by
  rcases exp2_cases eps (x := one) (by decide) with ⟨h0, -⟩ | hok | hr
  · exact absurd h0 (by decide)
  · rw [exp2Ok, if_pos (by rw [isFinite_one, inOctaves_one]; rfl)] at hok
    simp only [Bool.and_eq_true, Bool.or_eq_true, bne_self_eq_false, Bool.false_eq_true, false_or,
      decide_eq_true_eq] at hok
    obtain ⟨⟨hfin, -⟩, hnear⟩ := hok
    exact ⟨hfin, hnear⟩
  · obtain ⟨hfin, htwo⟩ := toRat_exp2Series_one
    rw [hr]
    exact ⟨hfin, by rw [htwo]; norm_num⟩

/-- Settles O17, from the answers the open functions can give. -/
theorem openFunctionsHaveTheNamedValues : Obligations.OpenFunctionsHaveTheNamedValues := by
  intro eps
  have hnan : isNaN nan = true := by decide
  refine ⟨exp2_of_isZero eps (by decide) (by decide), exp2_one eps, fun x hx => ?_, fun x hx => ?_, ?_,
    cos_of_isZero eps (by decide) (by decide)⟩
  · obtain ⟨hsf, hs⟩ := inUnitBall_sin eps hx
    obtain ⟨hcf, hc⟩ := inUnitBall_cos eps hx
    exact ⟨hsf, hs, hcf, hc⟩
  · rw [sin_of_isNaN eps hx, cos_of_isNaN eps hx, exp2_of_isNaN eps hx]
    exact ⟨hnan, hnan, hnan⟩
  · rw [sin, if_neg (by decide), if_pos rfl]

end Sys2Proof.Elementary
end

section
/-! How far a rounded word is from the number it stands for: half a unit in the last place (00 R8). -/

namespace Sys2Proof.Binary32

/-- A rounded magnitude is off by at most half a unit, or the 2^-24th part. -/
theorem roundMag_error (num : Nat) {den : Nat} (hd : 0 < den) (h : roundMag num den < infBits) :
    2 * |(magBits (roundMag num den) * den : ℤ) - num| ≤ den
      ∨ 2 ^ 24 * |(magBits (roundMag num den) * den : ℤ) - num| ≤ num := by
  obtain ⟨hlt, hge⟩ := shift_bounds num hd
  have heq : roundMag num den = shift num den * 2 ^ 23 + roundDiv num (den * 2 ^ shift num den) :=
    min_eq_left (not_lt.mp fun hc => h.ne (min_eq_right hc.le))
  rw [heq]
  generalize shift num den = s at hlt hge
  have hD : 0 < den * 2 ^ s := by positivity
  have hhalf := (roundDiv_half num hD).1
  rw [magBits_add (roundDiv_le hD hlt.le) (hge.imp_right (le_roundDiv hD))]
  have hcast : ((roundDiv num (den * 2 ^ s) * 2 ^ s : ℕ) : ℤ) * den = roundDiv num (den * 2 ^ s) * (den * 2 ^ s : ℕ) := by
    push_cast
    ring
  rw [hcast]
  rcases hge with rfl | hge
  · left
    simpa using hhalf
  · right
    have hnum : ((den * 2 ^ s : ℕ) : ℤ) * 2 ^ 23 ≤ num := by exact_mod_cast hge
    linarith

theorem roundMag_lt_of_isFinite {neg : Bool} {num den : Nat} (h : isFinite (round neg num den) = true) :
    roundMag num den < infBits := by
  refine lt_of_le_of_ne (min_le_right _ _) fun heq => ?_
  rw [round, heq] at h
  revert h
  cases neg <;> decide

/-- The same of the exact quotient, in units. -/
theorem abs_magBits_roundMag_sub_le (num : Nat) {den : Nat} (hd : 0 < den) (h : roundMag num den < infBits) :
    |(magBits (roundMag num den) : ℚ) - num / den| ≤ max ((num : ℚ) / den / 2 ^ 24) (1 / 2) := by
  have hd' : (0 : ℚ) < den := by exact_mod_cast hd
  have hdist : |(magBits (roundMag num den) : ℚ) - num / den|
      = ((|(magBits (roundMag num den) * den : ℤ) - num| : ℤ) : ℚ) / den := by
    rw [eq_div_iff hd'.ne', ← abs_of_pos hd', ← abs_mul, abs_of_pos hd', sub_mul, div_mul_cancel₀ _ hd'.ne']
    push_cast
    rfl
  rw [hdist]
  rcases roundMag_error num hd h with herr | herr
  · refine le_max_of_le_right ?_
    have herr' : 2 * ((|(magBits (roundMag num den) * den : ℤ) - num| : ℤ) : ℚ) ≤ den := by exact_mod_cast herr
    rw [div_le_iff₀ hd']
    linarith
  · refine le_max_of_le_left ?_
    have herr' : 2 ^ 24 * ((|(magBits (roundMag num den) * den : ℤ) - num| : ℤ) : ℚ) ≤ num := by exact_mod_cast herr
    rw [div_right_comm (num : ℚ)]
    gcongr
    rw [le_div_iff₀ (by positivity)]
    linarith

/-- `round`, where it does not overflow, is off by at most the 2^-24th part, or half the least unit. -/
theorem round_error {neg : Bool} {num den : Nat} (hd : 0 < den) {q : ℚ}
    (hq : q = (if neg then -1 else 1) * ((num : ℚ) / den) / 2 ^ 149) (h : isFinite (round neg num den) = true) :
    |toRat (round neg num den) - q| ≤ max (|q| / 2 ^ 24) (1 / 2 ^ 150) := by
  have hmag := abs_magBits_roundMag_sub_le num hd (roundMag_lt_of_isFinite h)
  have hsign : |(if neg then -1 else 1 : ℚ)| = 1 := by split <;> simp
  have habs : |q| = num / den / 2 ^ 149 := by
    rw [hq, abs_div, abs_mul, hsign, one_mul, abs_of_nonneg (by positivity), abs_of_pos (by positivity)]
  have hdist : |toRat (round neg num den) - q| = |(magBits (roundMag num den) : ℚ) - num / den| / 2 ^ 149 := by
    rw [round, toRat_pack neg (roundMag_lt num den), hq, ← sub_div, ← mul_sub, abs_div, abs_mul, hsign, one_mul,
      abs_of_pos (by positivity : (0 : ℚ) < 2 ^ 149)]
  rw [hdist, habs]
  calc _ ≤ max ((num : ℚ) / den / 2 ^ 24) (1 / 2) / 2 ^ 149 := by gcongr
    _ = max ((num : ℚ) / den / 2 ^ 149 / 2 ^ 24) (1 / 2 ^ 150) := by
        rw [← max_div_div_right (by positivity), div_right_comm _ (2 ^ 24) (2 ^ 149), div_div 1, ← pow_succ']

/-- A number below the overflow bound rounds to a finite word, off by no more than that. -/
theorem ofRat_error {q : ℚ} (hq : |q| < overflowBound) :
    isFinite (ofRat q) = true ∧ |toRat (ofRat q) - q| ≤ max (|q| / 2 ^ 24) (1 / 2 ^ 150) := by
  have h := ofRat_roundsTo q
  rw [RoundsTo, if_pos hq] at h
  exact ⟨h.1, round_error q.pos (eq_signed_units q) h.1⟩

/-- A positive number in the range of the normal numbers rounds to within its 2^-24th part. -/
theorem ofRat_error_of_normal {q : ℚ} (hlow : 1 / 2 ^ 126 ≤ q) (hhigh : q < overflowBound) :
    isFinite (ofRat q) = true ∧ |toRat (ofRat q) - q| ≤ q / 2 ^ 24 := by
  have habs : |q| = q := abs_of_nonneg ((by positivity : (0 : ℚ) ≤ 1 / 2 ^ 126).trans hlow)
  have h := ofRat_error (habs.trans_lt hhigh)
  rw [habs, max_eq_left] at h
  · exact h
  · calc (1 / 2 ^ 150 : ℚ) = 1 / 2 ^ 126 / 2 ^ 24 := by norm_num
      _ ≤ q / 2 ^ 24 := by gcongr

end Sys2Proof.Binary32
end

section
/-! The finite sums that decide P5 (00 R10, log 3), and the functions of the reals they stand for: each sum misses its function by no
more than the bound the model adds to it. -/

namespace Sys2Proof.Elementary

open Set

/-- The first `n` terms of the exponential series over the reals. -/
noncomputable def realExpSum (n : ℕ) (x : ℝ) : ℝ := ∑ k ∈ Finset.range n, x ^ k / k.factorial

/-- The first `n` terms of the sine series over the reals. -/
noncomputable def realSinSum (n : ℕ) (x : ℝ) : ℝ := ∑ k ∈ Finset.range n, (-1) ^ k * (x ^ (2 * k + 1) / (2 * k + 1).factorial)

/-- The first `n` terms of the cosine series over the reals. -/
noncomputable def realCosSum (n : ℕ) (x : ℝ) : ℝ := ∑ k ∈ Finset.range n, (-1) ^ k * (x ^ (2 * k) / (2 * k).factorial)

theorem expSum_cast (n : ℕ) (x : ℚ) : ((expSum n x : ℚ) : ℝ) = realExpSum n x := by
  simp [expSum, realExpSum]

theorem sinSum_cast (n : ℕ) (x : ℚ) : ((sinSum n x : ℚ) : ℝ) = realSinSum n x := by
  simp [sinSum, realSinSum, mul_div_assoc]

theorem cosSum_cast (n : ℕ) (x : ℚ) : ((cosSum n x : ℚ) : ℝ) = realCosSum n x := by
  simp [cosSum, realCosSum, mul_div_assoc]

/-! ### The remainders, by induction on the number of terms: each is the integral of the one before -/

theorem hasDerivAt_pow_div_factorial (n : ℕ) (x : ℝ) :
    HasDerivAt (fun t : ℝ => t ^ (n + 1) / (n + 1).factorial) (x ^ n / n.factorial) x := by
  refine ((hasDerivAt_pow (n + 1) x).div_const _).congr_deriv ?_
  rw [Nat.factorial_succ, Nat.cast_mul, Nat.add_sub_cancel, mul_div_mul_left _ _ (by positivity)]

theorem hasDerivAt_realExpSum (n : ℕ) (x : ℝ) : HasDerivAt (realExpSum (n + 1)) (realExpSum n x) x := by
  have h := (HasDerivAt.fun_sum fun k (_ : k ∈ Finset.range n) => hasDerivAt_pow_div_factorial k x).add_const 1
  refine h.congr_of_eventuallyEq (.of_forall fun t => ?_)
  simp [realExpSum, Finset.sum_range_succ']

theorem hasDerivAt_realSinSum (n : ℕ) (x : ℝ) : HasDerivAt (realSinSum n) (realCosSum n x) x :=
  HasDerivAt.fun_sum fun k _ => (hasDerivAt_pow_div_factorial (2 * k) x).const_mul ((-1) ^ k)

theorem hasDerivAt_realCosSum (n : ℕ) (x : ℝ) : HasDerivAt (realCosSum (n + 1)) (-realSinSum n x) x := by
  have h := (HasDerivAt.fun_sum fun k (_ : k ∈ Finset.range n) =>
    (hasDerivAt_pow_div_factorial (2 * k + 1) x).const_mul ((-1) ^ (k + 1))).add_const 1
  refine (h.congr_deriv ?_).congr_of_eventuallyEq (.of_forall fun t => ?_)
  · simp [realSinSum, pow_succ]
  · simp [realCosSum, Finset.sum_range_succ', Nat.mul_add]

/-- A function that starts at zero is bounded by the integral of a bound on its derivative. -/
theorem abs_le_pow_div_factorial_succ {f f' : ℝ → ℝ} {C y : ℝ} {n : ℕ} (h0 : f 0 = 0)
    (hf : ∀ t, HasDerivAt f (f' t) t) (hb : ∀ t ∈ Icc 0 y, |f' t| ≤ C * (t ^ n / n.factorial)) :
    ∀ t ∈ Icc 0 y, |f t| ≤ C * (t ^ (n + 1) / (n + 1).factorial) := by
  intro t ht
  refine image_norm_le_of_norm_deriv_right_le_deriv_boundary (a := 0) (b := y)
    (B := fun t => C * (t ^ (n + 1) / (n + 1).factorial))
    (fun s _ => (hf s).continuousAt.continuousWithinAt) (fun s _ => (hf s).hasDerivWithinAt) ?_
    (fun s => (hasDerivAt_pow_div_factorial n s).const_mul C) (fun s hs => hb s (Ico_subset_Icc_self hs)) ht
  simp [h0]

theorem abs_exp_sub_realExpSum_le (n : ℕ) {y : ℝ} : ∀ t ∈ Icc 0 y,
    |Real.exp t - realExpSum n t| ≤ Real.exp y * (t ^ n / n.factorial) := by
  induction n with
  | zero =>
    intro t ht
    simpa [realExpSum, abs_of_pos (Real.exp_pos t)] using ht.2
  | succ n ih =>
    exact abs_le_pow_div_factorial_succ (by simp [realExpSum, Finset.sum_range_succ'])
      (fun t => (Real.hasDerivAt_exp t).sub (hasDerivAt_realExpSum n t)) ih

theorem abs_sin_sub_realSinSum_le_of_cos {n : ℕ} {y : ℝ}
    (hcos : ∀ t ∈ Icc 0 y, |Real.cos t - realCosSum n t| ≤ 1 * (t ^ (2 * n) / (2 * n).factorial)) :
    ∀ t ∈ Icc 0 y, |Real.sin t - realSinSum n t| ≤ 1 * (t ^ (2 * n + 1) / (2 * n + 1).factorial) :=
  abs_le_pow_div_factorial_succ (by simp [realSinSum])
    (fun t => (Real.hasDerivAt_sin t).sub (hasDerivAt_realSinSum n t)) hcos

theorem abs_cos_sub_realCosSum_le (n : ℕ) {y : ℝ} : ∀ t ∈ Icc 0 y,
    |Real.cos t - realCosSum n t| ≤ 1 * (t ^ (2 * n) / (2 * n).factorial) := by
  induction n with
  | zero =>
    intro t _
    simpa [realCosSum] using Real.abs_cos_le_one t
  | succ n ih =>
    refine abs_le_pow_div_factorial_succ (by simp [realCosSum, Finset.sum_range_succ'])
      (fun t => (Real.hasDerivAt_cos t).sub (hasDerivAt_realCosSum n t)) fun t ht => ?_
    rw [← neg_sub', abs_neg]
    exact abs_sin_sub_realSinSum_le_of_cos ih t ht

/-! ### What the model's rational sums leave out -/

theorem abs_sin_sub_sinSum_le (n : ℕ) {x : ℚ} (hx : 0 ≤ x) :
    |Real.sin x - (sinSum n x : ℚ)| ≤ (sinRest n x : ℚ) := by
  have hx' : (0 : ℝ) ≤ x := by exact_mod_cast hx
  have h := abs_sin_sub_realSinSum_le_of_cos (abs_cos_sub_realCosSum_le n) x ⟨hx', le_rfl⟩
  rw [one_mul] at h
  rw [sinSum_cast, sinRest, abs_of_nonneg hx]
  exact_mod_cast h

theorem abs_cos_sub_cosSum_le (n : ℕ) {x : ℚ} (hx : 0 ≤ x) :
    |Real.cos x - (cosSum n x : ℚ)| ≤ (cosRest n x : ℚ) := by
  have hx' : (0 : ℝ) ≤ x := by exact_mod_cast hx
  have h := abs_cos_sub_realCosSum_le n x ⟨hx', le_rfl⟩
  rw [one_mul] at h
  rw [cosSum_cast, cosRest, abs_of_nonneg hx]
  exact_mod_cast h

theorem ln2_cast (n : ℕ) : ((ln2 n : ℚ) : ℝ) = ∑ k ∈ Finset.range n, (1 / 2 : ℝ) ^ (k + 1) / (k + 1) := by
  simp [ln2, div_eq_mul_inv, mul_comm]

/-- The sum is the logarithm from below. -/
theorem ln2_le_log (n : ℕ) : ((ln2 n : ℚ) : ℝ) ≤ Real.log 2 := by
  have h := Real.hasSum_pow_div_log_of_abs_lt_one (x := 1 / 2) (by norm_num [abs_of_pos])
  rw [show (1 : ℝ) - 1 / 2 = 2⁻¹ by norm_num, Real.log_inv, neg_neg] at h
  rw [ln2_cast]
  exact sum_le_hasSum _ (fun k _ => by positivity) h

theorem log_le_ln2_add (n : ℕ) : Real.log 2 ≤ (ln2 n : ℚ) + 1 / 2 ^ n := by
  have h := Real.abs_log_sub_add_sum_range_le (x := 1 / 2) (by norm_num [abs_of_pos]) n
  rw [← ln2_cast, show (1 : ℝ) - 1 / 2 = 2⁻¹ by norm_num, Real.log_inv, abs_of_pos (by norm_num : (0 : ℝ) < 1 / 2),
    show (1 / 2 : ℝ) ^ (n + 1) / (1 - 1 / 2) = 1 / 2 ^ n by rw [pow_succ, one_div_pow]; ring] at h
  linarith [neg_abs_le ((ln2 n : ℚ) + -Real.log 2 : ℝ)]

theorem ln2_nonneg (n : ℕ) : 0 ≤ ln2 n := Finset.sum_nonneg fun _ _ => by positivity

/-- The exponential grows by no more than its last slope. -/
theorem exp_sub_exp_le (a b : ℝ) : Real.exp b - Real.exp a ≤ Real.exp b * (b - a) := by
  have hfactor : Real.exp a = Real.exp b * Real.exp (a - b) := by rw [← Real.exp_add, add_sub_cancel]
  have hlin := mul_le_mul_of_nonneg_left (Real.add_one_le_exp (a - b)) (Real.exp_pos b).le
  linarith

section
variable (n : ℕ) {f : ℚ} (h0 : 0 ≤ f) (h1 : f ≤ 1)
include h0

/-- The sum is the power from below. -/
theorem exp2Sum_le : ((exp2Sum n f : ℚ) : ℝ) ≤ 2 ^ (f : ℝ) := by
  have hf : (0 : ℝ) ≤ f := by exact_mod_cast h0
  have hl : (0 : ℝ) ≤ (ln2 n : ℚ) := by exact_mod_cast ln2_nonneg n
  calc ((exp2Sum n f : ℚ) : ℝ) = realExpSum n (f * (ln2 n : ℚ)) := by rw [exp2Sum, expSum_cast, Rat.cast_mul]
    _ ≤ Real.exp (f * (ln2 n : ℚ)) := Real.sum_le_exp_of_nonneg (mul_nonneg hf hl) n
    _ ≤ Real.exp (Real.log 2 * f) := Real.exp_le_exp.mpr (by nlinarith [ln2_le_log n])
    _ = 2 ^ (f : ℝ) := (Real.rpow_def_of_pos two_pos _).symm

include h1

/-- What the sum leaves out: the rest of the exponential series, and the logarithm's. -/
theorem le_exp2Sum_add_exp2Rest : (2 : ℝ) ^ (f : ℝ) ≤ (exp2Sum n f : ℚ) + (exp2Rest n f : ℚ) := by
  have hf0 : (0 : ℝ) ≤ f := by exact_mod_cast h0
  have hf1 : (f : ℝ) ≤ 1 := by exact_mod_cast h1
  have hl0 : (0 : ℝ) ≤ (ln2 n : ℚ) := by exact_mod_cast ln2_nonneg n
  have hl := ln2_le_log n
  have hl2 := log_le_ln2_add n
  have hlog1 : Real.log 2 ≤ 1 := by linarith [Real.log_two_lt_d9]
  have hsum : ((exp2Sum n f : ℚ) : ℝ) = realExpSum n (f * (ln2 n : ℚ)) := by rw [exp2Sum, expSum_cast, Rat.cast_mul]
  rw [hsum, Real.rpow_def_of_pos two_pos, mul_comm]
  generalize ((ln2 n : ℚ) : ℝ) = l at *
  have hexp2 : ∀ t : ℝ, t ≤ Real.log 2 → Real.exp t ≤ 2 := fun t ht =>
    (Real.exp_le_exp.mpr ht).trans_eq (Real.exp_log two_pos)
  have hfl : f * l ≤ f := mul_le_of_le_one_right hf0 (hl.trans hlog1)
  have hseries : Real.exp (f * l) - realExpSum n (f * l) ≤ 2 * (f ^ n / n.factorial) :=
    calc Real.exp (f * l) - realExpSum n (f * l)
        ≤ Real.exp (f * l) * ((f * l) ^ n / n.factorial) :=
          (le_abs_self _).trans (abs_exp_sub_realExpSum_le n (f * l) ⟨by positivity, le_rfl⟩)
      _ ≤ 2 * (f ^ n / n.factorial) := by
          gcongr
          exact hexp2 _ ((mul_le_of_le_one_left hl0 hf1).trans hl)
  have hlog : Real.exp (f * Real.log 2) - Real.exp (f * l) ≤ 2 * f / 2 ^ n :=
    calc Real.exp (f * Real.log 2) - Real.exp (f * l)
        ≤ Real.exp (f * Real.log 2) * (f * Real.log 2 - f * l) := exp_sub_exp_le _ _
      _ ≤ 2 * (f * (1 / 2 ^ n)) := by
          rw [← mul_sub]
          refine mul_le_mul (hexp2 _ ?_) ?_ (mul_nonneg hf0 (sub_nonneg.mpr hl)) two_pos.le
          · exact mul_le_of_le_one_left (Real.log_nonneg one_le_two) hf1
          · exact mul_le_mul_of_nonneg_left (by linarith) hf0
      _ = 2 * f / 2 ^ n := by ring
  rw [exp2Rest]
  push_cast
  linarith

end

end Sys2Proof.Elementary
end

section
/-! The open functions' accuracy (00 R10, P5): what the finite sums admit is near the function, and the series' own answers are
admitted, for every bound from 2^-23 up (log 3). -/

namespace Sys2Proof.Elementary

open Binary32

/-! ### What is admitted is near -/

/-- A word as near a sum as `eps` less the sum's error is within `eps` of what the sum stands for. -/
theorem abs_sub_le_of_sum {F : ℝ} {r S R eps : ℚ} (hF : |F - S| ≤ R) (h : |r - S| + R ≤ eps) : |r - F| ≤ eps := by
  have h' : |(r - S : ℝ)| + R ≤ eps := by exact_mod_cast h
  have htri := abs_sub_le (r : ℝ) S F
  rw [abs_sub_comm (S : ℝ)] at htri
  linarith

theorem abs_sub_sin_le {n : ℕ} {eps : ℚ} {x r : Word} (h : sinNear n eps x r = true) (hx : 0 ≤ toRat x) :
    |(toRat r : ℝ) - Real.sin (toRat x)| ≤ eps :=
  abs_sub_le_of_sum (abs_sin_sub_sinSum_le n hx) (of_decide_eq_true h)

theorem abs_sub_cos_le {n : ℕ} {eps : ℚ} {x r : Word} (h : cosNear n eps x r = true) (hx : 0 ≤ toRat x) :
    |(toRat r : ℝ) - Real.cos (toRat x)| ≤ eps :=
  abs_sub_le_of_sum (abs_cos_sub_cosSum_le n hx) (of_decide_eq_true h)

/-- The power of a number is that of its whole part times that of its fraction. -/
theorem two_rpow_eq (q : ℚ) : (2 : ℝ) ^ (q : ℝ) = ((2 ^ ⌊q⌋ : ℚ) : ℝ) * 2 ^ ((Int.fract q : ℚ) : ℝ) := by
  conv_lhs => rw [← Int.floor_add_fract q]
  rw [Rat.cast_add, Rat.cast_intCast, Real.rpow_add two_pos, Real.rpow_intCast]
  push_cast
  rfl

theorem abs_sub_exp2_le {n : ℕ} {eps : ℚ} {x r : Word} (h : exp2Near n eps x r = true) (heps : 0 ≤ eps) :
    |(toRat r : ℝ) - 2 ^ (toRat x : ℝ)| ≤ eps * 2 ^ (toRat x : ℝ) := by
  have hlow := exp2Sum_le n (Int.fract_nonneg (toRat x))
  have hhigh := le_exp2Sum_add_exp2Rest n (Int.fract_nonneg (toRat x)) (Int.fract_lt_one _).le
  have hnear := of_decide_eq_true h
  have hwhole : (0 : ℚ) < 2 ^ ⌊toRat x⌋ := by positivity
  rw [two_rpow_eq]
  generalize (2 : ℚ) ^ ⌊toRat x⌋ = W at *
  generalize exp2Sum n (Int.fract (toRat x)) = S at *
  generalize exp2Rest n (Int.fract (toRat x)) = R at *
  generalize (2 : ℝ) ^ ((Int.fract (toRat x) : ℚ) : ℝ) = P at *
  have hW : (0 : ℝ) < W := by exact_mod_cast hwhole
  have hF : |W * P - (W * S : ℚ)| ≤ (W * R : ℚ) := by
    push_cast
    rw [← mul_sub, abs_mul, abs_of_pos hW, abs_of_nonneg (sub_nonneg.mpr hlow)]
    gcongr
    linarith
  calc |(toRat r : ℝ) - W * P| ≤ (eps * (W * S) : ℚ) := abs_sub_le_of_sum hF hnear
    _ ≤ eps * (W * P) := by push_cast; gcongr

/-! ### The series' own answers are admitted -/

/-- The decimal of `inTurn` is above 2*pi. -/
theorem inTurn_of_le_two_pi {x : Word} (h0 : 0 ≤ toRat x) (h : (toRat x : ℝ) ≤ 2 * Real.pi) : inTurn x = true := by
  have hpi := Real.pi_lt_d20
  have hle : (toRat x : ℝ) ≤ ((62831854 / 10000000 : ℚ) : ℝ) := by
    push_cast
    linarith
  exact decide_eq_true ⟨h0, by exact_mod_cast hle⟩

theorem abs_unitClamp_sub_le {S R : ℚ} (hlow : -(1 + R) ≤ S) (hhigh : S ≤ 1 + R) (hR : 0 ≤ R) : |unitClamp S - S| ≤ R := by
  have hup : unitClamp S ≤ S + R := max_le (by linarith) ((min_le_right 1 S).trans (by linarith))
  have hdown : S - R ≤ unitClamp S := le_max_of_le_right (le_min (by linarith) (by linarith))
  exact abs_le.mpr ⟨by linarith, by linarith⟩

theorem one_le_exp2Sum {n : ℕ} (hn : 0 < n) {f : ℚ} (h0 : 0 ≤ f) : 1 ≤ exp2Sum n f := by
  have hnonneg : 0 ≤ f * ln2 n := mul_nonneg h0 (ln2_nonneg n)
  have h := Finset.single_le_sum (f := fun k : ℕ => (f * ln2 n) ^ k / k.factorial) (fun k _ => by positivity)
    (Finset.mem_range.mpr hn)
  simpa [exp2Sum, expSum] using h

theorem exp2Sum_le_two (n : ℕ) {f : ℚ} (h0 : 0 ≤ f) (h1 : f ≤ 1) : exp2Sum n f ≤ 2 := by
  have h : ((exp2Sum n f : ℚ) : ℝ) ≤ 2 := (exp2Sum_le n h0).trans <|
    (Real.rpow_le_rpow_of_exponent_le one_le_two (by exact_mod_cast h1)).trans_eq (Real.rpow_one 2)
  exact_mod_cast h

theorem exp2Rest_le {f : ℚ} (h0 : 0 ≤ f) (h1 : f ≤ 1) : exp2Rest 48 f ≤ 1 / 2 ^ 24 := by
  calc exp2Rest 48 f ≤ 2 * (1 ^ 48 / (48 : ℕ).factorial) + 2 * 1 / 2 ^ 48 := by unfold exp2Rest; gcongr
    _ ≤ 1 / 2 ^ 24 := by norm_num [Nat.factorial]

section
variable {eps : ℚ} (heps : 1 / 2 ^ 23 ≤ eps) {x : Word}
include heps

theorem eps_nonneg : 0 ≤ eps := (by positivity : (0 : ℚ) ≤ 1 / 2 ^ 23).trans heps

/-- A sum that stands for a number of [-1, 1], kept within [-1, 1] and rounded, is near the sum. -/
theorem abs_ofRat_unitClamp_sub_le {F : ℝ} {S R : ℚ} (hF : |F - S| ≤ R) (hF1 : |F| ≤ 1) (hR : R ≤ 1 / 2 ^ 26) :
    |toRat (ofRat (unitClamp S)) - S| + R ≤ eps := by
  obtain ⟨hF2, hF3⟩ := abs_le.mp hF1
  obtain ⟨hS1, hS2⟩ := abs_le.mp hF
  have hlow : -(1 + R) ≤ S := by exact_mod_cast (by linarith : -(1 + (R : ℝ)) ≤ S)
  have hhigh : S ≤ 1 + R := by exact_mod_cast (by linarith : (S : ℝ) ≤ 1 + R)
  have hR0 : 0 ≤ R := by exact_mod_cast (abs_nonneg _).trans hF
  have hclamp := abs_unitClamp_sub_le hlow hhigh hR0
  have hround : |toRat (ofRat (unitClamp S)) - unitClamp S| ≤ 1 / 2 ^ 24 := by
    have h1 := abs_unitClamp_le S
    have hb : |unitClamp S| < overflowBound := h1.trans_lt (by norm_num [overflowBound])
    refine (ofRat_error hb).2.trans (max_le ?_ (by norm_num))
    gcongr
  have htri := abs_sub_le (toRat (ofRat (unitClamp S))) (unitClamp S) S
  linarith

theorem sinNear_sinSeries (hturn : inTurn x = true) : sinNear 24 eps x (sinSeries x) = true := by
  obtain ⟨h0, h1⟩ : 0 ≤ toRat x ∧ toRat x ≤ 62831854 / 10000000 := of_decide_eq_true hturn
  have hR : sinRest 24 (toRat x) ≤ 1 / 2 ^ 26 := by
    rw [sinRest, abs_of_nonneg h0]
    calc toRat x ^ 49 / (49 : ℕ).factorial ≤ 7 ^ 49 / (49 : ℕ).factorial := by gcongr; linarith
      _ ≤ 1 / 2 ^ 26 := by norm_num [Nat.factorial]
  rw [sinSeries, if_pos hturn]
  exact decide_eq_true (abs_ofRat_unitClamp_sub_le heps (abs_sin_sub_sinSum_le 24 h0) (Real.abs_sin_le_one _) hR)

theorem cosNear_cosSeries (hturn : inTurn x = true) : cosNear 24 eps x (cosSeries x) = true := by
  obtain ⟨h0, h1⟩ : 0 ≤ toRat x ∧ toRat x ≤ 62831854 / 10000000 := of_decide_eq_true hturn
  have hR : cosRest 24 (toRat x) ≤ 1 / 2 ^ 26 := by
    rw [cosRest, abs_of_nonneg h0]
    calc toRat x ^ 48 / (48 : ℕ).factorial ≤ 7 ^ 48 / (48 : ℕ).factorial := by gcongr; linarith
      _ ≤ 1 / 2 ^ 26 := by norm_num [Nat.factorial]
  rw [cosSeries, if_pos hturn]
  exact decide_eq_true (abs_ofRat_unitClamp_sub_le heps (abs_cos_sub_cosSum_le 24 h0) (Real.abs_cos_le_one _) hR)

/-- A normal multiple of a sum, rounded, is near it: rounding costs no more than its 2^-24th part, and the sum's rest as little. -/
theorem abs_ofRat_mul_sub_le {W S R : ℚ} (hW1 : 2 ^ (-8 : ℤ) ≤ W) (hW2 : W ≤ 2 ^ (8 : ℤ)) (hS1 : 1 ≤ S) (hS2 : S ≤ 2)
    (hR : R ≤ 1 / 2 ^ 24) : isFinite (ofRat (W * S)) = true
      ∧ |toRat (ofRat (W * S)) - W * S| + W * R ≤ eps * (W * S) := by
  have hW0 : 0 < W := lt_of_lt_of_le (by positivity) hW1
  have hWS : W ≤ W * S := le_mul_of_one_le_right hW0.le hS1
  have hlow : 1 / 2 ^ 126 ≤ W * S := le_trans (by norm_num) (hW1.trans hWS)
  have hhigh : W * S < overflowBound :=
    calc W * S ≤ 2 ^ (8 : ℤ) * 2 := by gcongr
      _ < overflowBound := by norm_num [overflowBound]
  obtain ⟨hfin, hround⟩ := ofRat_error_of_normal hlow hhigh
  have hrest : W * R ≤ W * S * (1 / 2 ^ 24) :=
    (mul_le_mul_of_nonneg_left hR hW0.le).trans (mul_le_mul_of_nonneg_right hWS (by positivity))
  refine ⟨hfin, ?_⟩
  calc |toRat (ofRat (W * S)) - W * S| + W * R ≤ W * S / 2 ^ 24 + W * S * (1 / 2 ^ 24) := add_le_add hround hrest
    _ = 1 / 2 ^ 23 * (W * S) := by ring
    _ ≤ eps * (W * S) := by gcongr

theorem exp2Near_exp2Series (hx : isFinite x = true) (hoct : inOctaves x = true) :
    isFinite (exp2Series x) = true ∧ exp2Near 48 eps x (exp2Series x) = true := by
  obtain ⟨hlow, hhigh⟩ : -8 ≤ toRat x ∧ toRat x ≤ 8 := of_decide_eq_true hoct
  have hf0 := Int.fract_nonneg (toRat x)
  have hf1 := (Int.fract_lt_one (toRat x)).le
  have hW1 : (2 : ℚ) ^ (-8 : ℤ) ≤ 2 ^ ⌊toRat x⌋ :=
    zpow_le_zpow_right₀ one_le_two (Int.le_floor.mpr (by exact_mod_cast hlow))
  have hW2 : (2 : ℚ) ^ ⌊toRat x⌋ ≤ 2 ^ (8 : ℤ) :=
    zpow_le_zpow_right₀ one_le_two (by exact_mod_cast (Int.floor_le (toRat x)).trans hhigh)
  rw [exp2Series, if_pos (by rw [hx, hoct]; rfl), exp2Near, decide_eq_true_eq]
  exact abs_ofRat_mul_sub_le heps hW1 hW2 (one_le_exp2Sum (by norm_num) hf0) (exp2Sum_le_two 48 hf0 hf1)
    (exp2Rest_le hf0 hf1)

/-! ### P5 -/

theorem sin_accurate (hx : isNaN x = false) (hturn : inTurn x = true) :
    |(toRat (sin eps x) : ℝ) - Real.sin (toRat x)| ≤ eps := by
  have h0 : 0 ≤ toRat x := (of_decide_eq_true hturn).1
  rcases sin_cases eps hx with ⟨rfl, hr⟩ | hok | hr
  · rw [hr, toRat_posZero]
    simpa using eps_nonneg heps
  · simp only [sinOk, hturn, Bool.and_eq_true, Bool.not_true, Bool.false_or] at hok
    exact abs_sub_sin_le hok.2 h0
  · rw [hr]
    exact abs_sub_sin_le (sinNear_sinSeries heps hturn) h0

theorem cos_accurate (hx : isNaN x = false) (hturn : inTurn x = true) :
    |(toRat (cos eps x) : ℝ) - Real.cos (toRat x)| ≤ eps := by
  have h0 : 0 ≤ toRat x := (of_decide_eq_true hturn).1
  rcases cos_cases eps hx with ⟨hz, hr⟩ | hok | hr
  · rw [hr, toRat_one, (toRat_eq_zero_iff x).mpr hz]
    simpa using eps_nonneg heps
  · simp only [cosOk, hturn, Bool.and_eq_true, Bool.not_true, Bool.false_or] at hok
    exact abs_sub_cos_le hok.2 h0
  · rw [hr]
    exact abs_sub_cos_le (cosNear_cosSeries heps hturn) h0

theorem exp2_accurate (hx : isFinite x = true) (hoct : inOctaves x = true) : isFinite (exp2 eps x) = true
    ∧ |(toRat (exp2 eps x) : ℝ) - 2 ^ (toRat x : ℝ)| ≤ eps * 2 ^ (toRat x : ℝ) := by
  have heps0 := eps_nonneg heps
  rcases exp2_cases eps (isNaN_of_isFinite hx) with ⟨hz, hr⟩ | hok | hr
  · rw [hr, toRat_one, (toRat_eq_zero_iff x).mpr hz]
    exact ⟨isFinite_one, by simpa using heps0⟩
  · rw [exp2Ok, if_pos (by rw [hx, hoct]; rfl)] at hok
    simp only [Bool.and_eq_true] at hok
    obtain ⟨⟨hfin, hnear⟩, -⟩ := hok
    exact ⟨hfin, abs_sub_exp2_le hnear heps0⟩
  · obtain ⟨hfin, hnear⟩ := exp2Near_exp2Series heps hx hoct
    rw [hr]
    exact ⟨hfin, abs_sub_exp2_le hnear heps0⟩

end

/-- Settles O18: what the finite sums admit is near, and the series' own answers are admitted. -/
theorem openFunctionsAreAccurate : Obligations.OpenFunctionsAreAccurate := by
  intro eps x heps hx
  have hnan := isNaN_of_isFinite hx
  refine ⟨fun h0 h2pi => ?_, fun hlow hhigh => exp2_accurate heps hx (decide_eq_true ⟨hlow, hhigh⟩)⟩
  have hturn := inTurn_of_le_two_pi h0 h2pi
  exact ⟨⟨(inUnitBall_sin eps hnan).1, sin_accurate heps hnan hturn⟩,
    (inUnitBall_cos eps hnan).1, cos_accurate heps hnan hturn⟩

end Sys2Proof.Elementary
end

section
/-! What a step and a command can do, said once: the answer to each action of the host (30 R60, 10 R30), what every command but RENDER
leaves alone, and the one way a command moves the LFO's phase (10 R25). -/

namespace Sys2Proof

/-- The eight ways a parameter record can be illegal (10 R29, 93 U14; log 15). -/
theorem Cfg.legal_eq_false_iff (c : Cfg) : c.legal = false ↔ c.k = 0 ∨ c.nf = 0 ∨ c.nch = 0 ∨ Binary32.isFinite c.fs = false
    ∨ Binary32.lt 0x00000000#32 c.fs = false ∨ Binary32.isFinite c.fsLfo = false ∨ Binary32.isZero c.fsLfo = true
    ∨ Binary32.lt c.rawMin c.rawMax = false := by
  simp only [Cfg.legal, Bool.and_eq_false_iff, decide_eq_false_iff_not, Nat.not_le, Nat.lt_one_iff, Bool.not_eq_false']
  tauto

namespace Machine

open Binary32

variable {s t : State}

/-! ### The four actions of the host -/

theorem step_of_idle (h : s.host = []) : step s = .next s := by simp [step, h]

theorem step_of_reset {cfg : Cfg} {rest : List HostAction} (h : s.host = .reset cfg :: rest) :
    step s = if cfg.sampled.legal then .next (applyReset cfg rest s) else .refused .illegalParameters := by
  simp [step, h]

/-- The answer `t` is the command's own. -/
theorem step_of_command {c : Command} {p : BlockInputs} {rest : List HostAction} (h : s.host = .command c p :: rest) :
    ∃ t, runCommand c (accept p rest s) = .next t
      ∧ step s = if s.cfg.legal then .next t else .refused .illegalParameters := by
  obtain ⟨t, ht⟩ := runCommand_next c (accept p rest s)
  exact ⟨t, ht, by simp [step, h, ht]⟩

/-- The abandoned command would have left `t`. -/
theorem step_of_abandoned {c : Command} {p : BlockInputs} {cfg : Cfg} {rest : List HostAction}
    (h : s.host = .abandoned c p cfg :: rest) : ∃ t, runCommand c (accept p rest s) = .next t
      ∧ step s = if s.cfg.legal && cfg.sampled.legal then .next (abandon cfg (accept p rest s) t)
        else .refused .illegalParameters := by
  obtain ⟨t, ht⟩ := runCommand_next c (accept p rest s)
  exact ⟨t, ht, by simp [step, h, ht]⟩

/-! ### Commands other than RENDER -/

/-- What every command but RENDER keeps, and that it touches no port and ends with status `OK` (30 R60, R63). -/
structure UnitKept (s t : State) : Prop where
  cfg : t.cfg = s.cfg
  inputs : t.inputs = s.inputs
  host : t.host = s.host
  ind : t.ind = s.ind
  indOut : t.indOut = s.indOut
  aout : t.aout = s.aout
  events : t.events = []
  response : ∃ results, t.response = some (.of .ok results)

theorem exec_unitKept {i : Instr} (h : exec i s = .next t) (hi : i ≠ .render) : UnitKept s t := by
  cases i with
  | render => exact absurd rfl hi
  | bqset i =>
    cases h
    exact ⟨setCoeffs_cfg .., setCoeffs_inputs .., setCoeffs_host .., setCoeffs_ind .., setCoeffs_indOut .., setCoeffs_aout ..,
      setCoeffs_events .., _, rfl⟩
  | bqtick i =>
    cases h
    exact ⟨tick_cfg .., tick_inputs .., tick_host .., tick_ind .., tick_indOut .., tick_aout .., tick_events .., _, rfl⟩
  | _ => cases h; exact ⟨rfl, rfl, rfl, rfl, rfl, rfl, rfl, _, rfl⟩

/-! ### The phase of the LFO -/

/-- The phase stands, or the wiring point, wired, has wrapped it into [0, 1) (43 R113, 44 R126). -/
def PhaseStep (s t : State) : Prop := t.lfo.phase = s.lfo.phase ∨ (s.cfg.lfoWire = true ∧ inUnit t.lfo.phase = true)

theorem PhaseStep.trans {u : State} (h : PhaseStep s t) (hc : t.cfg = s.cfg) (h' : PhaseStep t u) : PhaseStep s u := by
  rcases h' with h' | ⟨hw, hu⟩
  · exact h.imp h'.trans (And.imp_right (by rw [h']; exact id))
  · exact .inr ⟨hc ▸ hw, hu⟩

theorem PhaseStep.inUnit (h : PhaseStep s t) (hs : inUnit s.lfo.phase = true) : inUnit t.lfo.phase = true := by
  rcases h with h | ⟨_, h⟩
  · rw [h, hs]
  · exact h

theorem inUnit_lfoTick (s : State) : inUnit s.lfoTick.2.lfo.phase = true := wrap_inUnit _ _

theorem phaseStep_modulateBase (base : Word) (s : State) : PhaseStep s (modulateBase base s).2 := by
  unfold modulateBase
  split
  · next hw => exact .inr ⟨hw, inUnit_lfoTick s⟩
  · exact .inl rfl

/-- Mapping the controls moves the phase at the wiring point alone (44 R124). -/
theorem phaseStep_mapControls (raw : Word × Word × Word) (s : State) : PhaseStep s (mapControls raw s).2 := by
  refine PhaseStep.trans (.inl ?_) ?_ (phaseStep_modulateBase _ _) <;> rfl

theorem phaseStep_ctrlupd (k : Nat) (s : State) : PhaseStep s (ctrlupd k s) :=
  phaseStep_mapControls (readControls k s).1 (readControls k s).2

theorem frameSample_lfo (n c : Nat) (s : State) : (frameSample n c s).lfo = s.lfo := by
  unfold frameSample
  split <;> simp

theorem frame_lfo (n : Nat) (s : State) : (frame n s).lfo = s.lfo :=
  countUp_keeps (P := fun t => t.lfo = s.lfo) _ rfl fun c _ t h => (frameSample_lfo n c t).trans h

theorem phaseStep_renderFrame (n : Nat) (s : State) : PhaseStep s (renderFrame n s) := by
  unfold renderFrame
  rw [PhaseStep, frame_lfo]
  split
  · exact phaseStep_ctrlupd _ s
  · exact .inl rfl

theorem phaseStep_renderBlock (s : State) : PhaseStep s (renderBlock s) :=
  (countUp_keeps (P := fun t => t.cfg = s.cfg ∧ PhaseStep s t) _ ⟨blksw_cfg s, .inl rfl⟩ fun n _ t ⟨hc, hp⟩ =>
    ⟨(seqKept_renderFrame n t).cfg.trans hc, hp.trans hc (phaseStep_renderFrame n t)⟩).2

/-- A command leaves the phase as it was, or it is an LFOTICK or a wired RENDER and the phase is in [0, 1) (10 R25). -/
theorem exec_phase {i : Instr} (h : exec i s = .next t) : t.lfo.phase = s.lfo.phase
    ∨ ((i = .lfotick ∨ i = .render ∧ s.cfg.lfoWire = true) ∧ inUnit t.lfo.phase = true) := by
  cases i with
  | lfotick => cases h; exact .inr ⟨.inl rfl, inUnit_lfoTick _⟩
  | render => cases h; exact (phaseStep_renderBlock s.start).imp id fun ⟨hw, hp⟩ => ⟨.inr ⟨rfl, hw⟩, hp⟩
  | bqset i => cases h; exact .inl (congrArg Lfo.phase (setCoeffs_lfo ..))
  | bqtick i => cases h; exact .inl (congrArg Lfo.phase (tick_lfo ..))
  | _ => cases h; exact .inl rfl

theorem exec_keeps_inUnit {i : Instr} (h : exec i s = .next t) (hs : inUnit s.lfo.phase = true) :
    inUnit t.lfo.phase = true := by
  rcases exec_phase h with hp | ⟨_, hp⟩
  · rw [hp, hs]
  · exact hp

/-! ### Reset -/

theorem freshFrom_resetWith (cfg : Cfg) : FreshFrom cfg (State.resetWith cfg) :=
  ⟨fun i => by cases i <;> rfl, fun i => by cases i <;> rfl, rfl, rfl, rfl, rfl, rfl, rfl⟩

theorem inUnit_resetWith (cfg : Cfg) : inUnit (State.resetWith cfg).lfo.phase = true := by
  rw [(freshFrom_resetWith cfg).phase]; decide

end Machine

end Sys2Proof
end

section
/-! The machine's invariant (10 R25, R26, R30; 20 R45; 30 R63): it holds after reset, the sequencer's operations keep it one by one,
and so does every step. -/

namespace Sys2Proof.Machine

open Binary32

variable {s t : State}

/-! ### Reset -/

/-- A reset meets the invariant, whatever of the host's side and of `AOUT` it leaves standing (70 R160, log 14). -/
theorem inv_resetWith {cfg : Cfg} (hl : cfg.sampled.legal = true) {rest : List HostAction} (hr : ∀ a ∈ rest, a.wf = true)
    {p : BlockInputs} (hain : p.ain.wf = true) (hcin : p.cin.wf = true) {m : Memory} (hm : m.wf = true) (n : Nat) :
    State.Inv { State.resetWith cfg with host := rest, inputs := p, aout := m, draws := n } where
  legal := hl
  controlRate := rfl
  phase := inUnit_resetWith cfg
  indicator := rfl
  aout := hm
  ain := hain
  cin := hcin
  host := hr
  response := fun _ h => nomatch h
  events := fun _ h => nomatch h

theorem State.Inv.applyReset {cfg : Cfg} {rest : List HostAction} (hs : s.Inv) (hl : cfg.sampled.legal = true)
    (hr : ∀ a ∈ rest, a.wf = true) : (applyReset cfg rest s).Inv :=
  inv_resetWith hl hr hs.ain hs.cin hs.aout s.draws

theorem State.Inv.abandon {cfg : Cfg} (hs : s.Inv) (hl : cfg.sampled.legal = true) (t : State) : (abandon cfg s t).Inv :=
  inv_resetWith hl hs.host hs.ain hs.cin (landedWrites_spec _ _ 0 _ hs.aout).1 _

/-! ### A command's beginning and end -/

theorem State.Inv.accept {p : BlockInputs} {rest : List HostAction} (hs : s.Inv) (hain : p.ain.wf = true)
    (hcin : p.cin.wf = true) (hr : ∀ a ∈ rest, a.wf = true) : (accept p rest s).Inv :=
  { hs with ain := hain, cin := hcin, host := hr }

theorem State.Inv.start (hs : s.Inv) : s.start.Inv := { hs with events := fun _ h => nomatch h }

theorem State.Inv.answer (hs : s.Inv) (results : List Word) : (s.answer results).Inv :=
  { hs with response := fun _ h => .inl (by cases h; rfl) }

theorem State.Inv.raiseIllegal (hs : s.Inv) : (raiseIllegal s).Inv :=
  { hs with response := fun _ h => .inr (by cases h; rfl), events := fun _ h => nomatch h }

theorem State.Inv.of_unitKept (hs : s.Inv) (h : UnitKept s t) (hp : inUnit t.lfo.phase = true) : t.Inv := by
  obtain ⟨hc, hi, hh, hind, hout, ha, he, results, hr⟩ := h
  exact {
    legal := hc ▸ hs.legal
    controlRate := hc ▸ hs.controlRate
    phase := hp
    indicator := by rw [hout, hind, hs.indicator]
    aout := ha ▸ hs.aout
    ain := hi ▸ hs.ain
    cin := hi ▸ hs.cin
    host := hh ▸ hs.host
    response := fun r hr' => .inl (by rw [hr] at hr'; cases hr'; rfl)
    events := by simp [he] }

/-! ### RENDER -/

/-- Every event of the list has its index inside its port space (20 R45). -/
abbrev InSpace (cfg : Cfg) (es : List PortEvent) : Prop := ∀ e ∈ es, e.place.2 < e.place.1.size cfg

theorem State.Inv.one_le_k (hs : s.Inv) : 1 ≤ s.cfg.k := by
  by_contra hk
  exact absurd hs.legal (by rw [(Cfg.legal_eq_false_iff s.cfg).mpr (.inl (by omega))]; decide)

/-- An operation of the sequencer keeps the invariant when the events it adds lie inside their spaces. -/
theorem State.Inv.of_seqKept (hs : s.Inv) (h : SeqKept s t) (hp : PhaseStep s t) (ha : t.aout.wf = true)
    {es : List PortEvent} (he : t.events = s.events ++ es) (hes : InSpace s.cfg es) : t.Inv where
  legal := h.cfg ▸ hs.legal
  controlRate := h.cfg ▸ hs.controlRate
  phase := hp.inUnit hs.phase
  indicator := by rw [h.indOut, h.ind, hs.indicator]
  aout := ha
  ain := h.inputs ▸ hs.ain
  cin := h.inputs ▸ hs.cin
  host := h.host ▸ hs.host
  response := h.response ▸ hs.response
  events := by
    rw [h.cfg, he]
    exact List.forall_mem_append.mpr ⟨hs.events, hes⟩

theorem State.Inv.blksw (hs : s.Inv) : (blksw s).Inv :=
  { hs with
    indicator := rfl
    events := by
      rw [blksw_events, List.append_assoc]
      exact List.forall_mem_append.mpr ⟨hs.events, by simp [PortEvent.place, Port.size]⟩ }

/-- Frame `n` lies in control tick `n / K`, and the block has `ceil(NF / K)` ticks (20 R42). -/
theorem controlTick_lt {n nf k : Nat} (hk : 1 ≤ k) (hn : n < nf) : n / k < (nf + k - 1) / k :=
  calc n / k < (n + k) / k := by rw [Nat.add_div_right n hk]; exact Nat.lt_succ_self _
    _ ≤ (nf + k - 1) / k := Nat.div_le_div_right (by omega)

theorem State.Inv.ctrlupd {n : Nat} (hs : s.Inv) (hn : n < s.cfg.nf) : (ctrlupd (n / s.cfg.k) s).Inv := by
  have htick := controlTick_lt hs.one_le_k hn
  refine hs.of_seqKept (seqKept_ctrlupd _ s) (phaseStep_ctrlupd _ s) (ctrlupd_aout _ s ▸ hs.aout) (ctrlupd_events _ s) ?_
  simp only [InSpace, List.forall_mem_cons, PortEvent.place, Port.size]
  refine ⟨by omega, by omega, by omega, fun _ h => nomatch h⟩

/-- An element of the block's audio lies inside `AIN` and `AOUT` (20 R41). -/
theorem audioIndex_lt (cfg : Cfg) {n c : Nat} (hn : n < cfg.nf) (hc : c < cfg.nch) :
    audioIndex cfg n c < cfg.nf * cfg.nch :=
  calc n * cfg.nch + c < (n + 1) * cfg.nch := by rw [Nat.succ_mul]; omega
    _ ≤ cfg.nf * cfg.nch := Nat.mul_le_mul_right _ hn

theorem State.Inv.frameSample {n c : Nat} (hs : s.Inv) (hn : n < s.cfg.nf) (hc : c < s.cfg.nch) :
    (frameSample n c s).Inv := by
  obtain ⟨y, he, ha⟩ := frameSample_io n c s
  refine hs.of_seqKept (seqKept_frameSample n c s) (.inl (congrArg Lfo.phase (frameSample_lfo n c s)))
    (ha ▸ Memory.write_wf _ y hs.aout) he ?_
  simp [InSpace, PortEvent.place, Port.size, audioIndex_lt s.cfg hn hc]

theorem State.Inv.frame {n : Nat} (hs : s.Inv) (hn : n < s.cfg.nf) : (frame n s).Inv :=
  (countUp_keeps (P := fun t => t.cfg = s.cfg ∧ t.Inv) _ ⟨rfl, hs⟩ fun c hc t ⟨hcfg, ht⟩ =>
    ⟨(seqKept_frameSample n c t).cfg.trans hcfg, ht.frameSample (hcfg ▸ hn) (hcfg ▸ hc)⟩).2

theorem State.Inv.renderFrame {n : Nat} (hs : s.Inv) (hn : n < s.cfg.nf) : (renderFrame n s).Inv := by
  unfold Machine.renderFrame
  split
  · exact (hs.ctrlupd hn).frame (by rwa [(seqKept_ctrlupd _ s).cfg])
  · exact hs.frame hn

theorem State.Inv.renderBlock (hs : s.Inv) : (renderBlock s).Inv :=
  (countUp_keeps (P := fun t => t.cfg = s.cfg ∧ t.Inv) _ ⟨blksw_cfg s, hs.blksw⟩ fun n hn t ⟨hcfg, ht⟩ =>
    ⟨(seqKept_renderFrame n t).cfg.trans hcfg, ht.renderFrame (hcfg ▸ hn)⟩).2

/-! ### Every command, and every step -/

theorem State.Inv.exec {i : Instr} (hs : s.Inv) (h : exec i s = .next t) : t.Inv := by
  by_cases hi : i = .render
  · subst hi
    cases h
    exact hs.start.renderBlock.answer []
  · exact hs.of_unitKept (exec_unitKept h hi) (exec_keeps_inUnit h hs.phase)

theorem State.Inv.runCommand {c : Command} (hs : s.Inv) (h : runCommand c s = .next t) : t.Inv := by
  unfold Machine.runCommand at h
  split at h
  · exact hs.exec h
  · cases h
    exact hs.raiseIllegal

/-- Settles O60: each of the host's four actions keeps the invariant. -/
theorem stepKeepsTheInvariant : Obligations.StepKeepsTheInvariant := by
  intro s t hs h
  cases hh : s.host with
  | nil =>
    rw [step_of_idle hh] at h
    cases h
    exact hs
  | cons action rest =>
    have hwf := hs.host
    rw [hh, List.forall_mem_cons] at hwf
    obtain ⟨ha, hrest⟩ := hwf
    cases action with
    | reset cfg =>
      rw [step_of_reset hh] at h
      split at h
      · next hl => cases h; exact hs.applyReset hl hrest
      · cases h
    | command c p =>
      obtain ⟨hain, hcin⟩ := Bool.and_eq_true_iff.mp ha
      obtain ⟨u, hu, hstep⟩ := step_of_command hh
      rw [hstep] at h
      split at h
      · cases h; exact (hs.accept hain hcin hrest).runCommand hu
      · cases h
    | abandoned c p cfg =>
      obtain ⟨hain, hcin⟩ := Bool.and_eq_true_iff.mp ha
      obtain ⟨u, -, hstep⟩ := step_of_abandoned hh
      rw [hstep] at h
      split at h
      · next hl => cases h; exact (hs.accept hain hcin hrest).abandon (Bool.and_eq_true_iff.mp hl).2 u
      · cases h

/-- Settles O59: reset with nothing presented and nothing in `AOUT`. -/
theorem resetMeetsTheInvariant : Obligations.ResetMeetsTheInvariant := by
  have hreset (cfg : Cfg) (hl : cfg.sampled.legal = true) : (State.resetWith cfg).Inv :=
    inv_resetWith hl (rest := []) (fun _ h => nomatch h) (p := ⟨[], [], false⟩) rfl rfl (m := []) rfl 0
  exact ⟨hreset Cfg.reference (by decide), hreset⟩

/-- Settles O43: only LFOTICK and a wired RENDER write the phase, and both wrap it into [0, 1). -/
theorem thePhaseStaysInTheUnitInterval : Obligations.ThePhaseStaysInTheUnitInterval := by
  refine ⟨inUnit_resetWith, fun s t h => ?_, fun i s t h hi hr => ?_, fun i s t => exec_keeps_inUnit⟩
  · cases h
    exact inUnit_lfoTick s.start
  · rcases exec_phase h with hp | ⟨hw | ⟨hw, hwire⟩, _⟩
    · exact hp
    · exact absurd hw hi
    · exact absurd (hr hw) (by simp [hwire])

/-- Settles O11: the reset registers are those of the reference record's reset. -/
theorem resetValuesOfTheRegisters : Obligations.ResetValuesOfTheRegisters := by
  have h := freshFrom_resetWith Cfg.reference
  exact fun i => ⟨h.coeffs i, h.delay i, h.phase, h.rate, h.ind⟩

/-- Settles O9: the record the step meets fails one of the checks of legality. -/
theorem illegalParametersAreRefused : Obligations.IllegalParametersAreRefused := by
  intro s bad rest hbad
  have hl : bad.legal = false := (Cfg.legal_eq_false_iff bad).mpr hbad
  have command {c p} (hc : s.cfg.legal = false) (h : s.host = .command c p :: rest) :
      step s = .refused .illegalParameters := by
    obtain ⟨u, -, hstep⟩ := step_of_command h
    simp [hstep, hc]
  have abandoned {c p cfg} (hc : (s.cfg.legal && cfg.sampled.legal) = false)
      (h : s.host = .abandoned c p cfg :: rest) : step s = .refused .illegalParameters := by
    obtain ⟨u, -, hstep⟩ := step_of_abandoned h
    simp [hstep, hc]
  refine ⟨?_, ?_⟩
  · rintro cfg rfl
    exact ⟨fun h => by simp [step_of_reset h, hl], fun c p => abandoned (by simp [hl])⟩
  · rintro rfl c p
    exact ⟨command hl, fun cfg => abandoned (by simp [hl])⟩

/-- Settles O10: the answer to each action of the host is a next state or hangs on a check of legality. -/
theorem onlyIllegalParametersStopAStep : Obligations.OnlyIllegalParametersStopAStep := by
  intro s
  cases hh : s.host with
  | nil => exact .inl ⟨s, step_of_idle hh⟩
  | cons action rest =>
    cases action with
    | reset cfg =>
      cases hl : cfg.sampled.legal
      · exact .inr ⟨by simp [step_of_reset hh, hl], .inr (.inl ⟨cfg, rest, rfl, hl⟩)⟩
      · exact .inl ⟨_, by rw [step_of_reset hh, hl]; rfl⟩
    | command c p =>
      obtain ⟨u, -, hstep⟩ := step_of_command hh
      cases hl : s.cfg.legal
      · exact .inr ⟨by simp [hstep, hl], .inl ⟨rfl, c, p, rest, rfl⟩⟩
      · exact .inl ⟨u, by simp [hstep, hl]⟩
    | abandoned c p cfg =>
      obtain ⟨u, -, hstep⟩ := step_of_abandoned hh
      cases hl : (s.cfg.legal && cfg.sampled.legal)
      · exact .inr ⟨by rw [hstep, hl]; rfl, .inr (.inr ⟨c, p, cfg, rest, rfl, hl⟩)⟩
      · exact .inl ⟨_, by rw [hstep, hl]; rfl⟩

end Sys2Proof.Machine
end

section
/-! The encoding (30 R61 to R69): what each legal header is made of, and when a command decodes to a given
instruction, from which the statements about the decoder follow. -/

namespace Sys2Proof

namespace Decode

/-! ### The fields of a header -/

theorem toNat_header (b : Bool) (o : BitVec 8) : (header b o).toNat = b.toNat * 2 ^ 8 + o.toNat := by
  cases b <;> revert o <;> decide

/-- A word whose reserved bits are zero is made of its `inst` bit and its opcode. -/
theorem header_fields {h : Word} (hrsv : h >>> 9 = 0#32) : header (h.getLsbD 8) (op h) = h := by
  have hlt : h.toNat >>> 9 = 0 := by simpa using congrArg BitVec.toNat hrsv
  rw [Nat.shiftRight_eq_div_pow] at hlt
  have hop : (op h).toNat = h.toNat % 2 ^ 8 := by simp [op]
  have hinst : (h.getLsbD 8).toNat = h.toNat / 2 ^ 8 % 2 := by
    simp only [BitVec.getLsbD, Nat.testBit_eq_decide_div_mod_eq]
    rcases Nat.mod_two_eq_zero_or_one (h.toNat / 2 ^ 8) with h2 | h2 <;> rw [h2] <;> rfl
  apply BitVec.eq_of_toNat_eq
  rw [toNat_header, hop, hinst]
  omega

theorem header_and_opcodeMask (b : Bool) (o : BitVec 8) : header b o &&& 0xFF#32 = header false o := by
  cases b <;> revert o <;> decide

theorem header_and_maskI (b : Bool) (o : BitVec 8) : header b o &&& 0xFFFFFEFF#32 = header false o := by
  cases b <;> revert o <;> decide

/-- The mask of a format I row covers every reserved bit. -/
theorem rsv_of_and_maskI {h : Word} (hh : (h &&& 0xFFFFFEFF#32) >>> 9 = 0#32) : h >>> 9 = 0#32 := by
  have hlow : (h.toNat >>> 9) &&& (2 ^ 23 - 1) = 0 := by
    simpa [BitVec.ushiftRight_and_distrib] using congrArg BitVec.toNat hh
  have hlt := h.isLt
  rw [Nat.and_two_pow_sub_one_eq_mod, Nat.shiftRight_eq_div_pow] at hlow
  apply BitVec.eq_of_toNat_eq
  rw [BitVec.toNat_ushiftRight, Nat.shiftRight_eq_div_pow, BitVec.toNat_ofNat]
  omega

/-- A header that matches a row of format I is made of its `inst` bit, either one, and the row's opcode. -/
theorem header_of_and_maskI {h : Word} {o : BitVec 8} (hh : h &&& 0xFFFFFEFF#32 = header false o) :
    header (h.getLsbD 8) o = h := by
  have hfields := header_fields (rsv_of_and_maskI (hh ▸ rsv_header false o))
  have hop : op h = o := by
    rw [← hfields, header_and_maskI] at hh
    rw [← op_header false (op h), hh, op_header]
  rwa [hop] at hfields

theorem instBit_inst (h : Word) : instBit (inst h) = h.getLsbD 8 := by
  unfold inst
  cases h.getLsbD 8 <;> rfl

theorem formatU_eq_ok_iff {h : Word} {i j : Instr} : formatU h j = .ok i ↔ h.getLsbD 8 = false ∧ j = i := by
  unfold formatU
  cases h.getLsbD 8 <;> simp

end Decode

open Decode

/-- What is decoded has the header and the operand words it takes from the command (30 R61, R64). -/
theorem encode_of_decode {c : Command} {i : Instr} (h : decode c = .ok i) :
    (encode i).cw0 = c.cw0 ∧ (encode i).operands.take i.operandCount = c.operands.take i.operandCount := by
  unfold decode at h
  split at h
  · cases h
  next hrsv =>
  have hfields := header_fields (not_not.mp hrsv)
  have formatU_row {o : BitVec 8} {j : Instr} (hop : op c.cw0 = o) (hj : formatU c.cw0 j = .ok i) :
      header false o = c.cw0 ∧ j = i := by
    obtain ⟨hinst, hji⟩ := formatU_eq_ok_iff.mp hj
    exact ⟨hinst ▸ hop ▸ hfields, hji⟩
  have formatI_row {o : BitVec 8} (hop : op c.cw0 = o) : header (instBit (inst c.cw0)) o = c.cw0 := by
    rwa [instBit_inst, ← hop]
  iterate 5
    split at h
    · next hop => obtain ⟨h0, rfl⟩ := formatU_row hop h; exact ⟨h0, rfl⟩
  iterate 2
    split at h
    · next hop => cases h; exact ⟨formatI_row hop, rfl⟩
  iterate 3
    split at h
    · next hop => obtain ⟨h0, rfl⟩ := formatU_row hop h; exact ⟨h0, rfl⟩
  cases h

/-- The header and the operand words an instruction takes are all that its decoding looks at (30 R61, R64). -/
theorem decode_of_encode {c : Command} {i : Instr} (h0 : (encode i).cw0 = c.cw0)
    (hops : (encode i).operands.take i.operandCount = c.operands.take i.operandCount) : decode c = .ok i := by
  obtain ⟨w0, w1, w2, w3, w4, w5⟩ := c
  cases h0
  cases i <;> simp [encode, Command.operands, Instr.operandCount] at hops <;>
    simp [decode, encode, op_header, rsv_header, formatU_header, hops]

/-- Settles O1: the header and operand words of `encode i` are its own. -/
theorem decodeOfEncode : Obligations.DecodeOfEncode := fun _ => decode_of_encode rfl rfl

/-- Settles O5: the operand words beyond those `i` takes stand nowhere in the condition. -/
theorem unusedOperandWordsAreIgnored : Obligations.UnusedOperandWordsAreIgnored := by
  intro c c' i h
  obtain ⟨h0, hops⟩ := encode_of_decode h
  exact ⟨⟨h0, hops⟩, fun h0' hops' => decode_of_encode (h0.trans h0'.symm) (hops.trans hops'.symm)⟩

/-! ### Rows of the table, well-formed commands and commands that decode -/

/-- A header that matches a row decodes to the row's command. -/
theorem decode_of_hits (c : Command) : ∀ r ∈ opcodeTable, r.hits c.cw0 = true →
    ∃ i, decode c = .ok i ∧ i.mnemonic = r.mnemonic := by
  have formatU_row {h p : Word} (hh : h &&& 0xFFFFFFFF#32 == p) : p = h := by
    rw [← beq_iff_eq.mp hh]
    exact BitVec.and_allOnes
  have formatI_row {h p : Word} {o : BitVec 8} (hp : p = header false o) (hh : h &&& 0xFFFFFEFF#32 == p) :
      header (instBit (inst h)) o = h := by
    rw [instBit_inst]; exact header_of_and_maskI ((beq_iff_eq.mp hh).trans hp)
  simp only [opcodeTable, List.forall_mem_cons]
  refine ⟨fun h => ⟨.maplin .., decode_of_encode (formatU_row h) rfl, rfl⟩,
    fun h => ⟨.nn2hz .., decode_of_encode (formatU_row h) rfl, rfl⟩,
    fun h => ⟨.lpfreq .., decode_of_encode (formatU_row h) rfl, rfl⟩,
    fun h => ⟨.chp .., decode_of_encode (formatU_row h) rfl, rfl⟩,
    fun h => ⟨.clp .., decode_of_encode (formatU_row h) rfl, rfl⟩,
    fun h => ⟨.bqset .., decode_of_encode (formatI_row rfl h) rfl, rfl⟩,
    fun h => ⟨.bqtick .., decode_of_encode (formatI_row rfl h) rfl, rfl⟩,
    fun h => ⟨.lforate .., decode_of_encode (formatU_row h) rfl, rfl⟩,
    fun h => ⟨.lfotick, decode_of_encode (formatU_row h) rfl, rfl⟩,
    fun h => ⟨.render, decode_of_encode (formatU_row h) rfl, rfl⟩, fun _ h => nomatch h⟩

/-- A row's pattern matches the row itself. -/
theorem pattern_and_mask : ∀ r ∈ opcodeTable, r.pattern &&& r.mask = r.pattern := by decide

/-- The rows of format I leave the `inst` bit open. -/
theorem mask_of_formatI : ∀ r ∈ opcodeTable, r.pattern = 0x30#32 ∨ r.pattern = 0x31#32 → r.mask = 0xFFFFFEFF#32 := by
  decide

theorem reservedZero_iff (c : Command) : c.reservedZero = true ↔ c.cw0 >>> 9 = 0#32 := beq_iff_eq

theorem opcodeAssigned_iff (c : Command) :
    c.opcodeAssigned = true ↔ c.cw0 &&& 0xFF#32 ∈ opcodeTable.map OpcodeRow.pattern := by
  simp [Command.opcodeAssigned]

theorem instAllowed_iff (c : Command) : c.instAllowed = true ↔
    c.cw0.getLsbD 8 = false ∨ c.cw0 &&& 0xFF#32 = 0x30#32 ∨ c.cw0 &&& 0xFF#32 = 0x31#32 := by
  simp only [Command.instAllowed, Bool.or_eq_true, Bool.not_eq_true', beq_iff_eq, or_assoc]

theorem wellFormed_iff (c : Command) : c.wellFormed = true ↔ c.cw0 >>> 9 = 0#32
    ∧ c.cw0 &&& 0xFF#32 ∈ opcodeTable.map OpcodeRow.pattern
    ∧ (c.cw0.getLsbD 8 = false ∨ c.cw0 &&& 0xFF#32 = 0x30#32 ∨ c.cw0 &&& 0xFF#32 = 0x31#32) := by
  rw [Command.wellFormed, Bool.and_eq_true, Bool.and_eq_true, reservedZero_iff, opcodeAssigned_iff, instAllowed_iff, and_assoc]

/-- A well-formed header matches the row of its opcode byte. -/
theorem hits_of_wellFormed {c : Command} (hc : c.wellFormed = true) : ∃ r ∈ opcodeTable, r.hits c.cw0 = true := by
  obtain ⟨hrsv, hassigned, hinst⟩ := (wellFormed_iff c).mp hc
  obtain ⟨r, hr, hpattern⟩ := List.mem_map.mp hassigned
  have hfields := header_fields hrsv
  have hlow : r.pattern = header false (op c.cw0) := by rw [hpattern, ← hfields, header_and_opcodeMask, op_header]
  refine ⟨r, hr, beq_iff_eq.mpr ?_⟩
  rcases hinst with hinst | hformatI
  · rw [hinst, ← hlow] at hfields
    rw [← hfields]
    exact pattern_and_mask r hr
  · rw [mask_of_formatI r hr (hpattern ▸ hformatI), ← hfields, header_and_maskI, hlow]

/-- The checks of `wellFormed` look at the header alone. -/
theorem wellFormed_congr {c c' : Command} (h : c.cw0 = c'.cw0) : c.wellFormed = c'.wellFormed := by
  simp only [Command.wellFormed, Command.reservedZero, Command.opcodeAssigned, Command.instAllowed, h]

theorem wellFormed_encode (i : Instr) : (encode i).wellFormed = true := by
  cases i with
  | maplin => exact Laws.WellFormedEncoding.maplin ..
  | nn2hz => exact Laws.WellFormedEncoding.nn2hz _
  | lpfreq => exact Laws.WellFormedEncoding.lpfreq ..
  | chp => exact Laws.WellFormedEncoding.chp ..
  | clp => exact Laws.WellFormedEncoding.clp ..
  | bqset => exact Laws.WellFormedEncoding.bqset ..
  | bqtick => exact Laws.WellFormedEncoding.bqtick ..
  | lforate => exact Laws.WellFormedEncoding.lforate _
  | lfotick => exact Laws.WellFormedEncoding.lfotick
  | render => exact Laws.WellFormedEncoding.render

theorem wellFormed_of_decode {c : Command} {i : Instr} (h : decode c = .ok i) : c.wellFormed = true :=
  wellFormed_congr (encode_of_decode h).1 ▸ wellFormed_encode i

theorem exists_decode_error_iff (c : Command) : (∃ e, decode c = .error e) ↔ c.wellFormed = false := by
  cases h : decode c with
  | ok i => simp [wellFormed_of_decode h]
  | error e =>
    refine iff_of_true ⟨e, rfl⟩ (Bool.eq_false_iff.mpr fun hc => ?_)
    obtain ⟨r, hr, hhits⟩ := hits_of_wellFormed hc
    obtain ⟨i, hi, -⟩ := decode_of_hits c r hr hhits
    cases h.symm.trans hi

/-- The three kinds of 30 R69 are the failures of the three checks. -/
theorem wellFormed_eq_false_iff (c : Command) : c.wellFormed = false ↔ c.cw0 >>> 9 ≠ 0#32
    ∨ c.cw0 &&& 0xFF#32 ∉ opcodeTable.map OpcodeRow.pattern
    ∨ (c.cw0.getLsbD 8 = true ∧ c.cw0 &&& 0xFF#32 ≠ 0x30#32 ∧ c.cw0 &&& 0xFF#32 ≠ 0x31#32) := by
  rw [← Bool.not_eq_true, wellFormed_iff, not_and_or, not_and_or, not_or, not_or, Bool.not_eq_false]

/-- Settles O4: the commands that are not well formed are those of the three kinds, and those the decoder refuses. -/
theorem illegalHeadersAreTheThreeKinds : Obligations.IllegalHeadersAreTheThreeKinds := fun c =>
  ⟨(exists_decode_error_iff c).trans (wellFormed_eq_false_iff c), exists_decode_error_iff c⟩

/-- The instance of a decoded biquad command is the `inst` bit of its header. -/
theorem inst_eq_lp_iff {c : Command} {i : Instr} {j : Inst} {o : BitVec 8} (h : decode c = .ok i)
    (hi : (encode i).cw0 = header (instBit j) o) : j = .lp ↔ c.cw0.getLsbD 8 = true := by
  rw [← (encode_of_decode h).1, hi, inst_header]
  cases j <;> decide

theorem mnemonic_injOn_opcodeTable : ∀ r ∈ opcodeTable, ∀ r' ∈ opcodeTable, r.mnemonic = r'.mnemonic → r = r' := by
  decide

/-- Settles O3: a command that decodes is well formed, so its header matches a row, and a row fixes what it decodes to. -/
theorem decodingFollowsTheTable : Obligations.DecodingFollowsTheTable := by
  intro c
  refine ⟨fun i hi => ?_, decode_of_hits c, fun j b0 b1 b2 a1 a2 h => inst_eq_lp_iff h rfl, fun j x h => inst_eq_lp_iff h rfl,
    fun hrsv => ?_, fun r hr r' hr' hhits hhits' => ?_⟩
  · obtain ⟨r, hr, hhits⟩ := hits_of_wellFormed (wellFormed_of_decode hi)
    obtain ⟨i', hi', hmn⟩ := decode_of_hits c r hr hhits
    cases hi.symm.trans hi'
    exact ⟨r, hr, hhits, hmn.symm⟩
  · exact (exists_decode_error_iff c).mpr ((wellFormed_eq_false_iff c).mpr (.inl hrsv))
  · obtain ⟨i, hi, hmn⟩ := decode_of_hits c r hr hhits
    obtain ⟨i', hi', hmn'⟩ := decode_of_hits c r' hr' hhits'
    cases hi.symm.trans hi'
    exact mnemonic_injOn_opcodeTable r hr r' hr' (hmn.symm.trans hmn')

/-- Settles O2: the decoder run on the ten commands. -/
theorem specCommandWordsDecode : Obligations.SpecCommandWordsDecode := by
  unfold Obligations.SpecCommandWordsDecode
  decide

/-- Settles O6: the answer to a presented command is the answer of what it decodes to. -/
theorem Machine.stepExecutesTheDecodedCommand : Obligations.StepExecutesTheDecodedCommand := by
  intro s c p rest i hlegal hhost hi
  obtain ⟨t, ht, hstep⟩ := step_of_command hhost
  rw [hstep, if_pos hlegal, ← ht, runCommand, hi]
  rfl

end Sys2Proof
end

section
/-! The order of the words and rounding (00 R8): the bits of two finite words of one parity leave a word between them, so correct
rounding fixes the number, and it keeps the order of what it rounds, beyond the overflow bound too. -/

namespace Sys2Proof.Binary32

/-! ### The order of the words -/

theorem natAbs_order (w : Word) : (order w).natAbs = w.toNat % 2 ^ 31 := by
  unfold order
  split <;> omega

theorem order_pack (neg : Bool) {m : Nat} (h : m < 2 ^ 31) : order (pack neg m) = if neg then -(m : ℤ) else m := by
  have hbits : (pack neg m).toNat % 2 ^ 31 = m := by rw [pack_toNat neg h]; split <;> omega
  rw [order, signBit_pack neg h, hbits]

theorem isFinite_iff_order (w : Word) : isFinite w = true ↔ (order w).natAbs < infBits := by
  rw [natAbs_order, isFinite, bne_iff_ne, expo_eq, infBits]
  omega

theorem isNaN_eq_false_iff_order (w : Word) : isNaN w = false ↔ (order w).natAbs ≤ infBits := by
  simp only [natAbs_order, isNaN, expo_eq, frac_eq, infBits, Bool.and_eq_false_iff, beq_eq_false_iff_ne, bne_eq_false_iff_eq]
  omega

theorem exists_word_of_order {n : ℤ} (h : n.natAbs < infBits) : ∃ v, isFinite v = true ∧ order v = n := by
  refine ⟨pack (decide (n < 0)) n.natAbs, isFinite_pack _ h, ?_⟩
  rw [order_pack _ (h.trans (by norm_num))]
  simp only [decide_eq_true_eq]
  split <;> omega

theorem order_emod_two (w : Word) : order w % 2 = frac w % 2 := by
  rw [order, frac]
  split <;> omega

theorem order_eq_iff (a b : Word) : order a = order b ↔ toRat a = toRat b := by
  simp only [le_antisymm_iff, ← not_lt, order_lt_iff]

/-- A number and a sign bit make one word. -/
theorem eq_of_toRat_eq {a b : Word} (h : toRat a = toRat b) (hs : signBit a = signBit b) : a = b := by
  have hbits : a.toNat % 2 ^ 31 = b.toNat % 2 ^ 31 := by
    rw [← natAbs_order, ← natAbs_order, (order_eq_iff a b).mpr h]
  rw [← pack_eta a, hs, hbits, pack_eta]

theorem le_iff_order {a b : Word} : le a b = true ↔ isNaN a = false ∧ isNaN b = false ∧ order a ≤ order b := by
  simp [le, and_assoc]

theorem lt_iff_order {a b : Word} : lt a b = true ↔ isNaN a = false ∧ isNaN b = false ∧ order a < order b := by
  simp [lt, and_assoc]

theorem wordLe_refl {a : Word} (h : isNaN a = false) : le a a = true := le_iff_order.mpr ⟨h, h, le_rfl⟩

theorem wordLe_of_lt {a b : Word} (h : lt a b = true) : le a b = true := by
  obtain ⟨ha, hb, hab⟩ := lt_iff_order.mp h
  exact le_iff_order.mpr ⟨ha, hb, hab.le⟩

theorem wordLe_trans {a b c : Word} (h : le a b = true) (h' : le b c = true) : le a c = true := by
  obtain ⟨ha, -, hab⟩ := le_iff_order.mp h
  obtain ⟨-, hc, hbc⟩ := le_iff_order.mp h'
  exact le_iff_order.mpr ⟨ha, hc, hab.trans hbc⟩

/-- Between two finite words every word is finite. -/
theorem isFinite_of_between {a b w : Word} (ha : isFinite a = true) (hb : isFinite b = true) (h : le a w = true)
    (h' : le w b = true) : isFinite w = true := by
  obtain ⟨-, -, haw⟩ := le_iff_order.mp h
  obtain ⟨-, -, hwb⟩ := le_iff_order.mp h'
  rw [isFinite_iff_order] at *
  omega

/-! ### Rounding fixes the number and keeps the order -/

section
variable {q q' : ℚ} {w w' : Word}

theorem RoundsTo.of_abs_lt (h : RoundsTo q w) (hq : |q| < overflowBound) : isFinite w = true
    ∧ (∀ v, isFinite v = true → |toRat w - q| ≤ |toRat v - q|)
    ∧ (∀ v, isFinite v = true → |toRat v - q| = |toRat w - q| → toRat v ≠ toRat w → frac w % 2 = 0) := by
  rwa [RoundsTo, if_pos hq] at h

theorem RoundsTo.of_overflow (h : RoundsTo q w) (hq : ¬|q| < overflowBound) : w = inf (decide (q < 0)) := by
  rwa [RoundsTo, if_neg hq] at h

/-- Of two words as near, both even on the tie, neither is above the other: a word stands between even ones, and it is nearer. -/
theorem RoundsTo.toRat_not_lt (h : RoundsTo q w) (h' : RoundsTo q w') (hq : |q| < overflowBound) : ¬toRat w < toRat w' := by
  intro hlt
  obtain ⟨hw, hnear, htie⟩ := h.of_abs_lt hq
  obtain ⟨hw', hnear', htie'⟩ := h'.of_abs_lt hq
  have hdist : |toRat w' - q| = |toRat w - q| := le_antisymm (hnear' w hw) (hnear w' hw')
  have heven := htie w' hw' hdist hlt.ne'
  have heven' := htie' w hw hdist.symm hlt.ne
  have horder := (order_lt_iff w w').mpr hlt
  have hparity := order_emod_two w
  have hparity' := order_emod_two w'
  rw [isFinite_iff_order] at hw hw'
  obtain ⟨v, hv, hvo⟩ := exists_word_of_order (n := order w + 1) (by omega)
  have hwv : toRat w < toRat v := (order_lt_iff w v).mp (by omega)
  have hvw' : toRat v < toRat w' := (order_lt_iff v w').mp (by omega)
  have hmid : toRat w' - q = -(toRat w - q) := (abs_eq_abs.mp hdist).resolve_left fun hc => by linarith
  refine absurd (hnear v hv) (not_le.mpr ?_)
  rw [abs_of_neg (by linarith : toRat w - q < 0)]
  exact abs_lt.mpr ⟨by linarith, by linarith⟩

theorem RoundsTo.not_isNaN (h : RoundsTo q w) : isNaN w = false := by
  by_cases hq : |q| < overflowBound
  · exact isNaN_of_isFinite (h.of_abs_lt hq).1
  · rw [h.of_overflow hq]
    cases decide (q < 0) <;> decide

theorem negInf_le (h : isNaN w = false) : le (inf true) w = true := by
  have horder : order (inf true) = -(infBits : ℤ) := by decide
  have hbound := (isNaN_eq_false_iff_order w).mp h
  exact le_iff_order.mpr ⟨by decide, h, by omega⟩

theorem le_posInf (h : isNaN w = false) : le w (inf false) = true := by
  have horder : order (inf false) = (infBits : ℤ) := by decide
  have hbound := (isNaN_eq_false_iff_order w).mp h
  exact le_iff_order.mpr ⟨h, by decide, by omega⟩

/-- Within the overflow bound rounding keeps the order: a word above its number's is nearer to the lower number only. -/
theorem RoundsTo.toRat_le (h : RoundsTo q w) (h' : RoundsTo q' w') (hqq' : q ≤ q') (hq : |q| < overflowBound)
    (hq' : |q'| < overflowBound) : toRat w ≤ toRat w' := by
  rcases hqq'.eq_or_lt with rfl | hlt
  · exact not_lt.mp (h'.toRat_not_lt h hq)
  obtain ⟨hw, hnear, -⟩ := h.of_abs_lt hq
  obtain ⟨hw', hnear', -⟩ := h'.of_abs_lt hq'
  by_contra! hc
  have hsq := sq_le_sq.mpr (hnear w' hw')
  have hsq' := sq_le_sq.mpr (hnear' w hw)
  nlinarith

/-- Rounding keeps the order, infinities among the results. -/
theorem RoundsTo.le (h : RoundsTo q w) (h' : RoundsTo q' w') (hqq' : q ≤ q') : le w w' = true := by
  have hpos : (0 : ℚ) < overflowBound := by norm_num [overflowBound]
  rcases le_or_gt q (-overflowBound) with hlow | hlow
  · rw [h.of_overflow (not_lt.mpr (le_abs.mpr (.inr (by linarith)))), decide_eq_true (by linarith : q < 0)]
    exact negInf_le h'.not_isNaN
  rcases le_or_gt overflowBound q' with hhigh | hhigh
  · rw [h'.of_overflow (not_lt.mpr (le_abs.mpr (.inl hhigh))), decide_eq_false (by linarith : ¬q' < 0)]
    exact le_posInf h.not_isNaN
  have hq : |q| < overflowBound := abs_lt.mpr ⟨hlow, by linarith⟩
  have hq' : |q'| < overflowBound := abs_lt.mpr ⟨by linarith, hhigh⟩
  exact (le_iff (h.of_abs_lt hq).1 (h'.of_abs_lt hq').1).mpr (h.toRat_le h' hqq' hq hq')

/-- A correctly rounded word is as near as the model's own rounding of the number: within its 2^-24th part. -/
theorem RoundsTo.error_of_normal (h : RoundsTo q w) (hlow : 1 / 2 ^ 126 ≤ q) (hhigh : q < overflowBound) :
    isFinite w = true ∧ |toRat w - q| ≤ q / 2 ^ 24 := by
  have hq : |q| < overflowBound := by rwa [abs_of_pos (lt_of_lt_of_le (by positivity) hlow)]
  obtain ⟨hfin, hnear, -⟩ := h.of_abs_lt hq
  obtain ⟨hofRat, herr⟩ := ofRat_error_of_normal hlow hhigh
  exact ⟨hfin, (hnear _ hofRat).trans herr⟩

end

/-! ### NaN operands -/

@[simp] theorem isNaN_neg (w : Word) : isNaN (neg w) = isNaN w := by simp [isNaN]

theorem lt_of_isNaN_left {a : Word} (h : isNaN a = true) (b : Word) : lt a b = false := by
  simp [lt, h]

section
variable {a b : Word} (h : isNaN a = true ∨ isNaN b = true)
include h

theorem isNaN_add : isNaN (add a b) = true := by
  rw [add, if_pos (by simpa using h)]
  decide

theorem isNaN_sub : isNaN (sub a b) = true := isNaN_add (by rwa [isNaN_neg])

theorem isNaN_mul : isNaN (mul a b) = true := by
  rw [mul, if_pos (by simpa using h)]
  decide

theorem isNaN_div : isNaN (div a b) = true := by
  rw [div, if_pos (by simpa using h)]
  decide

end

end Sys2Proof.Binary32
end

section
/-! Results that rounding leaves alone, and operations that rise with an operand (00 R8). -/

namespace Sys2Proof.Binary32

/-! ### Results that rounding leaves alone -/

section
variable {a b z : Word}

theorem sub_self_value (ha : isFinite a = true) : isFinite (sub a a) = true ∧ toRat (sub a a) = 0 := by
  have h := sub_roundsTo ha ha
  rw [sub_self, ← toRat_posZero] at h
  simpa only [toRat_posZero] using h.value_of_word (by decide)

theorem div_zero_value (hz : isFinite z = true) (hz0 : toRat z = 0) (ha : isFinite a = true) (ha0 : toRat a ≠ 0) :
    isFinite (div z a) = true ∧ toRat (div z a) = 0 := by
  have h := div_roundsTo hz ha (by simpa [toRat_eq_zero_iff] using ha0)
  rw [hz0, zero_div, ← hz0] at h
  simpa only [hz0] using h.value_of_word hz

theorem mul_zero_value (hz : isFinite z = true) (hz0 : toRat z = 0) (ha : isFinite a = true) :
    isFinite (mul z a) = true ∧ toRat (mul z a) = 0 := by
  have h := mul_roundsTo hz ha
  rw [hz0, zero_mul, ← hz0] at h
  simpa only [hz0] using h.value_of_word hz

theorem add_zero_value (ha : isFinite a = true) (hz : isFinite z = true) (hz0 : toRat z = 0) :
    isFinite (add a z) = true ∧ toRat (add a z) = toRat a := by
  have h := add_roundsTo ha hz
  rw [hz0, add_zero] at h
  exact h.value_of_word ha

theorem div_self_eq_one (ha : isFinite a = true) (ha0 : toRat a ≠ 0) : div a a = one := by
  have hzero : isZero a = false := by simpa [toRat_eq_zero_iff] using ha0
  have h := div_roundsTo ha ha hzero
  rw [div_self ha0, ← toRat_one] at h
  refine eq_of_toRat_eq (h.value_of_word isFinite_one).2 ?_
  rw [signBit_div ha ha hzero, bne_self_eq_false]
  decide

theorem one_mul_eq (ha : isFinite a = true) : mul one a = a := by
  have h := mul_roundsTo isFinite_one ha
  rw [toRat_one, one_mul] at h
  refine eq_of_toRat_eq (h.value_of_word ha).2 ?_
  rw [signBit_mul isFinite_one ha, show signBit one = false by decide, Bool.false_bne]

/-- Distinct numbers are at least one unit apart. -/
theorem one_unit_le_abs_sub (hab : toRat a ≠ toRat b) : 1 / 2 ^ 149 ≤ |toRat a - toRat b| := by
  have hunits : units a - units b ≠ 0 := fun h => hab (by rw [toRat, toRat, sub_eq_zero.mp h])
  rw [toRat, toRat, ← sub_div, abs_div, abs_of_pos (by positivity : (0 : ℚ) < 2 ^ 149)]
  gcongr
  exact_mod_cast Int.one_le_abs hunits

theorem roundsTo_self (ha : isFinite a = true) : RoundsTo (toRat a) a := by
  rw [RoundsTo, if_pos (abs_toRat_lt ha)]
  exact ⟨ha, fun _ _ => by simp, fun _ _ h hne => absurd (by simpa [sub_eq_zero] using h) hne⟩

/-- Subnormals are kept, so a difference of distinct numbers rounds to no less than one unit, and not to zero. -/
theorem toRat_sub_ne_zero (ha : isFinite a = true) (hb : isFinite b = true) (hab : toRat a ≠ toRat b) :
    toRat (sub a b) ≠ 0 := by
  intro h0
  have hunit : toRat 0x00000001#32 = 1 / 2 ^ 149 := by decide +kernel
  have hgap := one_unit_le_abs_sub hab
  have hzero : order (sub a b) = 0 := (order_eq_iff _ posZero).mpr (h0.trans toRat_posZero.symm)
  rcases lt_or_gt_of_ne hab with h | h
  · rw [abs_of_neg (sub_neg.mpr h), ← hunit, le_neg, ← toRat_neg] at hgap
    obtain ⟨-, -, hle⟩ := le_iff_order.mp ((sub_roundsTo ha hb).le (roundsTo_self (by decide)) hgap)
    exact absurd (hzero ▸ hle) (by decide)
  · rw [abs_of_pos (sub_pos.mpr h), ← hunit] at hgap
    obtain ⟨-, -, hle⟩ := le_iff_order.mp ((roundsTo_self (by decide)).le (sub_roundsTo ha hb) hgap)
    exact absurd (hzero ▸ hle) (by decide)

end

theorem toRat_sub_nonneg {a b : Word} (ha : isFinite a = true) (hb : isFinite b = true) (hab : toRat b ≤ toRat a)
    (hsub : isFinite (sub a b) = true) : 0 ≤ toRat (sub a b) := by
  have h := (pack_zero_roundsTo false).le (sub_roundsTo ha hb) (sub_nonneg.mpr hab)
  rw [pack_false_zero, le_iff (by decide) hsub, toRat_posZero] at h
  exact h

/-! ### Operations that rise with an operand -/

/-- `f` keeps the order of the words from `a` to `b`. -/
def RisesOn (f : Word → Word) (a b : Word) : Prop :=
  ∀ w w', le a w = true → le w w' = true → le w' b = true → le (f w) (f w') = true

section
variable {f g : Word → Word} {a b c : Word}

theorem RisesOn.comp (hg : RisesOn g (f a) (f b)) (hf : RisesOn f a b) (ha : isFinite a = true) (hb : isFinite b = true) :
    RisesOn (fun w => g (f w)) a b := by
  intro w w' haw hww' hwb
  exact hg _ _ (hf a w (wordLe_refl (isNaN_of_isFinite ha)) haw (wordLe_trans hww' hwb)) (hf w w' haw hww' hwb)
    (hf w' b (wordLe_trans haw hww') hwb (wordLe_refl (isNaN_of_isFinite hb)))

/-- An increasing function, rounded, keeps the order. -/
theorem risesOn_of_roundsTo {q : ℚ → ℚ} (hq : Monotone q) (hf : ∀ w, isFinite w = true → RoundsTo (q (toRat w)) (f w))
    (ha : isFinite a = true) (hb : isFinite b = true) : RisesOn f a b := by
  intro w w' haw hww' hwb
  have hw := isFinite_of_between ha hb haw (wordLe_trans hww' hwb)
  have hw' := isFinite_of_between ha hb (wordLe_trans haw hww') hwb
  exact (hf w hw).le (hf w' hw') (hq ((le_iff hw hw').mp hww'))

variable (ha : isFinite a = true) (hb : isFinite b = true) (hc : isFinite c = true)
include ha hb hc

theorem risesOn_sub : RisesOn (fun w => sub w c) a b :=
  risesOn_of_roundsTo (q := fun x => x - toRat c) (fun _ _ h => sub_le_sub_right h _) (fun _ hw => sub_roundsTo hw hc) ha hb

theorem risesOn_div (hpos : 0 < toRat c) : RisesOn (fun w => div w c) a b :=
  risesOn_of_roundsTo (q := fun x => x / toRat c) (fun _ _ h => div_le_div_of_nonneg_right h hpos.le)
    (fun _ hw => div_roundsTo hw hc (by simpa [toRat_eq_zero_iff] using hpos.ne')) ha hb

theorem risesOn_mul (hnonneg : 0 ≤ toRat c) : RisesOn (fun w => mul w c) a b :=
  risesOn_of_roundsTo (q := fun x => x * toRat c) (fun _ _ h => mul_le_mul_of_nonneg_right h hnonneg)
    (fun _ hw => mul_roundsTo hw hc) ha hb

theorem risesOn_add : RisesOn (fun w => add c w) a b :=
  risesOn_of_roundsTo (q := fun x => toRat c + x) (fun _ _ h => add_le_add_right h _) (fun _ hw => add_roundsTo hc hw) ha hb

end

end Sys2Proof.Binary32
end

section
/-! parameter_mapper (spec 40): the three commands' answers said once, the affine map at the two ends of the raw range and between
them, and the pitch and the clamped sum. -/

namespace Sys2Proof.Machine

open Binary32

/-! ### What the three commands answer -/

/-- The command answers the one word `w`, status `OK`, and leaves the rest alone (40 R80). -/
def AnswersWord (i : Instr) (s : State) (w : Word) : Prop :=
  ∃ t, exec i s = .next t ∧ t.response = some (okResponse w 0#32 0#32 0#32 0#32) ∧ Untouched s t

section
variable (s : State)

theorem maplin_answers (raw rawMin rawMax outMin outMax : Word) : AnswersWord (.maplin raw rawMin rawMax outMin outMax) s
    (settle s.draws (Mapper.mapLinearWord s.cfg.num raw rawMin rawMax outMin outMax)) :=
  ⟨_, rfl, rfl, ⟨rfl, rfl, rfl, rfl, rfl, rfl, rfl, rfl, rfl, rfl⟩⟩

theorem nn2hz_answers (nn : Word) : AnswersWord (.nn2hz nn) s (settle s.draws (Mapper.noteToHzWord s.cfg nn)) :=
  ⟨_, rfl, rfl, ⟨rfl, rfl, rfl, rfl, rfl, rfl, rfl, rfl, rfl, rfl⟩⟩

theorem lpfreq_answers (baseHz widthHz : Word) : AnswersWord (.lpfreq baseHz widthHz) s (Mapper.lpFreqWord s.cfg baseHz widthHz) :=
  ⟨_, rfl, rfl, ⟨rfl, rfl, rfl, rfl, rfl, rfl, rfl, rfl, rfl, rfl⟩⟩

end

theorem r0_of_response {t : State} {r0 r1 r2 r3 r4 : Word} (h : t.response = some (okResponse r0 r1 r2 r3 r4)) : t.r0 = r0 := by
  rw [State.r0, h]; rfl

theorem coeffs_of_response {t : State} {r0 r1 r2 r3 r4 : Word} (h : t.response = some (okResponse r0 r1 r2 r3 r4)) :
    t.coeffs = ⟨r0, r1, r2, r3, r4⟩ := by
  rw [State.coeffs, h]; rfl

/-- The first result word of a command that answers one. -/
theorem AnswersWord.r0 {i : Instr} {s : State} {w : Word} (h : AnswersWord i s w) : ∃ t, exec i s = .next t ∧ t.r0 = w := by
  obtain ⟨t, hexec, hresponse, -⟩ := h
  exact ⟨t, hexec, r0_of_response hresponse⟩

theorem agree_settle_settle (m n : Nat) (w : Word) : agree (settle m w) (settle n w) :=
  agree_trans (agree_settle m w) (agree_symm (agree_settle n w))

/-- Settles O27: both states' answers are one formula's word of operands and parameters, settled. -/
theorem mapperCommandsArePure : Obligations.MapperCommandsArePure := by
  intro i hi s s' hcfg
  have agreeing {w w' : Word} (h : AnswersWord i s w) (h' : AnswersWord i s' w') (hww' : agree w w') : ∃ t t', exec i s = .next t
      ∧ exec i s' = .next t' ∧ Untouched s t ∧ Untouched s' t' ∧ CoeffsAgree t.coeffs t'.coeffs := by
    obtain ⟨t, hexec, hresponse, hkept⟩ := h
    obtain ⟨t', hexec', hresponse', hkept'⟩ := h'
    refine ⟨t, t', hexec, hexec', hkept, hkept', ?_⟩
    rw [coeffs_of_response hresponse, coeffs_of_response hresponse']
    exact ⟨hww', agree_refl _, agree_refl _, agree_refl _, agree_refl _⟩
  cases i with
  | maplin raw rawMin rawMax outMin outMax =>
    exact agreeing (maplin_answers s ..) (maplin_answers s' ..) (hcfg ▸ agree_settle_settle ..)
  | nn2hz nn => exact agreeing (nn2hz_answers s nn) (nn2hz_answers s' nn) (hcfg ▸ agree_settle_settle ..)
  | lpfreq baseHz widthHz => exact agreeing (lpfreq_answers s ..) (lpfreq_answers s' ..) (hcfg ▸ agree_refl _)
  | _ => exact absurd hi (by simp [Instr.mnemonic])

/-! ### MAPLIN: the affine map -/

/-- `MAPLIN`'s formula on words, in the rule's order of operations (40 R81). -/
theorem mapLinear_binary32 (eps : ℚ) (raw rawMin rawMax outMin outMax : Word) :
    Mapper.mapLinear (Num.binary32 eps) raw rawMin rawMax outMin outMax
      = add outMin (mul (div (sub raw rawMin) (sub rawMax rawMin)) (sub outMax outMin)) := rfl

theorem saneBounds_of_ne {rawMin rawMax : Word} (h : isFinite rawMin = true) (h' : isFinite rawMax = true)
    (hne : toRat rawMin ≠ toRat rawMax) : Mapper.saneBounds rawMin rawMax = true := by
  simp [Mapper.saneBounds, h, h', order_eq_iff, hne]

theorem mapLinearWord_of_sane {rawMin rawMax : Word} (h : Mapper.saneBounds rawMin rawMax = true) (N : Num Word)
    (raw outMin outMax : Word) :
    Mapper.mapLinearWord N raw rawMin rawMax outMin outMax = Mapper.mapLinear N raw rawMin rawMax outMin outMax := by
  simp [Mapper.mapLinearWord, h]

/-- A NaN among the operands goes through the formula (40 R82 (e)). -/
theorem isNaN_mapLinearWord (eps : ℚ) {raw rawMin rawMax outMin outMax : Word}
    (h : ∃ w ∈ [raw, rawMin, rawMax, outMin, outMax], isNaN w = true) :
    isNaN (Mapper.mapLinearWord (Num.binary32 eps) raw rawMin rawMax outMin outMax) = true := by
  rw [Mapper.mapLinearWord, if_pos (by rw [List.any_eq_true.mpr h, Bool.or_true]), mapLinear_binary32]
  simp only [List.mem_cons, List.not_mem_nil, or_false, exists_eq_or_imp, exists_eq_left] at h
  rcases h with h | h | h | h | h
  · exact isNaN_add (.inr (isNaN_mul (.inl (isNaN_div (.inl (isNaN_sub (.inl h)))))))
  · exact isNaN_add (.inr (isNaN_mul (.inl (isNaN_div (.inl (isNaN_sub (.inr h)))))))
  · exact isNaN_add (.inr (isNaN_mul (.inl (isNaN_div (.inr (isNaN_sub (.inl h)))))))
  · exact isNaN_add (.inl h)
  · exact isNaN_add (.inr (isNaN_mul (.inr (isNaN_sub (.inl h)))))

/-- `MAPLIN`'s formula over the reals (40 R81). -/
theorem mapLinear_real (raw rawMin rawMax outMin outMax : ℝ) : Mapper.mapLinear Num.real raw rawMin rawMax outMin outMax
    = outMin + (raw - rawMin) / (rawMax - rawMin) * (outMax - outMin) := rfl

/-- Settles O19: the answer is the formula's word, settled, and a NaN goes through each operation of the formula. -/
theorem maplinReturnsTheAffineMap : Obligations.MaplinReturnsTheAffineMap := by
  refine ⟨fun raw rawMin rawMax outMin outMax s => ⟨decode_of_encode (i := .maplin ..) rfl rfl, ?_⟩, fun _ _ _ _ _ => ?_⟩
  · obtain ⟨t, hexec, hresponse, hkept⟩ := maplin_answers s raw rawMin rawMax outMin outMax
    refine ⟨t, _, hexec, hresponse, hkept, fun hmin hmax hne => ?_, fun hnan => ?_⟩
    · rw [mapLinearWord_of_sane (saneBounds_of_ne hmin hmax hne), mapLinear_binary32]
      exact agree_settle _ _
    · rw [isNaN_settle]
      exact isNaN_mapLinearWord _ hnan
  · rw [mapLinear_real, div_mul_eq_mul_div]

/-- Settles O22: the slope is a positive factor times the difference of the end values. -/
theorem realMapIsMonotonicWithinItsRange : Obligations.RealMapIsMonotonicWithinItsRange := by
  intro rawMin rawMax outMin outMax hraw
  have hspan : 0 < rawMax - rawMin := sub_pos.mpr hraw
  simp only [mapLinear_real]
  refine ⟨fun raw hlow hhigh => ?_, fun hout x y hxy => ?_, fun hout x y hxy => ?_⟩
  · have h0 : 0 ≤ (raw - rawMin) / (rawMax - rawMin) := div_nonneg (sub_nonneg.mpr hlow) hspan.le
    have h1 : (raw - rawMin) / (rawMax - rawMin) ≤ 1 := div_le_one_of_le₀ (sub_le_sub_right hhigh _) hspan.le
    generalize (raw - rawMin) / (rawMax - rawMin) = k at h0 h1
    rcases le_total outMin outMax with hout | hout
    · rw [min_eq_left hout, max_eq_right hout]
      constructor <;> nlinarith
    · rw [min_eq_right hout, max_eq_left hout]
      constructor <;> nlinarith
  · have hslope : 0 < outMax - outMin := sub_pos.mpr hout
    dsimp only
    gcongr
  · have hslope : outMax - outMin < 0 := sub_neg.mpr hout
    have hk : (x - rawMin) / (rawMax - rawMin) < (y - rawMin) / (rawMax - rawMin) := by gcongr
    exact add_lt_add_right (mul_lt_mul_of_neg_right hk hslope) _

/-! ### MAPLIN at the ends of the raw range and between them -/

section
variable {rawMin rawMax outMin outMax : Word} (hmin : isFinite rawMin = true) (hmax : isFinite rawMax = true)
  (hout : isFinite outMin = true) (hspan : isFinite (sub rawMax rawMin) = true) (hslope : isFinite (sub outMax outMin) = true)

include hmin hmax hspan hslope in
/-- At the upper end the quotient is one (40 R82 (f)). -/
theorem mapLinear_at_rawMax (hne : toRat rawMin ≠ toRat rawMax) (eps : ℚ) :
    Mapper.mapLinear (Num.binary32 eps) rawMax rawMin rawMax outMin outMax = add outMin (sub outMax outMin) := by
  rw [mapLinear_binary32, div_self_eq_one hspan (toRat_sub_ne_zero hmax hmin hne.symm), one_mul_eq hslope]

include hmin hmax hout hspan hslope

/-- At the lower end each operation passes a zero on (40 R82 (f)). -/
theorem mapLinear_at_rawMin (hne : toRat rawMin ≠ toRat rawMax) (eps : ℚ) :
    isFinite (Mapper.mapLinear (Num.binary32 eps) rawMin rawMin rawMax outMin outMax) = true
      ∧ toRat (Mapper.mapLinear (Num.binary32 eps) rawMin rawMin rawMax outMin outMax) = toRat outMin := by
  obtain ⟨hsub, hsub0⟩ := sub_self_value hmin
  obtain ⟨hdiv, hdiv0⟩ := div_zero_value hsub hsub0 hspan (toRat_sub_ne_zero hmax hmin hne.symm)
  obtain ⟨hmul, hmul0⟩ := mul_zero_value hdiv hdiv0 hslope
  rw [mapLinear_binary32]
  exact add_zero_value hout hmul hmul0

variable (hmaxOut : isFinite outMax = true) (hraw : toRat rawMin < toRat rawMax) (hrange : toRat outMin ≤ toRat outMax)
include hmaxOut hraw hrange

/-- Where neither range is reversed the map rises with the reading, operation by operation (40 R83). -/
theorem risesOn_mapLinear (eps : ℚ) :
    RisesOn (fun raw => Mapper.mapLinear (Num.binary32 eps) raw rawMin rawMax outMin outMax) rawMin rawMax := by
  have hspan0 := toRat_sub_ne_zero hmax hmin hraw.ne'
  have hspanPos := (toRat_sub_nonneg hmax hmin hraw.le hspan).lt_of_ne' hspan0
  obtain ⟨hsub, hsub0⟩ := sub_self_value hmin
  obtain ⟨hdiv, hdiv0⟩ := div_zero_value hsub hsub0 hspan hspan0
  obtain ⟨hmul, -⟩ := mul_zero_value hdiv hdiv0 hslope
  have hone := div_self_eq_one hspan hspan0
  have htop : isFinite (mul (div (sub rawMax rawMin) (sub rawMax rawMin)) (sub outMax outMin)) = true := by
    rw [hone, one_mul_eq hslope, hslope]
  have hratio := (risesOn_div hsub hspan hspan hspanPos).comp (f := fun raw => sub raw rawMin)
    (risesOn_sub hmin hmax hmin) hmin hmax
  have hscaled := (risesOn_mul hdiv (hone ▸ isFinite_one) hslope (toRat_sub_nonneg hmaxOut hout hrange hslope)).comp
    (f := fun raw => div (sub raw rawMin) (sub rawMax rawMin)) hratio hmin hmax
  exact (risesOn_add hmul htop hout).comp
    (f := fun raw => mul (div (sub raw rawMin) (sub rawMax rawMin)) (sub outMax outMin)) hscaled hmin hmax

/-- Between the ends the map stays in its range where the rounded difference of the end values leads no further (40 R83). -/
theorem mapLinear_within_range (htop : le (add outMin (sub outMax outMin)) outMax = true) (eps : ℚ) {raw : Word}
    (hlow : le rawMin raw = true) (hhigh : le raw rawMax = true) :
    le outMin (Mapper.mapLinear (Num.binary32 eps) raw rawMin rawMax outMin outMax) = true
      ∧ le (Mapper.mapLinear (Num.binary32 eps) raw rawMin rawMax outMin outMax) outMax = true := by
  have hrises := risesOn_mapLinear hmin hmax hout hspan hslope hmaxOut hraw hrange eps
  obtain ⟨hbot, hbotValue⟩ := mapLinear_at_rawMin hmin hmax hout hspan hslope hraw.ne eps
  have hstart := hrises rawMin raw (wordLe_refl (isNaN_of_isFinite hmin)) hlow hhigh
  have hend := hrises raw rawMax hlow hhigh (wordLe_refl (isNaN_of_isFinite hmax))
  dsimp only at hend
  rw [mapLinear_at_rawMax hmin hmax hspan hslope hraw.ne] at hend
  exact ⟨wordLe_trans ((le_iff hout hbot).mpr hbotValue.ge) hstart, wordLe_trans hend htop⟩

end

/-- The output ranges of the sequencer's three mappings: note number, Q, width (40 R87). -/
def controlRanges : List (Word × Word) :=
  [(0x41D80000#32, 0x42F60000#32), (0x3F19999A#32, 0x40A00000#32), (0x41A00000#32, 0x453B8000#32)]

/-- No range is reversed or overflows, and its rounded difference leads back to no more than its upper end. -/
theorem controlRanges_spans : ∀ r ∈ controlRanges, isFinite r.1 = true ∧ isFinite r.2 = true ∧ le r.1 r.2 = true
    ∧ isFinite (sub r.2 r.1) = true ∧ le (add r.1 (sub r.2 r.1)) r.2 = true := by
  simp only [controlRanges, List.forall_mem_cons, List.not_mem_nil, false_imp_iff, implies_true, and_true]
  decide

/-- `MAPLIN`'s first result word on sane raw bounds, where the formula gives no NaN. -/
theorem maplin_r0 (s : State) {raw rawMin rawMax outMin outMax : Word} (hsane : Mapper.saneBounds rawMin rawMax = true)
    (hnan : isNaN (Mapper.mapLinear s.cfg.num raw rawMin rawMax outMin outMax) = false) :
    ∃ t, exec (.maplin raw rawMin rawMax outMin outMax) s = .next t
      ∧ t.r0 = Mapper.mapLinear s.cfg.num raw rawMin rawMax outMin outMax := by
  have h := (maplin_answers s raw rawMin rawMax outMin outMax).r0
  rwa [mapLinearWord_of_sane hsane, settle_of_not_nan _ hnan] at h

/-- Settles O20: at the two ends the quotient of the formula is zero and one. -/
theorem maplinEndValues : Obligations.MaplinEndValues := by
  intro rawMin rawMax outMin outMax s hmin hmax hout hne hspan hslope
  have hsane := saneBounds_of_ne hmin hmax hne
  have hlow := mapLinear_at_rawMin hmin hmax hout hspan hslope hne s.cfg.epsT
  obtain ⟨t, hexec, hr0⟩ := maplin_r0 s hsane (isNaN_of_isFinite hlow.1)
  obtain ⟨t', hexec', hr0'⟩ := (maplin_answers s rawMax rawMin rawMax outMin outMax).r0
  refine ⟨⟨t, hexec, hr0 ▸ hlow⟩, t', hexec', ?_⟩
  rw [hr0', mapLinearWord_of_sane hsane, mapLinear_at_rawMax hmin hmax hspan hslope hne]
  exact agree_settle _ _

/-- Settles O21: the formula's words are in order and in range, so none is a NaN and the answers are these words. -/
theorem maplinStaysInRangeAndIsMonotonic : Obligations.MaplinStaysInRangeAndIsMonotonic := by
  intro raw raw' s hlow hraw hhigh r hr
  obtain ⟨hout, hmaxOut, hrange, hslope, htop⟩ := controlRanges_spans r hr
  rw [le_iff hout hmaxOut] at hrange
  have hmin : isFinite 0x00000000#32 = true := by decide
  have hmax : isFinite 0x3F53B646#32 = true := by decide
  have hspan : isFinite (sub 0x3F53B646#32 0x00000000#32) = true := by decide
  have hends : toRat 0x00000000#32 < toRat 0x3F53B646#32 := (lt_iff hmin hmax).mp (by decide)
  have hstep := risesOn_mapLinear hmin hmax hout hspan hslope hmaxOut hends hrange s.cfg.epsT raw raw' hlow hraw hhigh
  have within {w : Word} := mapLinear_within_range hmin hmax hout hspan hslope hmaxOut hends hrange htop s.cfg.epsT (raw := w)
  obtain ⟨hfrom, -⟩ := within hlow (wordLe_trans hraw hhigh)
  obtain ⟨-, hto⟩ := within (wordLe_trans hlow hraw) hhigh
  obtain ⟨hnan, hnan', -⟩ := le_iff_order.mp hstep
  have hsane := saneBounds_of_ne hmin hmax hends.ne
  obtain ⟨t, hexec, hr0⟩ := maplin_r0 s hsane hnan
  obtain ⟨t', hexec', hr0'⟩ := maplin_r0 s hsane hnan'
  exact ⟨t, t', hexec, hexec', hr0 ▸ hfrom, hr0 ▸ hr0' ▸ hstep, hr0' ▸ hto⟩

/-! ### NN2HZ: the pitch -/

theorem noteToHzWord_eq (cfg : Cfg) (nn : Word) : Mapper.noteToHzWord cfg nn
    = mul cfg.fRef (Elementary.exp2 cfg.epsT (div (sub nn cfg.nnRef) cfg.semis)) := rfl

/-- Settles O23: the answer is the formula's word, settled, and a NaN goes through each operation of the formula. -/
theorem nn2hzReturnsThePitch : Obligations.Nn2hzReturnsThePitch := by
  intro nn u v w x s
  obtain ⟨t, hexec, hresponse, hkept⟩ := nn2hz_answers s nn
  refine ⟨decode_of_encode (i := .nn2hz nn) rfl rfl, t, _, hexec, hresponse, hkept, agree_settle _ _, fun hnan => ?_⟩
  rw [isNaN_settle, noteToHzWord_eq, Elementary.exp2_of_isNaN _ (isNaN_div (.inl (isNaN_sub (.inl hnan))))]
  exact isNaN_mul (.inr isNaN_nan)

/-- 440 times a number as near two as P2 asks is 880 within 1e-3, its own rounding included. -/
theorem mul_440_near_880 {e : Word} (he : isFinite e = true) (hnear : |toRat e - 2| ≤ 2 / 1000000) :
    isFinite (mul 0x43DC0000#32 e) = true ∧ |toRat (mul 0x43DC0000#32 e) - 880| ≤ 1 / 1000 := by
  have href : toRat 0x43DC0000#32 = 440 := by decide +kernel
  have h := mul_roundsTo (a := 0x43DC0000#32) (by decide) he
  obtain ⟨hlow, hhigh⟩ := abs_le.mp hnear
  rw [href] at h
  obtain ⟨hfin, herr⟩ := h.error_of_normal (le_trans (by norm_num) (by linarith : 1 ≤ 440 * toRat e))
    (lt_of_le_of_lt (by linarith : 440 * toRat e ≤ 1000) (by norm_num [overflowBound]))
  obtain ⟨herr1, herr2⟩ := abs_le.mp herr
  exact ⟨hfin, abs_le.mpr ⟨by linarith, by linarith⟩⟩

/-- Settles O24: the exponent is zero at the reference note and one an octave up, where P1 and P2 fix `EXP2`. -/
theorem nn2hzReferencePitches : Obligations.Nn2hzReferencePitches := by
  intro s hfRef hnnRef hsemis
  have hzero : div (sub 0x42700000#32 0x42700000#32) 0x41400000#32 = posZero := by decide
  have hone : div (sub 0x42900000#32 0x42700000#32) 0x41400000#32 = one := by decide
  obtain ⟨t, hexec, hr0⟩ := (nn2hz_answers s 0x42700000#32).r0
  obtain ⟨t', hexec', hr0'⟩ := (nn2hz_answers s 0x42900000#32).r0
  rw [noteToHzWord_eq, hfRef, hnnRef, hsemis] at hr0 hr0'
  refine ⟨⟨t, hexec, ?_⟩, t', hexec', ?_⟩
  · rw [hr0, hzero, Elementary.exp2_of_isZero _ (by decide) (by decide), settle_of_not_nan _ (by decide)]
    decide
  · obtain ⟨hfin, hnear⟩ := Elementary.exp2_one s.cfg.epsT
    have h := mul_440_near_880 hfin hnear
    rwa [hr0', hone, settle_of_not_nan _ (isNaN_of_isFinite h.1)]

theorem noteToHz_real (fRef nnRef semis nn : ℝ) :
    Mapper.noteToHz Num.real fRef nnRef semis nn = fRef * 2 ^ ((nn - nnRef) / semis) := rfl

/-- Settles O25: 12 steps add one to the exponent of two. -/
theorem realPitchDoublesEveryOctave : Obligations.RealPitchDoublesEveryOctave := by
  refine ⟨fun nn => ⟨?_, ?_⟩, fun x y hxy => ?_, ?_⟩
  · rw [noteToHz_real]
    positivity
  · have hexp : (nn + 12 - 60) / 12 = (nn - 60) / 12 + 1 := by ring
    rw [noteToHz_real, noteToHz_real, hexp, Real.rpow_add_one two_ne_zero]
    ring
  · rw [noteToHz_real, noteToHz_real]
    have hexp : (x - 60) / 12 < (y - 60) / 12 := by gcongr
    exact mul_lt_mul_of_pos_left (Real.rpow_lt_rpow_of_exponent_lt one_lt_two hexp) (by norm_num)
  · rw [noteToHz_real]
    norm_num

/-! ### LPFREQ: the clamped sum -/

theorem lpFreqWord_eq (cfg : Cfg) (baseHz widthHz : Word) : Mapper.lpFreqWord cfg baseHz widthHz
    = if lt (add baseHz widthHz) cfg.lpCeil = true then add baseHz widthHz else cfg.lpCeil := rfl

theorem lpFreqWord_of_not_lt {cfg : Cfg} {baseHz widthHz : Word} (h : lt (add baseHz widthHz) cfg.lpCeil = false) :
    Mapper.lpFreqWord cfg baseHz widthHz = cfg.lpCeil := by
  rw [lpFreqWord_eq, h, if_neg Bool.false_ne_true]

theorem lpFreqWord_le_ceil {cfg : Cfg} (h : isNaN cfg.lpCeil = false) (baseHz widthHz : Word) :
    le (Mapper.lpFreqWord cfg baseHz widthHz) cfg.lpCeil = true := by
  rw [lpFreqWord_eq]
  split
  · next hlt => exact wordLe_of_lt hlt
  · exact wordLe_refl h

/-- Settles O26: the answer is the selected word itself, and no comparison with a NaN sum holds. -/
theorem lpfreqClampsTheSum : Obligations.LpfreqClampsTheSum := by
  intro baseHz widthHz u v w s
  refine ⟨decode_of_encode (i := .lpfreq ..) rfl rfl, ?_, fun hceil => ?_⟩
  · obtain ⟨t, hexec, hresponse, hkept⟩ := lpfreq_answers s baseHz widthHz
    exact ⟨t, _, hexec, hresponse, hkept, lpFreqWord_eq .., fun hnan => lpFreqWord_of_not_lt (lt_of_isNaN_left hnan _),
      fun h => lpFreqWord_le_ceil h ..⟩
  · have answers {b c r : Word} (h : (if lt (add b c) 0x469B7800#32 = true then add b c else 0x469B7800#32) = r) :
        ∃ t, exec (.lpfreq b c) s = .next t ∧ t.r0 = r := by
      have hr0 := (lpfreq_answers s b c).r0
      rwa [lpFreqWord_eq, hceil, h] at hr0
    exact ⟨answers (by decide), answers (by decide), answers (by decide)⟩

end Sys2Proof.Machine
end

section
/-! filter_coeff_calculator (spec 41): what CHP and CLP answer, said once, and the two coefficient sets over the reals. -/

namespace Sys2Proof.Machine

open Binary32

/-! ### What the two commands answer -/

/-- The command answers the five words of `c`, status `OK`, and leaves the rest alone (41 R90). -/
def AnswersCoeffs (i : Instr) (s : State) (c : Coeffs Word) : Prop :=
  ∃ t, exec i s = .next t ∧ t.response = some (okResponse c.b0 c.b1 c.b2 c.a1 c.a2) ∧ Untouched s t

theorem chp_answers (s : State) (freqHz q fs : Word) :
    AnswersCoeffs (.chp freqHz q fs) s (settleCoeffs s.draws (Coeff.highPassWord s.cfg.num freqHz q fs)) :=
  ⟨_, rfl, rfl, ⟨rfl, rfl, rfl, rfl, rfl, rfl, rfl, rfl, rfl, rfl⟩⟩

theorem clp_answers (s : State) (freqHz q fs : Word) :
    AnswersCoeffs (.clp freqHz q fs) s (settleCoeffs s.draws (Coeff.lowPassWord s.cfg.num freqHz q fs)) :=
  ⟨_, rfl, rfl, ⟨rfl, rfl, rfl, rfl, rfl, rfl, rfl, rfl, rfl, rfl⟩⟩

/-- The five results as one tuple. -/
theorem AnswersCoeffs.coeffs {i : Instr} {s : State} {c : Coeffs Word} (h : AnswersCoeffs i s c) :
    ∃ t, exec i s = .next t ∧ t.coeffs = c ∧ Untouched s t := by
  obtain ⟨t, hexec, hresponse, hkept⟩ := h
  exact ⟨t, hexec, coeffs_of_response hresponse, hkept⟩

/-- Where `b2` is a copy of `b0` it is answered as the same word (41 R95 (b)). -/
theorem AnswersCoeffs.of_copy {i : Instr} {s : State} {n : Nat} {c : Coeffs Word} (h : AnswersCoeffs i s (settleCoeffs n c))
    (hcopy : c.b2 = c.b0) : ∃ t, exec i s = .next t
      ∧ t.response = some (okResponse (settle n c.b0) (settle (n + 1) c.b1) (settle n c.b0) (settle (n + 2) c.a1)
        (settle (n + 3) c.a2)) ∧ Untouched s t := by
  obtain ⟨t, hexec, hresponse, hkept⟩ := h
  rw [settleCoeffs_b2 n hcopy] at hresponse
  exact ⟨t, hexec, hresponse, hkept⟩

/-! ### Where the formulas are evaluated -/

theorem units_pos_iff (w : Word) : 0 < units w ↔ 0 < toRat w := by
  rw [toRat, div_pos_iff_of_pos_right (by positivity), Int.cast_pos]

theorem inContract_of_meetsContract {freqHz q fs : Word} (h : MeetsContract freqHz q fs) :
    Coeff.inContract freqHz q fs = true := by
  obtain ⟨hfreq, hq, hfs, hfreqPos, hbelow, hqPos⟩ := h
  have hunits : 2 * units freqHz < units fs := by
    rw [toRat, toRat, div_right_comm, div_lt_div_iff_of_pos_right (by positivity), lt_div_iff₀' two_pos] at hbelow
    exact_mod_cast hbelow
  simp [Coeff.inContract, hfreq, hq, hfs, hunits, units_pos_iff, hfreqPos, hqPos]

theorem evaluated_of_meetsContract {freqHz q fs : Word} (h : MeetsContract freqHz q fs) :
    Coeff.evaluated freqHz q fs = true := by
  rw [Coeff.evaluated, inContract_of_meetsContract h, Bool.true_or]

theorem evaluated_of_isNaN {freqHz q fs : Word} (h : ∃ w ∈ [freqHz, q, fs], isNaN w = true) :
    Coeff.evaluated freqHz q fs = true := by
  rw [Coeff.evaluated, List.any_eq_true.mpr h, Bool.or_true]

section
variable {freqHz q fs : Word}

theorem highPassWord_of_evaluated (N : Num Word) (h : Coeff.evaluated freqHz q fs = true) :
    Coeff.highPassWord N freqHz q fs = Coeff.highPass N freqHz q fs := if_pos h

theorem lowPassWord_of_evaluated (N : Num Word) (h : Coeff.evaluated freqHz q fs = true) :
    Coeff.lowPassWord N freqHz q fs = Coeff.lowPass N freqHz q fs := if_pos h

/-! ### A NaN operand (41 R95 (h)) -/

variable (eps : ℚ) (h : ∃ w ∈ [freqHz, q, fs], isNaN w = true)
include h

/-- Whichever operand is the NaN, it reaches `a0`. -/
theorem isNaN_a0 : isNaN (Coeff.a0 (Num.binary32 eps) freqHz q fs) = true := by
  have of_w0 (hw0 : isNaN (Coeff.w0 (Num.binary32 eps) freqHz fs) = true) :
      isNaN (Coeff.a0 (Num.binary32 eps) freqHz q fs) = true := by
    have hsin : isNaN (Elementary.sin eps (Coeff.w0 (Num.binary32 eps) freqHz fs)) = true := by
      rw [Elementary.sin_of_isNaN eps hw0]
      exact isNaN_nan
    exact isNaN_add (.inr (isNaN_div (.inl hsin)))
  simp only [List.mem_cons, List.not_mem_nil, or_false, exists_eq_or_imp, exists_eq_left] at h
  rcases h with h | h | h
  · exact of_w0 (isNaN_div (.inl (isNaN_mul (.inr h))))
  · exact isNaN_add (.inr (isNaN_div (.inr (isNaN_mul (.inr h)))))
  · exact of_w0 (isNaN_div (.inr h))

theorem isNaN_div_a0 (x : Word) : isNaN (div x (Coeff.a0 (Num.binary32 eps) freqHz q fs)) = true :=
  isNaN_div (.inr (isNaN_a0 eps h))

end

/-- Settles O28: the answer is the formula's tuple, settled, and a NaN reaches `a0`, the divisor of every result. -/
theorem chpReturnsTheHighPass : Obligations.ChpReturnsTheHighPass := by
  intro freqHz q fs u v s
  obtain ⟨t, hexec, hresponse, hkept⟩ := (chp_answers s freqHz q fs).of_copy (highPassWord_b2 ..)
  refine ⟨decode_of_encode (i := .chp ..) rfl rfl, t, _, _, _, _, hexec, hresponse, hkept, fun hcontract => ?_, fun hnan => ?_⟩
  · rw [highPassWord_of_evaluated _ (evaluated_of_meetsContract hcontract)]
    exact ⟨agree_settle .., agree_settle .., agree_settle .., agree_settle ..⟩
  · rw [highPassWord_of_evaluated _ (evaluated_of_isNaN hnan)]
    simp only [List.forall_mem_cons, isNaN_settle]
    exact ⟨isNaN_div_a0 _ hnan _, isNaN_div_a0 _ hnan _, isNaN_div_a0 _ hnan _, isNaN_div_a0 _ hnan _, fun _ hr => nomatch hr⟩

/-- Settles O29: as for CHP, with the low-pass tuple. -/
theorem clpReturnsTheLowPass : Obligations.ClpReturnsTheLowPass := by
  intro freqHz q fs u v s
  obtain ⟨t, hexec, hresponse, hkept⟩ := (clp_answers s freqHz q fs).of_copy (lowPassWord_b2 ..)
  refine ⟨decode_of_encode (i := .clp ..) rfl rfl, t, _, _, _, _, hexec, hresponse, hkept, fun hcontract => ?_, fun hnan => ?_⟩
  · rw [lowPassWord_of_evaluated _ (evaluated_of_meetsContract hcontract)]
    exact ⟨agree_settle .., agree_settle .., agree_settle .., agree_settle ..⟩
  · rw [lowPassWord_of_evaluated _ (evaluated_of_isNaN hnan)]
    simp only [List.forall_mem_cons, isNaN_settle]
    exact ⟨isNaN_div_a0 _ hnan _, isNaN_div_a0 _ hnan _, isNaN_div_a0 _ hnan _, isNaN_div_a0 _ hnan _, fun _ hr => nomatch hr⟩

/-- Blocks of one `EPS_T` have one numeric record (00 R12). -/
theorem num_eq_of_epsT {c c' : Cfg} (h : c.epsT = c'.epsT) : c.num = c'.num := congrArg Num.binary32 h

/-- Settles O30: the formulas, and the free values outside the contract, are the same for `a1` and `a2`. -/
theorem chpAndClpShareTheFeedback : Obligations.ChpAndClpShareTheFeedback := by
  intro freqHz q fs s s' heps
  obtain ⟨t, hexec, hcoeffs, -⟩ := (chp_answers s freqHz q fs).coeffs
  obtain ⟨t', hexec', hcoeffs', -⟩ := (clp_answers s' freqHz q fs).coeffs
  refine ⟨t, t', hexec, hexec', ?_⟩
  rw [hcoeffs, hcoeffs', num_eq_of_epsT heps, settleCoeffs, settleCoeffs, highPassWord_a1, highPassWord_a2]
  exact ⟨agree_settle_settle .., agree_settle_settle ..⟩

/-- One tuple settled with different draws. -/
theorem coeffsAgree_settleCoeffs_settleCoeffs (m n : Nat) (c : Coeffs Word) : CoeffsAgree (settleCoeffs m c) (settleCoeffs n c) :=
  ⟨agree_settle_settle .., agree_settle_settle .., agree_settle_settle .., agree_settle_settle .., agree_settle_settle ..⟩

/-- Settles O31: both states' answers are one tuple of the operands, settled. -/
theorem coefficientCommandsArePure : Obligations.CoefficientCommandsArePure := by
  intro i hi s s' heps
  have agreeing {c : Coeffs Word} (h : AnswersCoeffs i s (settleCoeffs s.draws c))
      (h' : AnswersCoeffs i s' (settleCoeffs s'.draws c)) : ∃ t t', exec i s = .next t ∧ exec i s' = .next t'
        ∧ Untouched s t ∧ Untouched s' t' ∧ CoeffsAgree t.coeffs t'.coeffs := by
    obtain ⟨t, hexec, hcoeffs, hkept⟩ := h.coeffs
    obtain ⟨t', hexec', hcoeffs', hkept'⟩ := h'.coeffs
    refine ⟨t, t', hexec, hexec', hkept, hkept', ?_⟩
    rw [hcoeffs, hcoeffs']
    exact coeffsAgree_settleCoeffs_settleCoeffs ..
  cases i with
  | chp freqHz q fs => exact agreeing (num_eq_of_epsT heps ▸ chp_answers s freqHz q fs) (chp_answers s' freqHz q fs)
  | clp freqHz q fs => exact agreeing (num_eq_of_epsT heps ▸ clp_answers s freqHz q fs) (clp_answers s' freqHz q fs)
  | _ => exact absurd hi (by simp [Instr.mnemonic])

/-! ### The formulas over the reals -/

section
variable (freqHz q fs : ℝ)

theorem w0_real : Coeff.w0 Num.real freqHz fs = 2 * Real.pi * freqHz / fs := rfl

theorem alpha_real : Coeff.alpha Num.real freqHz q fs = Real.sin (Coeff.w0 Num.real freqHz fs) / (2 * q) := rfl

theorem a0_real : Coeff.a0 Num.real freqHz q fs = 1 + Coeff.alpha Num.real freqHz q fs := rfl

theorem a1_real : Coeff.a1 Num.real freqHz q fs
    = -2 * Real.cos (Coeff.w0 Num.real freqHz fs) / Coeff.a0 Num.real freqHz q fs := rfl

theorem a2_real : Coeff.a2 Num.real freqHz q fs
    = (1 - Coeff.alpha Num.real freqHz q fs) / Coeff.a0 Num.real freqHz q fs := rfl

end

section
variable {freqHz q fs : ℝ} (h : InContract freqHz q fs)
include h

theorem q_pos : 0 < q := by
  obtain ⟨-, -, hq⟩ := h
  exact hq

theorem w0_pos : 0 < Coeff.w0 Num.real freqHz fs := by
  obtain ⟨hfreq, hbelow, -⟩ := h
  have hfs : 0 < fs := by linarith
  rw [w0_real]
  positivity

theorem w0_lt_pi : Coeff.w0 Num.real freqHz fs < Real.pi := by
  obtain ⟨hfreq, hbelow, -⟩ := h
  rw [w0_real, div_lt_iff₀ (by linarith), mul_comm 2, mul_assoc]
  exact mul_lt_mul_of_pos_left (by linarith) Real.pi_pos

theorem sin_w0_pos : 0 < Real.sin (Coeff.w0 Num.real freqHz fs) := Real.sin_pos_of_pos_of_lt_pi (w0_pos h) (w0_lt_pi h)

theorem abs_cos_w0_lt_one : |Real.cos (Coeff.w0 Num.real freqHz fs)| < 1 := by
  rw [← sq_lt_one_iff_abs_lt_one, Real.cos_sq']
  linarith [pow_pos (sin_w0_pos h) 2]

theorem alpha_pos : 0 < Coeff.alpha Num.real freqHz q fs := by
  rw [alpha_real]
  exact div_pos (sin_w0_pos h) (mul_pos two_pos (q_pos h))

theorem one_lt_a0 : 1 < Coeff.a0 Num.real freqHz q fs := by
  rw [a0_real]
  linarith [alpha_pos h]

theorem a0_pos : 0 < Coeff.a0 Num.real freqHz q fs := one_pos.trans (one_lt_a0 h)

theorem abs_a2_lt_one : |Coeff.a2 Num.real freqHz q fs| < 1 := by
  have halpha := alpha_pos h
  rw [a2_real, abs_div, abs_of_pos (a0_pos h), div_lt_one (a0_pos h), a0_real, abs_lt]
  constructor <;> linarith

theorem one_add_a2 : 1 + Coeff.a2 Num.real freqHz q fs = 2 / Coeff.a0 Num.real freqHz q fs := by
  rw [a2_real, eq_div_iff (a0_pos h).ne', add_mul, div_mul_cancel₀ _ (a0_pos h).ne', a0_real]
  ring

theorem abs_a1_lt : |Coeff.a1 Num.real freqHz q fs| < 1 + Coeff.a2 Num.real freqHz q fs := by
  rw [one_add_a2 h, a1_real, abs_div, abs_of_pos (a0_pos h), div_lt_div_iff_of_pos_right (a0_pos h), abs_mul, abs_neg, abs_two]
  linarith [abs_cos_w0_lt_one h]

end

/-- Settles O32: both sets have one `a1` and one `a2`, which `sin w0 > 0` bounds. -/
theorem realCoefficientsAreStable : Obligations.RealCoefficientsAreStable := by
  intro freqHz q fs h
  refine ⟨⟨w0_pos h, w0_lt_pi h, alpha_pos h, one_lt_a0 h⟩, ?_⟩
  simp only [List.forall_mem_cons, List.not_mem_nil, false_imp_iff, implies_true, and_true]
  exact ⟨⟨abs_a2_lt_one h, abs_a1_lt h⟩, abs_a2_lt_one h, abs_a1_lt h⟩

/-! ### The gains (41 R97) -/

section
variable (freqHz q fs : ℝ) (z : ℂ)

/-- The high-pass numerator has a double zero at 0 Hz. -/
theorem numerator_highPass : numerator (Coeff.highPass Num.real freqHz q fs) z
    = (1 + Real.cos (Coeff.w0 Num.real freqHz fs)) / 2 * (1 - z) ^ 2 / Coeff.a0 Num.real freqHz q fs := by
  simp only [numerator, Coeff.highPass, Num.real]
  push_cast
  ring

/-- The low-pass numerator has a double zero at half the sample rate. -/
theorem numerator_lowPass : numerator (Coeff.lowPass Num.real freqHz q fs) z
    = (1 - Real.cos (Coeff.w0 Num.real freqHz fs)) / 2 * (1 + z) ^ 2 / Coeff.a0 Num.real freqHz q fs := by
  simp only [numerator, Coeff.lowPass, Num.real]
  push_cast
  ring

/-- The two sets have one denominator (41 R94). -/
theorem denominator_lowPass : denominator (Coeff.lowPass Num.real freqHz q fs) z
    = denominator (Coeff.highPass Num.real freqHz q fs) z := rfl

end

section
variable {freqHz q fs : ℝ} (h : InContract freqHz q fs)
include h

theorem denominator_highPass (z : ℂ) : denominator (Coeff.highPass Num.real freqHz q fs) z
    = (1 + Coeff.alpha Num.real freqHz q fs - 2 * Real.cos (Coeff.w0 Num.real freqHz fs) * z
      + (1 - Coeff.alpha Num.real freqHz q fs) * z ^ 2) / Coeff.a0 Num.real freqHz q fs := by
  have ha0 : ((Coeff.a0 Num.real freqHz q fs : ℝ) : ℂ) ≠ 0 := Complex.ofReal_ne_zero.mpr (a0_pos h).ne'
  rw [eq_div_iff ha0]
  simp only [denominator, Coeff.highPass, a1_real, a2_real]
  push_cast
  field_simp
  rw [a0_real]
  push_cast
  ring

/-- At 0 Hz, `z^-1 = 1`. -/
theorem denominator_at_one : denominator (Coeff.highPass Num.real freqHz q fs) 1
    = 2 * (1 - Real.cos (Coeff.w0 Num.real freqHz fs)) / Coeff.a0 Num.real freqHz q fs := by
  rw [denominator_highPass h]
  ring

/-- At half the sample rate, `z^-1 = -1`. -/
theorem denominator_at_neg_one : denominator (Coeff.highPass Num.real freqHz q fs) (-1)
    = 2 * (1 + Real.cos (Coeff.w0 Num.real freqHz fs)) / Coeff.a0 Num.real freqHz q fs := by
  rw [denominator_highPass h]
  ring

end

/-- The point of the unit circle at the angle `-w`, `z^-1` at the frequency `w`. -/
noncomputable def circleAt (w : ℝ) : ℂ := Complex.exp (-(Complex.I * w))

theorem circleAt_eq (w : ℝ) : circleAt w = Real.cos w - Real.sin w * Complex.I := by
  rw [circleAt, mul_comm, ← neg_mul, Complex.exp_mul_I, Complex.cos_neg, Complex.sin_neg, Complex.ofReal_cos, Complex.ofReal_sin]
  ring

theorem ofReal_cos_sq_add_sin_sq (w : ℝ) : (Real.cos w : ℂ) ^ 2 + (Real.sin w : ℂ) ^ 2 = 1 := by
  exact_mod_cast Real.cos_sq_add_sin_sq w

/-- The point is a root of the polynomial of its own angle. -/
theorem circleAt_sq (w : ℝ) : circleAt w ^ 2 = 2 * Real.cos w * circleAt w - 1 := by
  rw [circleAt_eq]
  linear_combination Real.sin w ^ 2 * Complex.I_sq - ofReal_cos_sq_add_sin_sq w

theorem one_sub_cos_mul_circleAt (w : ℝ) : 1 - Real.cos w * circleAt w = Real.sin w * Complex.I * circleAt w := by
  rw [circleAt_eq]
  linear_combination Real.sin w ^ 2 * Complex.I_sq - ofReal_cos_sq_add_sin_sq w

theorem circleAt_ne_zero (w : ℝ) : circleAt w ≠ 0 := Complex.exp_ne_zero _

section
variable {freqHz q fs : ℝ}

theorem numerator_lowPass_at_freq : numerator (Coeff.lowPass Num.real freqHz q fs) (circleAt (Coeff.w0 Num.real freqHz fs))
    = Real.sin (Coeff.w0 Num.real freqHz fs) ^ 2 * circleAt (Coeff.w0 Num.real freqHz fs) / Coeff.a0 Num.real freqHz q fs := by
  rw [numerator_lowPass]
  generalize Coeff.w0 Num.real freqHz fs = w
  congr 1
  linear_combination (1 - Real.cos w) / 2 * circleAt_sq w - circleAt w * ofReal_cos_sq_add_sin_sq w

/-- At `freqHz` the two numerators are opposite. -/
theorem numerator_highPass_at_freq : numerator (Coeff.highPass Num.real freqHz q fs) (circleAt (Coeff.w0 Num.real freqHz fs))
    = -numerator (Coeff.lowPass Num.real freqHz q fs) (circleAt (Coeff.w0 Num.real freqHz fs)) := by
  rw [numerator_highPass, numerator_lowPass_at_freq, ← neg_div]
  generalize Coeff.w0 Num.real freqHz fs = w
  congr 1
  linear_combination (1 + Real.cos w) / 2 * circleAt_sq w + circleAt w * ofReal_cos_sq_add_sin_sq w

variable (h : InContract freqHz q fs)
include h

theorem numerator_lowPass_at_freq_ne_zero :
    numerator (Coeff.lowPass Num.real freqHz q fs) (circleAt (Coeff.w0 Num.real freqHz fs)) ≠ 0 := by
  rw [numerator_lowPass_at_freq]
  exact div_ne_zero (mul_ne_zero (pow_ne_zero 2 (Complex.ofReal_ne_zero.mpr (sin_w0_pos h).ne')) (circleAt_ne_zero _))
    (Complex.ofReal_ne_zero.mpr (a0_pos h).ne')

/-- At `freqHz` the denominator is the low-pass numerator turned by a right angle and divided by `q`. -/
theorem denominator_at_freq : denominator (Coeff.highPass Num.real freqHz q fs) (circleAt (Coeff.w0 Num.real freqHz fs))
    = numerator (Coeff.lowPass Num.real freqHz q fs) (circleAt (Coeff.w0 Num.real freqHz fs)) * (Complex.I / q) := by
  have halpha : ((Coeff.alpha Num.real freqHz q fs : ℝ) : ℂ) = Real.sin (Coeff.w0 Num.real freqHz fs) / (2 * q) := by
    rw [alpha_real]; push_cast; rfl
  rw [denominator_highPass h, numerator_lowPass_at_freq, div_mul_eq_mul_div, halpha]
  generalize Coeff.w0 Num.real freqHz fs = w
  congr 1
  linear_combination (1 - Real.sin w / (2 * q)) * circleAt_sq w + Real.sin w / q * one_sub_cos_mul_circleAt w

/-- The low-pass gain; the high-pass one is that of the opposite numerator. -/
theorem norm_gain_at_freq : ‖numerator (Coeff.lowPass Num.real freqHz q fs) (circleAt (Coeff.w0 Num.real freqHz fs))
    / denominator (Coeff.highPass Num.real freqHz q fs) (circleAt (Coeff.w0 Num.real freqHz fs))‖ = q := by
  have hnum := numerator_lowPass_at_freq_ne_zero h
  rw [denominator_at_freq h, div_mul_cancel_left₀ hnum, norm_inv, norm_div, Complex.norm_I, one_div, inv_inv,
    Complex.norm_of_nonneg (q_pos h).le]

theorem denominators_ne_zero : denominator (Coeff.highPass Num.real freqHz q fs) 1 ≠ 0
    ∧ denominator (Coeff.highPass Num.real freqHz q fs) (-1) ≠ 0
    ∧ denominator (Coeff.highPass Num.real freqHz q fs) (circleAt (Coeff.w0 Num.real freqHz fs)) ≠ 0 := by
  have ha0 : ((Coeff.a0 Num.real freqHz q fs : ℝ) : ℂ) ≠ 0 := Complex.ofReal_ne_zero.mpr (a0_pos h).ne'
  obtain ⟨hlow, hhigh⟩ := abs_lt.mp (abs_cos_w0_lt_one h)
  refine ⟨?_, ?_, ?_⟩
  · rw [denominator_at_one h]
    exact div_ne_zero (mul_ne_zero two_ne_zero (by exact_mod_cast (sub_pos.mpr hhigh).ne')) ha0
  · rw [denominator_at_neg_one h]
    exact div_ne_zero (mul_ne_zero two_ne_zero (by exact_mod_cast (neg_lt_iff_pos_add'.mp hlow).ne')) ha0
  · rw [denominator_at_freq h]
    exact mul_ne_zero (numerator_lowPass_at_freq_ne_zero h)
      (div_ne_zero Complex.I_ne_zero (Complex.ofReal_ne_zero.mpr (q_pos h).ne'))

end

/-- Settles O33: the numerators have their double zeros at the two ends of the band, and at `freqHz` both are the denominator
turned by a right angle and multiplied by `q`. -/
theorem realGainsAtTheThreeFrequencies : Obligations.RealGainsAtTheThreeFrequencies := by
  intro freqHz q fs h
  obtain ⟨hden1, hdenNeg1, hdenFreq⟩ := denominators_ne_zero h
  have hgain := norm_gain_at_freq h
  dsimp only
  rw [← circleAt]
  simp only [List.forall_mem_cons, List.not_mem_nil, false_imp_iff, implies_true, and_true, denominator_lowPass]
  refine ⟨⟨⟨hden1, hdenNeg1, hdenFreq⟩, hden1, hdenNeg1, hdenFreq⟩, ?_, ?_, ?_, ?_, hgain, ?_⟩
  · rw [div_eq_one_iff_eq hden1, numerator_lowPass, denominator_at_one h]
    ring
  · rw [numerator_lowPass]
    simp
  · rw [numerator_highPass]
    simp
  · rw [div_eq_one_iff_eq hdenNeg1, numerator_highPass, denominator_at_neg_one h]
    ring
  · rw [numerator_highPass_at_freq, neg_div, norm_neg, hgain]

end Sys2Proof.Machine
end

section
/-! Zeros, infinities and NaNs in sums and products (00 R8), as the biquad's terms meet them. -/

namespace Sys2Proof.Binary32

variable {a z : Word}

theorem isFinite_of_isZero (hz : isZero z = true) : isFinite z = true := by
  rw [eq_pack_of_isZero hz]
  exact isFinite_pack _ (by norm_num [infBits])

theorem isNaN_of_isZero (hz : isZero z = true) : isNaN z = false := isNaN_of_isFinite (isFinite_of_isZero hz)

theorem isZero_iff_signed (w : Word) : isZero w = true ↔ w = posZero ∨ w = negZero := by
  refine ⟨fun hw => ?_, by rintro (rfl | rfl) <;> decide⟩
  have hpack := eq_pack_of_isZero hw
  cases hsign : signBit w
  · exact .inl (by rwa [hsign, pack_false_zero] at hpack)
  · exact .inr (by rwa [hsign, pack_true_zero] at hpack)

/-- A number other than zero has its sign in the sign bit. -/
theorem signBit_eq_of_ne_zero {w : Word} (h0 : toRat w ≠ 0) : signBit w = decide (toRat w < 0) := by
  have hmag : 0 < mag w := Nat.pos_of_ne_zero fun h => h0 ((toRat_eq_zero_iff w).mpr ((isZero_iff_mag w).mpr h))
  have hpos : (0 : ℚ) < mag w / 2 ^ 149 := by positivity
  cases hsign : signBit w
  · have : toRat w = mag w / 2 ^ 149 := by rw [toRat_eq, hsign]; simp
    simp [this, hpos.le]
  · have : toRat w = -(mag w / 2 ^ 149) := by rw [toRat_eq, hsign]; simp [neg_div]
    simp [this, hpos]

@[simp] theorem isZero_neg (w : Word) : isZero (neg w) = isZero w := by simp [isZero]

/-! ### Adding a zero -/

theorem isZero_add (ha : isZero a = true) (hz : isZero z = true) : isZero (add a z) = true := by
  obtain ⟨-, hvalue⟩ := add_zero_value (isFinite_of_isZero ha) (isFinite_of_isZero hz) ((toRat_eq_zero_iff z).mpr hz)
  rw [← toRat_eq_zero_iff, hvalue, toRat_eq_zero_iff, ha]

theorem isZero_sub (ha : isZero a = true) (hz : isZero z = true) : isZero (sub a z) = true :=
  isZero_add ha ((isZero_neg z).trans hz)

/-- Of all the finite words a zero term can change only a negative zero. -/
theorem add_zero_eq (ha : isFinite a = true) (hne : a ≠ negZero) (hz : isZero z = true) : add a z = a := by
  have hz0 : toRat z = 0 := (toRat_eq_zero_iff z).mpr hz
  by_cases ha0 : toRat a = 0
  · obtain rfl : a = posZero := ((isZero_iff_signed a).mp ((toRat_eq_zero_iff a).mp ha0)).resolve_right hne
    rw [add_of_sum_zero ha (isFinite_of_isZero hz) (by rw [ha0, hz0, add_zero]), if_neg fun h => hne h.1]
  · obtain ⟨-, hvalue⟩ := add_zero_value ha (isFinite_of_isZero hz) hz0
    refine eq_of_toRat_eq hvalue ?_
    rw [signBit_eq_of_ne_zero ha0, signBit_eq_of_ne_zero (hvalue ▸ ha0), hvalue]

theorem sub_zero_eq (ha : isFinite a = true) (hne : a ≠ negZero) (hz : isZero z = true) : sub a z = a :=
  add_zero_eq ha hne ((isZero_neg z).trans hz)

/-! ### Multiplying by a zero -/

theorem isZero_mul (hz : isZero z = true) (ha : isFinite a = true) : isZero (mul z a) = true :=
  (toRat_eq_zero_iff _).mp (mul_zero_value (isFinite_of_isZero hz) ((toRat_eq_zero_iff z).mpr hz) ha).2

theorem isNaN_mul_of_isZero_isInf (hz : isZero z = true) (ha : isInf a = true) : isNaN (mul z a) = true := by
  unfold mul
  split
  · exact Machine.isNaN_nan
  · rw [if_pos (by simp [ha]), if_pos (by simp [hz])]
    exact Machine.isNaN_nan

end Sys2Proof.Binary32
end

section
/-! biquad_iir_filter (spec 42): what BQSET and BQTICK answer and write, said once, and the difference equation on words. -/

namespace Sys2Proof.Machine

open Binary32

variable {i : Inst} {s t : State}

/-! ### What the two commands answer and write -/

theorem UnitKept.hostSideKept (h : UnitKept s t) : HostSideKept s t := ⟨h.cfg, h.inputs, h.host⟩

theorem UnitKept.outputsKept (h : UnitKept s t) : OutputsKept s t := ⟨fun a => by rw [h.aout], h.indOut⟩

/-- Of the registers only those of instance `i` may differ, and the command touched no port (42 R100). -/
structure OneInstance (i : Inst) (s t : State) : Prop extends UnitKept s t where
  lfo : t.lfo = s.lfo
  others : ∀ j, j ≠ i → t.bq j = s.bq j

/-- The command answers the one word `w`, status `OK`, and writes instance `i` alone, which becomes `b` (42 R100). -/
def WritesInstance (c : Instr) (i : Inst) (s : State) (w : Word) (b : Biquad) : Prop :=
  ∃ t, exec c s = .next t ∧ t.response = some (okResponse w 0#32 0#32 0#32 0#32) ∧ t.bq i = b ∧ OneInstance i s t

@[simp] theorem start_bq (s : State) (i : Inst) : s.start.bq i = s.bq i := by cases i <;> rfl

@[simp] theorem answer_bq (s : State) (rs : List Word) (i : Inst) : (s.answer rs).bq i = s.bq i := by cases i <;> rfl

@[simp] theorem settled_bq (s : State) (w : Word) (i : Inst) : (s.settled w).2.bq i = s.bq i := by cases i <;> rfl

theorem tick_value (s : State) (i : Inst) (x : Word) :
    (s.tick i x).1 = settle s.draws (Filter.output s.cfg.num (s.bq i).coeffs (s.bq i).delay x) := rfl

theorem tick_bq (s : State) (i : Inst) (x : Word) :
    (s.tick i x).2.bq i = ⟨(s.bq i).coeffs, Filter.shiftIn (s.bq i).delay x (s.tick i x).1⟩ := by
  simp [State.tick]

theorem tick_bq_ne (s : State) {i j : Inst} (x : Word) (h : j ≠ i) : (s.tick i x).2.bq j = s.bq j := by
  simp [State.tick, setDelay_bq_ne _ _ _ _ h]

/-- A tick reads nothing that the start of a command changes. -/
@[simp] theorem tick_start_value (s : State) (i : Inst) (x : Word) : (s.start.tick i x).1 = (s.tick i x).1 := by
  simp [tick_value]

theorem bqset_writes (i : Inst) (b0 b1 b2 a1 a2 : Word) (s : State) :
    WritesInstance (.bqset i b0 b1 b2 a1 a2) i s 0#32 ⟨⟨b0, b1, b2, a1, a2⟩, (s.bq i).delay⟩ :=
  ⟨_, rfl, rfl, by simp,
    { exec_unitKept (i := .bqset i b0 b1 b2 a1 a2) rfl nofun with
      lfo := by simp
      others := fun j hj => by simp [setCoeffs_bq_ne _ _ _ _ hj] }⟩

theorem bqtick_writes (i : Inst) (x : Word) (s : State) :
    WritesInstance (.bqtick i x) i s (s.tick i x).1
      ⟨(s.bq i).coeffs, Filter.shiftIn (s.bq i).delay x (s.tick i x).1⟩ :=
  ⟨_, rfl, by simp, by simp [tick_bq],
    { exec_unitKept (i := .bqtick i x) rfl nofun with
      lfo := by simp
      others := fun j hj => by simp [tick_bq_ne _ _ hj] }⟩

/-- BQTICK's answer and the `Y1` it stores are one word (42 R103). -/
theorem bqtick_r0 (i : Inst) (x : Word) (s : State) : ∃ t, exec (.bqtick i x) s = .next t
    ∧ t.r0 = (s.tick i x).1 ∧ (t.bq i).delay.y1 = (s.tick i x).1 := by
  obtain ⟨t, hexec, hresponse, hbq, -⟩ := bqtick_writes i x s
  exact ⟨t, hexec, r0_of_response hresponse, by rw [hbq]; rfl⟩

/-! ### BQSET -/

/-- Settles O34: the instance's new contents are the five operands beside the old delay line. -/
theorem bqsetReplacesTheCoefficients : Obligations.BqsetReplacesTheCoefficients := by
  intro i j b0 b1 b2 a1 a2 s
  refine ⟨by cases i <;> exact decode_of_encode (i := .bqset ..) rfl rfl, ?_⟩
  obtain ⟨t, hexec, hresponse, hbq, hkept⟩ := bqset_writes i b0 b1 b2 a1 a2 s
  exact ⟨t, hexec, hresponse, by rw [hbq], by rw [hbq], hkept.others j, hkept.lfo, hkept.ind, hkept.hostSideKept,
    hkept.outputsKept, hkept.events⟩

/-- Settles O37: the instance is written with what it holds, and nothing else is written. -/
theorem repeatedBqsetChangesNothing : Obligations.RepeatedBqsetChangesNothing := by
  intro i s
  obtain ⟨t, hexec, -, hbq, hkept⟩ := bqset_writes i (s.bq i).coeffs.b0 (s.bq i).coeffs.b1 (s.bq i).coeffs.b2
    (s.bq i).coeffs.a1 (s.bq i).coeffs.a2 s
  have hsame (j : Inst) : t.bq j = s.bq j := by
    by_cases hj : j = i
    · rw [hj, hbq]
    · exact hkept.others j hj
  exact ⟨t, hexec, { hkept with hp := hsame .hp, lp := hsame .lp }⟩

/-! ### The difference equation -/

/-- The difference equation on words, in the rule's order of operations (42 R103). It uses no open function, so `eps` is no part
of it. -/
theorem output_binary32 (eps : ℚ) (c : Coeffs Word) (d : Delay Word) (x : Word) :
    Filter.output (Num.binary32 eps) c d x
      = sub (sub (add (add (mul c.b0 x) (mul c.b1 d.x1)) (mul c.b2 d.x2)) (mul c.a1 d.y1)) (mul c.a2 d.y2) := rfl

/-- The difference equation over the reals (42 R103). -/
theorem output_real (c : Coeffs ℝ) (d : Delay ℝ) (x : ℝ) : Filter.output Num.real c d x
    = c.b0 * x + c.b1 * d.x1 + c.b2 * d.x2 - c.a1 * d.y1 - c.a2 * d.y2 := rfl

/-- Settles O35: the answer is the formula's word, settled, and the new `Y1` is that answer. -/
theorem bqtickComputesTheDifferenceEquation : Obligations.BqtickComputesTheDifferenceEquation := by
  refine ⟨fun i j x u v w z s => ⟨by cases i <;> exact decode_of_encode (i := .bqtick ..) rfl rfl, ?_⟩, output_real⟩
  obtain ⟨t, hexec, hresponse, hbq, hkept⟩ := bqtick_writes i x s
  refine ⟨t, _, hexec, hresponse, ?_, by rw [hbq], by rw [hbq]; rfl, hkept.others j, hkept.lfo, hkept.ind,
    hkept.hostSideKept, hkept.outputsKept, hkept.events⟩
  rw [tick_value, output_binary32]
  exact agree_settle _ _

/-- Two ticks of instances with the same contents answer one formula's word, settled with different draws. -/
theorem agree_tick {s s' : State} (h : s.bq i = s'.bq i) (x : Word) : agree (s.tick i x).1 (s'.tick i x).1 := by
  rw [tick_value, tick_value, h, output_binary32, output_binary32]
  exact agree_settle_settle ..

/-- Settles O36: the answer and the new contents are formulas of the operands and the instance's old contents. -/
theorem biquadInstancesAreIsolated : Obligations.BiquadInstancesAreIsolated := by
  rintro i c (⟨b0, b1, b2, a1, a2, rfl⟩ | ⟨x, rfl⟩) s s' hsame
  · obtain ⟨t, hexec, hresponse, hbq, hkept⟩ := bqset_writes i b0 b1 b2 a1 a2 s
    obtain ⟨t', hexec', hresponse', hbq', -⟩ := bqset_writes i b0 b1 b2 a1 a2 s'
    have heq : t.bq i = t'.bq i := by rw [hbq, hbq', hsame]
    refine ⟨t, t', hexec, hexec', ?_, by rw [heq], by rw [heq], by rw [heq], by rw [heq]; exact agree_refl _, by rw [heq],
      hkept.others, hkept.lfo, hkept.ind, hkept.outputsKept, hkept.events⟩
    rw [r0_of_response hresponse, r0_of_response hresponse']
    exact agree_refl _
  · obtain ⟨t, hexec, hresponse, hbq, hkept⟩ := bqtick_writes i x s
    obtain ⟨t', hexec', hresponse', hbq', -⟩ := bqtick_writes i x s'
    refine ⟨t, t', hexec, hexec', ?_⟩
    rw [r0_of_response hresponse, r0_of_response hresponse', hbq, hbq', hsame]
    dsimp only [Filter.shiftIn]
    exact ⟨agree_tick hsame x, rfl, rfl, rfl, agree_tick hsame x, rfl, hkept.others, hkept.lfo, hkept.ind,
      hkept.outputsKept, hkept.events⟩

/-! ### The inert coefficients -/

section
variable {d : Delay Word} (hx1 : isFinite d.x1 = true) (hx2 : isFinite d.x2 = true) (hy1 : isFinite d.y1 = true)
  (hy2 : isFinite d.y2 = true) (eps : ℚ)
include hx1 hx2 hy1 hy2

/-- With the inert coefficients the output is the input, and four zeros added or subtracted (42 R104 (a)). -/
theorem output_inert {x : Word} (hx : isFinite x = true) : ∃ z1 z2 z3 z4 : Word,
    isZero z1 = true ∧ isZero z2 = true ∧ isZero z3 = true ∧ isZero z4 = true
      ∧ Filter.output (Num.binary32 eps) ⟨one, posZero, posZero, posZero, posZero⟩ d x = sub (sub (add (add x z1) z2) z3) z4 := by
  have hzero : isZero posZero = true := by decide
  refine ⟨_, _, _, _, isZero_mul hzero hx1, isZero_mul hzero hx2, isZero_mul hzero hy1, isZero_mul hzero hy2, ?_⟩
  rw [output_binary32, one_mul_eq hx]

theorem output_inert_eq {x : Word} (hx : isFinite x = true) (hne : x ≠ negZero) :
    Filter.output (Num.binary32 eps) ⟨one, posZero, posZero, posZero, posZero⟩ d x = x := by
  obtain ⟨z1, z2, z3, z4, hz1, hz2, hz3, hz4, heq⟩ := output_inert hx1 hx2 hy1 hy2 eps hx
  rw [heq, add_zero_eq hx hne hz1, add_zero_eq hx hne hz2, sub_zero_eq hx hne hz3, sub_zero_eq hx hne hz4]

theorem isZero_output_inert {x : Word} (hx : isZero x = true) :
    isZero (Filter.output (Num.binary32 eps) ⟨one, posZero, posZero, posZero, posZero⟩ d x) = true := by
  obtain ⟨z1, z2, z3, z4, hz1, hz2, hz3, hz4, heq⟩ := output_inert hx1 hx2 hy1 hy2 eps (isFinite_of_isZero hx)
  rw [heq]
  exact isZero_sub (isZero_sub (isZero_add (isZero_add hx hz1) hz2) hz3) hz4

end

/-- Settles O38: the four terms of the delay line are zeros, and a zero term changes no word but a negative zero. -/
theorem inertCoefficientsPassTheSignal : Obligations.InertCoefficientsPassTheSignal := by
  intro i x s hcoeffs hfinite
  simp only [List.forall_mem_cons, List.not_mem_nil, false_imp_iff, implies_true, and_true] at hfinite
  obtain ⟨hx, hx1, hx2, hy1, hy2⟩ := hfinite
  obtain ⟨t, hexec, hr0, -⟩ := bqtick_r0 i x s
  rw [tick_value, hcoeffs] at hr0
  refine ⟨t, hexec, fun hne => ?_, fun heq => ?_⟩
  · rw [hr0, output_inert_eq hx1 hx2 hy1 hy2 _ hx hne, settle_of_not_nan _ (isNaN_of_isFinite hx)]
  · have hzero := isZero_output_inert hx1 hx2 hy1 hy2 s.cfg.epsT (show isZero x = true by rw [heq]; decide)
    rw [hr0, settle_of_not_nan _ (isNaN_of_isZero hzero), hzero]

/-! ### A NaN term -/

/-- A NaN among the five products goes through every sum after it. -/
theorem isNaN_output (eps : ℚ) {c : Coeffs Word} {d : Delay Word} {x : Word}
    (h : isNaN (mul c.b0 x) = true ∨ isNaN (mul c.b1 d.x1) = true ∨ isNaN (mul c.b2 d.x2) = true
      ∨ isNaN (mul c.a1 d.y1) = true ∨ isNaN (mul c.a2 d.y2) = true) :
    isNaN (Filter.output (Num.binary32 eps) c d x) = true := by
  rw [output_binary32]
  rcases h with h | h | h | h | h
  · exact isNaN_sub (.inl (isNaN_sub (.inl (isNaN_add (.inl (isNaN_add (.inl h)))))))
  · exact isNaN_sub (.inl (isNaN_sub (.inl (isNaN_add (.inl (isNaN_add (.inr h)))))))
  · exact isNaN_sub (.inl (isNaN_sub (.inl (isNaN_add (.inr h)))))
  · exact isNaN_sub (.inl (isNaN_sub (.inr h)))
  · exact isNaN_sub (.inr h)

/-- Settles O39: a product with a NaN, and one of a zero and an infinity, is a NaN. -/
theorem nonFiniteHistoryPoisonsTheOutput : Obligations.NonFiniteHistoryPoisonsTheOutput := by
  intro i x s h
  obtain ⟨t, hexec, hr0, hy1⟩ := bqtick_r0 i x s
  have hproduct {c d : Word} (hcd : isNaN d = true ∨ (isZero c = true ∧ isInf d = true)) : isNaN (mul c d) = true :=
    hcd.elim (fun hd => isNaN_mul (.inr hd)) fun ⟨hc, hd⟩ => isNaN_mul_of_isZero_isInf hc hd
  have hnan : isNaN (s.tick i x).1 = true := by
    rw [tick_value, isNaN_settle]
    simp only [List.mem_cons, List.not_mem_nil, or_false, exists_eq_or_imp, exists_eq_left] at h
    exact isNaN_output _ (h.imp (fun hx => isNaN_mul (.inr hx)) (.imp hproduct (.imp hproduct (.imp hproduct hproduct))))
  exact ⟨t, hexec, by rw [hr0, hnan], by rw [hy1, hnan]⟩

end Sys2Proof.Machine
end

section
/-! The impulse response over the reals (42 R107): a quadratic form of two successive outputs falls with each tick, by the square
of the outputs' change over two ticks. -/

namespace Sys2Proof.Machine

/-- The energy of two successive outputs `v`, `u` of the recurrence `w = -a1 u - a2 v`. -/
def energy (a1 a2 u v : ℝ) : ℝ := (1 + a2) * (u ^ 2 + v ^ 2) + 2 * a1 * u * v

theorem energy_drop {a1 a2 u v w : ℝ} (hw : w = -a1 * u - a2 * v) :
    energy a1 a2 u v - energy a1 a2 w u = (1 - a2) * (w - v) ^ 2 := by
  rw [energy, energy, hw]
  ring

section
variable {a1 a2 : ℝ} (ha1 : |a1| < 1 + a2)
include ha1

/-- Inside the stability triangle the energy is a sum of two squares with positive factors. -/
theorem energy_nonneg (u v : ℝ) : 0 ≤ energy a1 a2 u v := by
  obtain ⟨hlow, hhigh⟩ := abs_lt.mp ha1
  have hsum : energy a1 a2 u v = (1 + a2 + a1) / 2 * (u + v) ^ 2 + (1 + a2 - a1) / 2 * (u - v) ^ 2 := by
    rw [energy]; ring
  have hplus : 0 ≤ (1 + a2 + a1) / 2 := by linarith
  have hminus : 0 ≤ (1 + a2 - a1) / 2 := by linarith
  rw [hsum]
  positivity

variable (ha2 : |a2| < 1) {y : ℕ → ℝ} (hy : ∀ n, y (n + 2) = -a1 * y (n + 1) - a2 * y n)
include ha2 hy

/-- The falling energies have a limit, so what is lost with each tick tends to 0. -/
theorem tendsto_change_zero : Filter.Tendsto (fun n => y (n + 2) - y n) Filter.atTop (nhds 0) := by
  have hfactor : 0 < 1 - a2 := sub_pos.mpr (abs_lt.mp ha2).2
  have hdrop (n : ℕ) := energy_drop (hy n)
  have hanti : Antitone fun n => energy a1 a2 (y (n + 1)) (y n) :=
    antitone_nat_of_succ_le fun n => sub_nonneg.mp (hdrop n ▸ mul_nonneg hfactor.le (sq_nonneg _))
  have hlim := tendsto_atTop_ciInf hanti ⟨0, by rintro _ ⟨n, rfl⟩; exact energy_nonneg ha1 _ _⟩
  have hlost := hlim.sub (hlim.comp (Filter.tendsto_add_atTop_nat 1))
  simp only [Function.comp_def, hdrop, sub_self] at hlost
  have hsq : Filter.Tendsto (fun n => (y (n + 2) - y n) ^ 2) Filter.atTop (nhds 0) := by
    simpa [hfactor.ne'] using hlost.const_mul (1 - a2)⁻¹
  refine (tendsto_zero_iff_abs_tendsto_zero _).mpr ?_
  simpa [Function.comp_def, Real.sqrt_sq_eq_abs] using hsq.sqrt

/-- The recurrence and its next line are two equations for `y n` and `y (n + 1)` whose right sides tend to 0. -/
theorem tendsto_zero_of_recurrence : Filter.Tendsto y Filter.atTop (nhds 0) := by
  have hchange := tendsto_change_zero ha1 ha2 hy
  have hdet : (1 + a2) ^ 2 - a1 ^ 2 ≠ 0 := by
    rw [← sq_abs a1]
    exact (sub_pos.mpr (pow_lt_pow_left₀ ha1 (abs_nonneg _) two_ne_zero)).ne'
  have hsolved (n : ℕ) : y n = ((1 + a2) ^ 2 - a1 ^ 2)⁻¹
      * ((a1 ^ 2 - (1 + a2)) * (y (n + 2) - y n) + a1 * (y (n + 3) - y (n + 1))) := by
    rw [eq_inv_mul_iff_mul_eq₀ hdet]
    linear_combination (1 + a2) * hy n - a1 * hy (n + 1)
  have hlim := ((hchange.const_mul (a1 ^ 2 - (1 + a2))).add
    ((hchange.comp (Filter.tendsto_add_atTop_nat 1)).const_mul a1)).const_mul ((1 + a2) ^ 2 - a1 ^ 2)⁻¹
  simpa [Function.comp_def, ← hsolved] using hlim

end

/-! ### The model's recurrence -/

/-- The delay line holds the last two inputs and the last two outputs (42 R103). -/
theorem delayAfter_add_two (c : Coeffs ℝ) (x : ℕ → ℝ) (n : ℕ) :
    delayAfter c x (n + 2) = ⟨x (n + 1), x n, outputAt c x (n + 1), outputAt c x n⟩ := rfl

theorem outputAt_add_two (c : Coeffs ℝ) (x : ℕ → ℝ) (n : ℕ) : outputAt c x (n + 2)
    = c.b0 * x (n + 2) + c.b1 * x (n + 1) + c.b2 * x n - c.a1 * outputAt c x (n + 1) - c.a2 * outputAt c x n := by
  rw [outputAt, delayAfter_add_two, output_real]

/-- Settles O40: from the third tick on the impulse has left the delay line, and the outputs follow the recurrence alone. -/
theorem realImpulseResponseDecays : Obligations.RealImpulseResponseDecays := by
  intro c ha2 ha1
  refine (Filter.tendsto_add_atTop_iff_nat 1).mp (tendsto_zero_of_recurrence ha1 ha2 fun n => ?_)
  rw [show n + 2 + 1 = n + 1 + 2 from rfl, outputAt_add_two]
  simp

end Sys2Proof.Machine
end

section
/-! Two channels through one delay line (42 R106, 44 R128): what one sample of a frame shifts into the two instances. -/

namespace Sys2Proof.Machine

/-- In Filtering a sample shifts the element of AIN into the high-pass, and the high-pass's answer into the low-pass (44 R128). -/
theorem frameSample_delays (n c : Nat) {s : State} (h : s.ind = true) : ∃ y z,
    (frameSample n c s).hp.delay = Filter.shiftIn s.hp.delay (s.inputs.ain.read (audioIndex s.cfg n c)) y
      ∧ (frameSample n c s).lp.delay = Filter.shiftIn s.lp.delay y z := by
  rw [frameSample, if_pos h]
  exact ⟨_, _, rfl, rfl⟩

/-- Settles O55: the two samples of the frame push the four older words out of each delay line. -/
theorem stereoSharesOneDelayLine : Obligations.StereoSharesOneDelayLine := by
  intro n s hind hnch
  have hframe : frame n s = frameSample n 1 (frameSample n 0 s) := by rw [frame, hnch]; rfl
  have hkept := seqKept_frameSample n 0 s
  obtain ⟨y, z, hhp, hlp⟩ := frameSample_delays n 0 hind
  obtain ⟨y', z', hhp', hlp'⟩ := frameSample_delays n 1 (hkept.ind.trans hind)
  rw [hframe, hhp', hlp', hhp, hlp, hkept.inputs, hkept.cfg]
  simp [Filter.shiftIn, audioIndex, hnch]

end Sys2Proof.Machine
end

section
/-! The floor of a finite word (43 R113): a whole number the format holds, so the one rounding of `floor` does not move it. -/

namespace Sys2Proof.Binary32

/-- Shifted up to 24 bits, a whole number of up to 24 bits is a significand. -/
theorem exists_magBits_eq {n : ℕ} (hn : n < 2 ^ 24) : ∃ m < infBits, magBits m = n * 2 ^ 149 := by
  rcases Nat.eq_zero_or_pos n with rfl | hpos
  · exact ⟨0, by norm_num [infBits], by simp [magBits]⟩
  have he : n.log2 ≤ 23 := Nat.le_of_lt_succ ((Nat.log2_lt hpos.ne').mpr hn)
  have hlow : 2 ^ n.log2 ≤ n := Nat.log2_self_le hpos.ne'
  have hhigh : n < 2 ^ (n.log2 + 1) := Nat.lt_log2_self
  generalize n.log2 = e at he hlow hhigh
  have hr1 : 2 ^ 23 ≤ n * 2 ^ (23 - e) := by
    calc 2 ^ 23 = 2 ^ e * 2 ^ (23 - e) := by rw [← pow_add, Nat.add_sub_cancel' he]
      _ ≤ n * 2 ^ (23 - e) := Nat.mul_le_mul_right _ hlow
  have hr2 : n * 2 ^ (23 - e) ≤ 2 ^ 24 := by
    calc n * 2 ^ (23 - e) ≤ 2 ^ (e + 1) * 2 ^ (23 - e) := Nat.mul_le_mul_right _ hhigh.le
      _ = 2 ^ 24 := by rw [← pow_add]; congr 1; omega
  refine ⟨(126 + e) * 2 ^ 23 + n * 2 ^ (23 - e), ?_, ?_⟩
  · simp only [infBits]
    omega
  · rw [magBits_add hr2 (.inr hr1), mul_assoc, ← pow_add]
    congr 2
    omega

theorem exists_word_of_int {k : ℤ} (hk : k.natAbs < 2 ^ 24) : ∃ v, isFinite v = true ∧ toRat v = k := by
  obtain ⟨m, hm, hvalue⟩ := exists_magBits_eq hk
  have hsign : (if decide (k < 0) then -1 else 1 : ℚ) * k.natAbs = k := by
    rw [Nat.cast_natAbs, Int.cast_abs]
    by_cases h : k < 0
    · simp [h, abs_of_neg (Int.cast_lt_zero.mpr h : (k : ℚ) < 0)]
    · simp [h, abs_of_nonneg (Int.cast_nonneg (not_lt.mp h) : (0 : ℚ) ≤ k)]
  refine ⟨pack (decide (k < 0)) m, isFinite_pack _ hm, ?_⟩
  rw [toRat_pack _ (hm.trans (by norm_num)), hvalue, Nat.cast_mul, ← mul_assoc, hsign, Nat.cast_pow, Nat.cast_ofNat,
    mul_div_cancel_right₀ _ (by positivity)]

section
variable {w : Word}

theorem floor_toRat (w : Word) : ⌊toRat w⌋ = units w / 2 ^ 149 := by
  rw [toRat]
  exact_mod_cast Rat.floor_intCast_div_natCast (units w) (2 ^ 149)

/-- From 2^23 up the unit in the last place is a whole number; below, the floor has no more than 24 bits. -/
theorem exists_word_of_floor (hw : isFinite w = true) : ∃ v, isFinite v = true ∧ toRat v = ⌊toRat w⌋ := by
  have hmag := magBits_dvd_or_lt (w.toNat % 2 ^ 31) 149
  rw [← mag_eq_magBits] at hmag
  rcases hmag with hdvd | hlt
  · have hunits : (2 : ℤ) ^ 149 ∣ units w := by
      rw [units_eq]
      exact Dvd.dvd.mul_left (by exact_mod_cast hdvd) _
    refine ⟨w, hw, ?_⟩
    rw [floor_toRat, Int.cast_div hunits (by positivity), toRat]
    norm_num
  · refine exists_word_of_int ?_
    rw [floor_toRat, units]
    split <;> omega

theorem floor_roundsTo (hw : isFinite w = true) : RoundsTo ⌊toRat w⌋ (floor w) := by
  by_cases h0 : isZero w = true
  · have hfloor : floor w = w := by rw [floor, if_neg (by simp [isNaN_of_isZero h0]), if_pos (by simp [h0])]
    have hvalue : toRat w = 0 := (toRat_eq_zero_iff w).mpr h0
    simpa [hfloor, hvalue] using roundsTo_self hw
  · have hround := round_units_roundsTo (units w / 2 ^ 149 * 2 ^ 149)
    have hsign : units w / 2 ^ 149 * 2 ^ 149 < 0 ↔ units w < 0 := by omega
    have hvalue : ((units w / 2 ^ 149 * 2 ^ 149 : ℤ) : ℚ) / 2 ^ 149 = ⌊toRat w⌋ := by
      rw [floor_toRat, Int.cast_mul, Int.cast_pow, Int.cast_ofNat, mul_div_cancel_right₀ _ (by positivity)]
    rw [hvalue, decide_eq_decide.mpr hsign, Int.natAbs_mul] at hround
    rwa [floor, if_neg (by simp [isNaN_of_isFinite hw]), if_neg (by simp [isInf_of_isFinite hw, h0])]

/-- Settles O16: the floor is a word's value, which rounding leaves alone. -/
theorem floorIsExact : Obligations.FloorIsExact := by
  intro w hw
  obtain ⟨v, hv, hvalue⟩ := exists_word_of_floor hw
  rw [← hvalue]
  exact RoundsTo.value_of_word (hvalue ▸ floor_roundsTo hw) hv

theorem inUnit_iff : inUnit w = true ↔ isFinite w = true ∧ 0 ≤ toRat w ∧ toRat w < 1 := by
  rw [inUnit, Bool.and_eq_true]
  constructor
  · rintro ⟨h0, h1⟩
    have hw := isFinite_of_between (by decide) isFinite_one h0 (wordLe_of_lt h1)
    rw [le_iff (by decide) hw, toRat_posZero] at h0
    rw [lt_iff hw isFinite_one, toRat_one] at h1
    exact ⟨hw, h0, h1⟩
  · rintro ⟨hw, h0, h1⟩
    rw [le_iff (by decide) hw, lt_iff hw isFinite_one, toRat_posZero, toRat_one]
    exact ⟨h0, h1⟩

/-- A zero over a number that is not zero is a zero. -/
theorem isZero_div {a : Word} (hw : isZero w = true) (ha : isFinite a = true) (ha0 : isZero a = false) :
    isZero (div w a) = true :=
  (toRat_eq_zero_iff _).mp
    (div_zero_value (isFinite_of_isZero hw) ((toRat_eq_zero_iff w).mpr hw) ha (by simp [toRat_eq_zero_iff, ha0])).2

theorem isZero_floor_of_inUnit (h : inUnit w = true) : isZero (floor w) = true := by
  obtain ⟨hw, h0, h1⟩ := inUnit_iff.mp h
  rw [← toRat_eq_zero_iff, (floorIsExact w hw).2, Int.floor_eq_zero_iff.mpr ⟨h0, h1⟩, Int.cast_zero]

end

end Sys2Proof.Binary32
end

section
/-! lfo_oscillator (spec 43): what LFORATE and LFOTICK answer and write, said once, the phase at rate 0, and the default waveform. -/

namespace Sys2Proof.Machine

open Binary32

variable {s t : State}

/-! ### What the two commands answer and write -/

/-- Of the registers only the LFO's may differ, and the command touched no port (43 R110). -/
structure OnlyLfo (s t : State) : Prop extends UnitKept s t where
  hp : t.hp = s.hp
  lp : t.lp = s.lp

/-- The command answers the one word `w`, status `OK`, and writes the LFO alone, which becomes `l` (43 R110). -/
def WritesLfo (i : Instr) (s : State) (w : Word) (l : Lfo) : Prop :=
  ∃ t, exec i s = .next t ∧ t.response = some (okResponse w 0#32 0#32 0#32 0#32) ∧ t.lfo = l ∧ OnlyLfo s t

theorem lforate_writes (hz : Word) (s : State) : WritesLfo (.lforate hz) s 0#32 ⟨s.lfo.phase, hz⟩ :=
  ⟨_, rfl, rfl, rfl, { exec_unitKept (i := .lforate hz) rfl nofun with hp := rfl, lp := rfl }⟩

/-- LFOTICK's answer: the waveform at the phase before the advance, settled (43 R113). -/
def lfoSample (s : State) : Word := settle s.draws (Oscillator.wave s.cfg.num s.cfg.lfoWave s.lfo.phase)

theorem lfoSample_agree (s : State) : agree (lfoSample s) (Oscillator.wave s.cfg.num s.cfg.lfoWave s.lfo.phase) :=
  agree_settle ..

/-- The phase LFOTICK leaves (43 R113). -/
def nextPhase (s : State) : Word :=
  Oscillator.wrap s.cfg.num (Oscillator.advanced s.cfg.num s.lfo.phase s.lfo.rate s.cfg.fsLfo)

theorem lfotick_writes (s : State) : WritesLfo .lfotick s (lfoSample s) ⟨nextPhase s, s.lfo.rate⟩ :=
  ⟨_, rfl, rfl, rfl, { exec_unitKept (i := .lfotick) rfl nofun with hp := rfl, lp := rfl }⟩

/-! ### LFORATE -/

/-- Settles O41: the LFO becomes its old phase beside the operand. -/
theorem lforateSetsTheRate : Obligations.LforateSetsTheRate := by
  intro hz u v w z s
  refine ⟨decode_of_encode (i := .lforate hz) rfl rfl, ?_⟩
  obtain ⟨t, hexec, hresponse, hlfo, hkept⟩ := lforate_writes hz s
  exact ⟨t, hexec, hresponse, by rw [hlfo], by rw [hlfo], hkept.hp, hkept.lp, hkept.ind, hkept.hostSideKept,
    hkept.outputsKept, hkept.events⟩

theorem exec_rate {i : Instr} (h : exec i s = .next t) (hi : ∀ hz, i ≠ .lforate hz) : t.lfo.rate = s.lfo.rate := by
  cases i with
  | lforate hz => exact absurd rfl (hi hz)
  | bqset i => cases h; exact congrArg Lfo.rate (setCoeffs_lfo ..)
  | bqtick i => cases h; exact congrArg Lfo.rate (tick_lfo ..)
  | render => cases h; exact (seqKept_renderBlock s.start).rate
  | _ => cases h; rfl

/-- Settles O44: no other command's writes reach the rate. -/
theorem onlyLforateChangesTheRate : Obligations.OnlyLforateChangesTheRate :=
  ⟨fun cfg => (freshFrom_resetWith cfg).rate, fun _ _ _ => exec_rate⟩

/-! ### LFOTICK -/

/-- The guard of the wrap is the phase's range (43 R113, 10 R25). -/
theorem wrap_binary32 (eps : ℚ) (p : Word) : Oscillator.wrap (Num.binary32 eps) p
    = if inUnit (sub p (floor p)) then sub p (floor p) else posZero := rfl

/-- Settles O42: the answer is the waveform's word, settled, and the new phase is the sum, wrapped and guarded. -/
theorem lfotickReturnsTheSampleAndAdvances : Obligations.LfotickReturnsTheSampleAndAdvances := by
  intro u v w y z s
  refine ⟨decode_of_encode (i := .lfotick) rfl rfl, ?_⟩
  obtain ⟨t, hexec, hresponse, hlfo, hkept⟩ := lfotick_writes s
  have hsample := lfoSample_agree s
  refine ⟨t, lfoSample s, hexec, hresponse, fun hwave => ?_, fun n hwave => ?_, ?_, by rw [hlfo], hkept.hp, hkept.lp,
    hkept.ind, hkept.hostSideKept, hkept.outputsKept, hkept.events⟩
  · rwa [hwave] at hsample
  · rwa [hwave] at hsample
  · rw [hlfo, nextPhase, wrap_binary32]
    simp only [inUnit, Bool.and_eq_true]
    rfl

/-- A phase in [0, 1) has a zero for its floor, so the wrap changes no phase but a negative zero. -/
theorem wrap_of_inUnit (eps : ℚ) {p : Word} (h : inUnit p = true) (hne : p ≠ negZero) :
    Oscillator.wrap (Num.binary32 eps) p = p := by
  rw [wrap_binary32, sub_zero_eq (inUnit_iff.mp h).1 hne (isZero_floor_of_inUnit h), if_pos h]

/-- Settles O45: the advance adds a zero, and the wrap takes one away. -/
theorem rateZeroHoldsThePhase : Obligations.RateZeroHoldsThePhase := by
  intro s hrate hfin hne0 hphase hne
  obtain ⟨t, hexec, -, hlfo, -⟩ := lfotick_writes s
  have hstep : isZero (div s.lfo.rate s.cfg.fsLfo) = true := isZero_div hrate hfin hne0
  have hsum : add s.lfo.phase (div s.lfo.rate s.cfg.fsLfo) = s.lfo.phase :=
    add_zero_eq (inUnit_iff.mp hphase).1 hne hstep
  have hnext : nextPhase s = s.lfo.phase := by
    calc nextPhase s = Oscillator.wrap s.cfg.num (add s.lfo.phase (div s.lfo.rate s.cfg.fsLfo)) := rfl
      _ = s.lfo.phase := by rw [hsum, wrap_of_inUnit _ hphase hne]
  exact ⟨t, hexec, by rw [hlfo, hnext]⟩

/-! ### The default waveform -/

theorem sine_binary32 (eps : ℚ) (p : Word) :
    Oscillator.sine (Num.binary32 eps) p = Elementary.sin eps (mul Config.twoPi p) := rfl

theorem inUnitBall_sine (eps : ℚ) {p : Word} (h : isFinite p = true) :
    Elementary.InUnitBall (Oscillator.sine (Num.binary32 eps) p) := by
  rw [sine_binary32]
  exact Elementary.inUnitBall_sin eps (mul_roundsTo (by decide) h).not_isNaN

theorem sine_posZero (eps : ℚ) : Oscillator.sine (Num.binary32 eps) posZero = posZero := by
  have hangle : mul Config.twoPi posZero = posZero := by decide
  rw [sine_binary32, hangle, Elementary.sin, if_neg (by decide), if_pos rfl]

/-- Settles O46: the angle is no NaN, so P3 bounds the sample, which is settled as it is; at phase 0 P4 fixes it. -/
theorem theDefaultSampleIsBounded : Obligations.TheDefaultSampleIsBounded := by
  intro s hwave hphase
  obtain ⟨t, hexec, hresponse, -⟩ := lfotick_writes s
  obtain ⟨hfin, hbound⟩ := inUnitBall_sine s.cfg.epsT (inUnit_iff.mp hphase).1
  have hr0 : t.r0 = Oscillator.sine s.cfg.num s.lfo.phase := by
    rw [r0_of_response hresponse, lfoSample, hwave]
    exact settle_of_not_nan _ (isNaN_of_isFinite hfin)
  refine ⟨t, hexec, ?_⟩
  rw [hr0]
  exact ⟨hfin, hbound, fun h0 => by rw [h0]; exact sine_posZero _⟩

end Sys2Proof.Machine
end

section
/-! sequencer (spec 44), the render loop: its turns as a sequence of states, one induction over the samples of a block, and where the
port events of a block take place. -/

namespace Sys2Proof.Machine

variable {s t : State}

/-! ### The loops -/

/-- A property that counts the turns of a counted loop holds after all of them. -/
theorem countUp_induct {P : Nat → State → Prop} {f : Nat → State → State} (n : Nat) (h0 : P 0 s)
    (hf : ∀ k < n, ∀ t, P k t → P (k + 1) (f k t)) : P n (countUp f n s) := by
  induction n with
  | zero => exact h0
  | succ n ih => exact hf n n.lt_succ_self _ (ih fun k hk => hf k (Nat.lt_succ_of_lt hk))

/-- Once the switch is latched, frame `n` of the loop asks for the control boundary as 44 R121 writes it. -/
theorem renderFrame_eq (h : SeqKept s t) (n : Nat) : renderFrame n t
    = frame n (if t.ind = true ∧ n % s.cfg.k = 0 then ctrlupd (n / s.cfg.k) t else t) := by
  simp [renderFrame, isBoundary, h.cfg]

/-- Settles O47: the states between the turns are those of the two counted loops. -/
theorem renderRunsTheLoop : Obligations.RenderRunsTheLoop := by
  refine ⟨fun u v w y z => decode_of_encode (i := .render) rfl rfl, fun s => ?_, fun n s => ?_⟩
  · refine ⟨fun n => countUp renderFrame n (blksw s.start), rfl, fun n => ?_, rfl⟩
    exact renderFrame_eq (seqKept_countUp n _ seqKept_renderFrame) n
  · exact ⟨fun c => countUp (frameSample n) c s, rfl, fun _ => rfl, rfl⟩

/-- Induction over a block: what `BLKSW` establishes, a control update keeps, and each sample takes one element further, holds at the
end of the block for all its elements (44 R121, R128). -/
theorem renderBlock_induct {P : Nat → State → Prop} (h0 : P 0 (blksw s))
    (hctrl : ∀ k a t, SeqKept (blksw s) t → t.ind = true → P a t → P a (ctrlupd k t))
    (hsample : ∀ n c t, n < s.cfg.nf → c < s.cfg.nch → SeqKept (blksw s) t → P (audioIndex s.cfg n c) t →
      P (audioIndex s.cfg n c + 1) (frameSample n c t)) : P (s.cfg.nf * s.cfg.nch) (renderBlock s) := by
  have hframe (n : Nat) (hn : n < s.cfg.nf) {u : State} (hu : SeqKept (blksw s) u) (hP : P (n * s.cfg.nch) u) :
      P ((n + 1) * s.cfg.nch) (frame n u) := by
    rw [frame, hu.cfg, Nat.succ_mul]
    exact (countUp_induct (P := fun c t => SeqKept (blksw s) t ∧ P (n * s.cfg.nch + c) t) _ ⟨hu, hP⟩ fun c hc t ⟨ht, hPt⟩ =>
      ⟨ht.trans (seqKept_frameSample n c t), hsample n c t hn hc ht hPt⟩).2
  refine (countUp_induct (P := fun n t => SeqKept (blksw s) t ∧ P (n * s.cfg.nch) t) s.cfg.nf
    ⟨SeqKept.refl _, by rwa [Nat.zero_mul]⟩ fun n hn t ⟨ht, hP⟩ => ⟨ht.trans (seqKept_renderFrame n t), ?_⟩).2
  rw [renderFrame]
  split
  · next hb => exact hframe n hn (ht.trans (seqKept_ctrlupd _ t)) (hctrl _ _ t ht (Bool.and_eq_true_iff.mp hb).1 hP)
  · exact hframe n hn ht hP

/-- Every element of the block's audio is one channel of one frame (20 R41). -/
theorem exists_audioIndex_eq {cfg : Cfg} {a : Nat} (h : a < cfg.nf * cfg.nch) :
    ∃ n c, n < cfg.nf ∧ c < cfg.nch ∧ a = audioIndex cfg n c :=
  have hpos : 0 < cfg.nch := Nat.pos_of_lt_mul_left h
  ⟨a / cfg.nch, a % cfg.nch, Nat.div_lt_of_lt_mul (by rwa [Nat.mul_comm]), Nat.mod_lt _ hpos, (Nat.div_add_mod' a cfg.nch).symm⟩

/-! ### Where the port events take place -/

/-- From `s` to `t` the port events at `places`, in this order, were added. -/
def EventsAt (places : List (Port × Nat)) (s t : State) : Prop :=
  ∃ es, t.events = s.events ++ es ∧ es.map PortEvent.place = places

theorem EventsAt.refl (s : State) : EventsAt [] s s := ⟨[], by simp, rfl⟩

theorem EventsAt.trans {ps qs : List (Port × Nat)} {u : State} (h : EventsAt ps s t) (h' : EventsAt qs t u) :
    EventsAt (ps ++ qs) s u := by
  obtain ⟨es, he, rfl⟩ := h
  obtain ⟨fs, hf, rfl⟩ := h'
  exact ⟨es ++ fs, by rw [hf, he, List.append_assoc], by simp⟩

/-- A counted loop adds the events of its turns, one turn after the other. -/
theorem eventsAt_countUp {f : Nat → State → State} {ps : Nat → List (Port × Nat)} (n : Nat) (s : State)
    (hf : ∀ k t, SeqKept s t → SeqKept t (f k t) ∧ EventsAt (ps k) t (f k t)) :
    EventsAt ((List.range n).flatMap ps) s (countUp f n s) := by
  refine (countUp_induct (P := fun k t => SeqKept s t ∧ EventsAt ((List.range k).flatMap ps) s t) n
    ⟨SeqKept.refl s, EventsAt.refl s⟩ fun k _ t ⟨hk, he⟩ => ?_).2
  obtain ⟨hk', he'⟩ := hf k t hk
  refine ⟨hk.trans hk', ?_⟩
  rw [List.range_succ, List.flatMap_append, List.flatMap_singleton]
  exact he.trans he'

/-- The places of a control update (20 R42). -/
def controlPlaces (t : Nat) : List (Port × Nat) := [(.cin, 3 * t), (.cin, 3 * t + 1), (.cin, 3 * t + 2)]

/-- The places of one frame (20 R41). -/
def framePlaces (cfg : Cfg) (n : Nat) : List (Port × Nat) :=
  (List.range cfg.nch).flatMap fun c => [(.ain, audioIndex cfg n c), (.aout, audioIndex cfg n c)]

/-- The places of frame `n` of the loop: a control update's on a boundary, and the frame's (44 R121). -/
def renderFramePlaces (cfg : Cfg) (filtering : Bool) (n : Nat) : List (Port × Nat) :=
  (if filtering && n % cfg.k == 0 then controlPlaces (n / cfg.k) else []) ++ framePlaces cfg n

/-- The schedule is the switch's two places and those of the frames. -/
theorem schedule_eq (cfg : Cfg) (filtering : Bool) : schedule cfg filtering
    = [(.swin, 0), (.indOut, 0)] ++ (List.range cfg.nf).flatMap (renderFramePlaces cfg filtering) := rfl

theorem eventsAt_ctrlupd (k : Nat) (s : State) : EventsAt (controlPlaces k) s (ctrlupd k s) :=
  ⟨_, ctrlupd_events k s, rfl⟩

theorem eventsAt_frameSample (n c : Nat) (s : State) :
    EventsAt [(.ain, audioIndex s.cfg n c), (.aout, audioIndex s.cfg n c)] s (frameSample n c s) := by
  obtain ⟨y, he, -⟩ := frameSample_io n c s
  exact ⟨_, he, rfl⟩

theorem eventsAt_frame (n : Nat) (s : State) : EventsAt (framePlaces s.cfg n) s (frame n s) :=
  eventsAt_countUp _ s fun c t ht => ⟨seqKept_frameSample n c t, ht.cfg ▸ eventsAt_frameSample n c t⟩

theorem eventsAt_renderFrame (n : Nat) (s : State) :
    EventsAt (renderFramePlaces s.cfg s.ind n) s (renderFrame n s) := by
  rw [renderFrame, renderFramePlaces, isBoundary]
  split
  · have hframe := eventsAt_frame n (ctrlupd (n / s.cfg.k) s)
    rw [(seqKept_ctrlupd _ s).cfg] at hframe
    exact (eventsAt_ctrlupd _ s).trans hframe
  · exact eventsAt_frame n s

/-- After `BLKSW` a block's port events take place frame by frame (44 R121). -/
theorem eventsAt_renderBlock (s : State) :
    EventsAt ((List.range s.cfg.nf).flatMap (renderFramePlaces s.cfg s.inputs.swin)) (blksw s) (renderBlock s) := by
  refine eventsAt_countUp s.cfg.nf (blksw s) fun n t ht => ⟨seqKept_renderFrame n t, ?_⟩
  have h := eventsAt_renderFrame n t
  rwa [ht.cfg, ht.ind] at h

/-- No frame touches the switch or the indicator, and CIN is touched in Filtering only (44 R122, R130). -/
theorem port_of_mem_renderFramePlaces {cfg : Cfg} {filtering : Bool} {n : Nat} {p : Port × Nat}
    (h : p ∈ renderFramePlaces cfg filtering n) : p.1 = .ain ∨ p.1 = .aout ∨ p.1 = .cin ∧ filtering = true := by
  rw [renderFramePlaces, List.mem_append] at h
  rcases h with h | h
  · split at h
    · next hb =>
      simp only [Bool.and_eq_true] at hb
      simp only [controlPlaces, List.mem_cons, List.not_mem_nil, or_false] at h
      rcases h with rfl | rfl | rfl <;> exact .inr (.inr ⟨rfl, hb.1⟩)
    · cases h
  · simp only [framePlaces, List.mem_flatMap, List.mem_cons, List.not_mem_nil, or_false] at h
    obtain ⟨c, -, rfl | rfl⟩ := h
    · exact .inl rfl
    · exact .inr (.inl rfl)

/-- The port events of RENDER: the switch's two, and those of the frames (44 R121, R122). -/
theorem render_events (s : State) : ∃ rest,
    (renderBlock s.start).events = [.readSwin 0 s.inputs.swin, .writeIndOut 0 s.inputs.swin] ++ rest
      ∧ rest.map PortEvent.place = (List.range s.cfg.nf).flatMap (renderFramePlaces s.cfg s.inputs.swin) :=
  eventsAt_renderBlock s.start

theorem port_of_mem_frameEvents {cfg : Cfg} {filtering : Bool} {rest : List PortEvent}
    (h : rest.map PortEvent.place = (List.range cfg.nf).flatMap (renderFramePlaces cfg filtering)) {e : PortEvent}
    (he : e ∈ rest) : e.place.1 = .ain ∨ e.place.1 = .aout ∨ e.place.1 = .cin ∧ filtering = true := by
  have hplace := List.mem_map_of_mem (f := PortEvent.place) he
  rw [h, List.mem_flatMap] at hplace
  obtain ⟨n, -, hn⟩ := hplace
  exact port_of_mem_renderFramePlaces hn

/-- Settles O48: `BLKSW` makes the first two events, and the frames' are on other ports. -/
theorem renderLatchesTheSwitch : Obligations.RenderLatchesTheSwitch := by
  intro s
  obtain ⟨rest, hevents, hplaces⟩ := render_events s
  have hkept := seqKept_renderBlock s.start
  refine ⟨_, rest, rfl, hkept.ind, hkept.indOut, hevents, fun e he => ?_⟩
  rcases port_of_mem_frameEvents hplaces he with hp | hp | ⟨hp, -⟩ <;> simp [hp]

end Sys2Proof.Machine
end

section
/-! sequencer (spec 44), what the port events of a block carry, and what a block leaves in AOUT and in the registers. -/

namespace Sys2Proof.Machine

variable {s t : State}

/-! ### Every event carries what its port holds -/

/-- After `a` samples of a block each event carries what its port holds, and the elements of AOUT written are those below `a`. -/
structure Traced (a : Nat) (t : State) : Prop where
  wf : t.aout.wf = true
  holds : ∀ e ∈ t.events, e.holdsIn t
  below : ∀ i v, PortEvent.writeAout i v ∈ t.events → i < a

/-- New readings of a port that is not written keep the record. -/
theorem Traced.of_reads {a : Nat} (ht : Traced a s) (hk : SeqKept s t) (ha : t.aout = s.aout) {es : List PortEvent}
    (he : t.events = s.events ++ es) (hes : ∀ e ∈ es, e.holdsIn t ∧ e.place.1 ≠ .aout) : Traced a t where
  wf := ha ▸ ht.wf
  holds := by
    rw [he]
    refine List.forall_mem_append.mpr ⟨fun e h => ?_, fun e h => (hes e h).1⟩
    have hold := ht.holds e h
    cases e <;> simpa only [PortEvent.holdsIn, hk.inputs, hk.indOut, ha] using hold
  below := fun i v h => by
    rw [he, List.mem_append] at h
    exact h.elim (ht.below i v) fun h => absurd rfl (hes _ h).2

theorem traced_blksw (h : s.aout.wf = true) (he : s.events = []) : Traced 0 (blksw s) where
  wf := h
  holds := by simp [he, PortEvent.holdsIn]
  below := by simp [he]

theorem Traced.ctrlupd {a : Nat} (ht : Traced a t) (k : Nat) : Traced a (ctrlupd k t) := by
  refine ht.of_reads (seqKept_ctrlupd k t) (ctrlupd_aout k t) (ctrlupd_events k t) ?_
  simp [PortEvent.holdsIn, PortEvent.place, (seqKept_ctrlupd k t).inputs]

/-- The element a sample writes is above all those written before, so no earlier event is overtaken (20 R48). -/
theorem Traced.frameSample {n c : Nat} (ht : Traced (audioIndex t.cfg n c) t) :
    Traced (audioIndex t.cfg n c + 1) (frameSample n c t) := by
  obtain ⟨y, he, ha⟩ := frameSample_io n c t
  have hk := seqKept_frameSample n c t
  refine ⟨ha ▸ Memory.write_wf _ y ht.wf, ?_, fun i v h => ?_⟩
  · rw [he]
    refine List.forall_mem_append.mpr ⟨fun e h => ?_, ?_⟩
    · have hold := ht.holds e h
      cases e with
      | writeAout i v =>
        have hi := ht.below i v h
        simpa only [PortEvent.holdsIn, ha, Memory.read_write_ne _ y hi.ne] using hold
      | _ => simpa only [PortEvent.holdsIn, hk.inputs, hk.indOut] using hold
    · simp [PortEvent.holdsIn, ha, hk.inputs, Memory.read_write_same _ y ht.wf]
  · simp only [he, List.mem_append, List.mem_cons, List.not_mem_nil, or_false, reduceCtorEq, false_or,
      PortEvent.writeAout.injEq] at h
    rcases h with h | ⟨rfl, -⟩
    · exact Nat.lt_succ_of_lt (ht.below i v h)
    · exact Nat.lt_succ_self _

theorem traced_renderBlock (h : s.aout.wf = true) (he : s.events = []) :
    Traced (s.cfg.nf * s.cfg.nch) (renderBlock s) :=
  renderBlock_induct (traced_blksw h he) (fun k _ _ _ _ ht => ht.ctrlupd k) fun n c t _ _ hk ht => by
    have hcfg : s.cfg = t.cfg := hk.cfg.symm
    rw [hcfg] at ht ⊢
    exact ht.frameSample

/-- Settles O49: the places are the schedule, and each event carries what its port holds. -/
theorem renderPortEventsFollowTheSchedule : Obligations.RenderPortEventsFollowTheSchedule := by
  intro s hwf
  obtain ⟨rest, hevents, hplaces⟩ := render_events s
  refine ⟨_, rfl, ?_, fun e he => ?_⟩
  · rw [answer_events, hevents, List.map_append, hplaces, schedule_eq]
    rfl
  · have hold := (traced_renderBlock (s := s.start) hwf rfl).holds e he
    cases e <;> exact hold

/-- Every element of the block's AOUT is written, and an event says with which word (44 R128). -/
theorem writeAout_mem_render_events (h : s.aout.wf = true) {k : Nat} (hk : k < s.cfg.nf * s.cfg.nch) :
    PortEvent.writeAout k ((renderBlock s.start).aout.read k) ∈ (renderBlock s.start).events := by
  have htraced := traced_renderBlock (s := s.start) h rfl
  obtain ⟨n, c, hn, hc, rfl⟩ := exists_audioIndex_eq hk
  obtain ⟨rest, hevents, hplaces⟩ := render_events s
  have hplace : (Port.aout, audioIndex s.cfg n c) ∈ rest.map PortEvent.place := by
    rw [hplaces]
    refine List.mem_flatMap.mpr ⟨n, List.mem_range.mpr hn, List.mem_append_right _ ?_⟩
    exact List.mem_flatMap.mpr ⟨c, List.mem_range.mpr hc, by simp⟩
  obtain ⟨e, he, heq⟩ := List.mem_map.mp hplace
  have hmem : e ∈ (renderBlock s.start).events := hevents ▸ List.mem_append_right _ he
  have hold := htraced.holds e hmem
  cases e <;> cases heq
  exact hold ▸ hmem

/-! ### Bypass -/

theorem frameSample_bypass (n c : Nat) (h : s.ind = false) : frameSample n c s
    = (s.readAin (audioIndex s.cfg n c)).2.writeAout (audioIndex s.cfg n c) (s.inputs.ain.read (audioIndex s.cfg n c)) := by
  simp [frameSample, h]

/-- After `a` samples of a Bypass block that began in `s` (44 R129, R130). -/
structure Copied (s : State) (a : Nat) (t : State) : Prop where
  hp : t.hp = s.hp
  lp : t.lp = s.lp
  lfo : t.lfo = s.lfo
  wf : t.aout.wf = true
  copy : ∀ k < a, t.aout.read k = s.inputs.ain.read k

theorem Copied.frameSample {n c : Nat} (hind : t.ind = false) (hin : t.inputs = s.inputs)
    (ht : Copied s (audioIndex t.cfg n c) t) : Copied s (audioIndex t.cfg n c + 1) (frameSample n c t) := by
  rw [frameSample_bypass n c hind]
  refine ⟨ht.hp, ht.lp, ht.lfo, Memory.write_wf _ _ ht.wf, fun k hk => ?_⟩
  rw [writeAout_aout, readAin_aout]
  rcases Nat.lt_succ_iff_lt_or_eq.mp hk with hk | rfl
  · rw [Memory.read_write_ne _ _ hk.ne, ht.copy k hk]
  · rw [Memory.read_write_same _ _ ht.wf, hin]

theorem copied_renderBlock (hsw : s.inputs.swin = false) (h : s.aout.wf = true) :
    Copied s (s.cfg.nf * s.cfg.nch) (renderBlock s) := by
  refine renderBlock_induct ⟨rfl, rfl, rfl, h, fun _ h => absurd h (Nat.not_lt_zero _)⟩ (fun k a t ht hind => ?_)
    fun n c t _ _ ht hP => ?_
  · rw [ht.ind, blksw_ind, hsw] at hind
    cases hind
  · have hcfg : s.cfg = t.cfg := ht.cfg.symm
    rw [hcfg] at hP ⊢
    exact hP.frameSample (ht.ind.trans hsw) ht.inputs

/-- Settles O50: a Bypass block copies sample by sample, and makes no control update. -/
theorem bypassCopiesAndFreezes : Obligations.BypassCopiesAndFreezes := by
  intro s hsw hwf
  obtain ⟨hp, lp, lfo, -, hcopy⟩ := copied_renderBlock (s := s.start) hsw hwf
  obtain ⟨rest, hevents, hplaces⟩ := render_events s
  have hkept := seqKept_renderBlock s.start
  refine ⟨_, rfl, hcopy, hp, lp, lfo, hkept.ind.trans hsw, hkept.indOut.trans hsw, ?_⟩
  rw [hsw] at hplaces
  rw [answer_events, hevents]
  refine List.forall_mem_append.mpr ⟨by simp [PortEvent.place], fun e he => ?_⟩
  rcases port_of_mem_frameEvents hplaces he with h | h | ⟨-, h⟩
  · simp [h]
  · simp [h]
  · cases h

/-! ### What a block leaves alone -/

theorem ctrlupd_lfo (k : Nat) (h : s.cfg.lfoWire = false) : (ctrlupd k s).lfo = s.lfo := by
  have hphase := (phaseStep_ctrlupd k s).resolve_right fun hw => by simp [h] at hw
  have hrate := (seqKept_ctrlupd k s).rate
  calc (ctrlupd k s).lfo = ⟨(ctrlupd k s).lfo.phase, (ctrlupd k s).lfo.rate⟩ := rfl
    _ = s.lfo := by rw [hphase, hrate]

/-- Elements outside the block are not written (44 R128). -/
theorem renderBlock_aout_outside {a : Nat} (ha : ∀ n c, n < s.cfg.nf → c < s.cfg.nch → a ≠ audioIndex s.cfg n c) :
    (renderBlock s).aout.read a = s.aout.read a := by
  refine renderBlock_induct (P := fun _ t => t.aout.read a = s.aout.read a) rfl (fun k _ t _ _ hP => ?_)
    fun n c t hn hc ht hP => ?_
  · rw [ctrlupd_aout, hP]
  · obtain ⟨y, -, haout⟩ := frameSample_io n c t
    rw [haout, ht.cfg, blksw_cfg, Memory.read_write_ne _ y (ha n c hn hc), hP]

/-- The LFO stands where the wiring point is not wired, or not reached (44 R126, R130). -/
theorem renderBlock_lfo (h : s.cfg.lfoWire = false ∨ s.inputs.swin = false) : (renderBlock s).lfo = s.lfo := by
  refine renderBlock_induct (P := fun _ t => t.lfo = s.lfo) rfl (fun k _ t ht hind hP => ?_)
    fun n c t _ _ _ hP => (frameSample_lfo n c t).trans hP
  rcases h with h | h
  · rw [ctrlupd_lfo k (by rw [ht.cfg, blksw_cfg, h]), hP]
  · rw [ht.ind, blksw_ind, h] at hind
    cases hind

/-- Settles O51: what each operation of the sequencer keeps, over the block. -/
theorem renderLeavesTheRestAlone : Obligations.RenderLeavesTheRestAlone := by
  intro s
  have hkept := seqKept_renderBlock s.start
  exact ⟨_, rfl, rfl, ⟨hkept.cfg, hkept.inputs, hkept.host⟩, hkept.rate, fun a => renderBlock_aout_outside (s := s.start),
    renderBlock_lfo (s := s.start)⟩

end Sys2Proof.Machine
end

section
/-! sequencer (spec 44), the unit commands inside RENDER: a control update and a sample do what the commands do, beside the response
and the port events; and what of a state RENDER does not look at. -/

namespace Sys2Proof.Machine

open Binary32

/-! ### A unit command is its operation, answered -/

/-- The state with another AOUT, last response, list of port events and list of the host's coming actions: all that RENDER writes or
keeps without looking at it (44 R131). -/
def State.amid (m : Memory) (r : Option Response) (es : List PortEvent) (h : List HostAction) (s : State) : State :=
  { s with aout := m, response := r, events := es, host := h }

/-- The state with another last response and other port events. -/
def State.reporting (r : Option Response) (es : List PortEvent) (s : State) : State := s.amid s.aout r es s.host

/-- The state after a command without port events that answered the one word `w`. -/
abbrev State.answering (w : Word) (s : State) : State := s.reporting (some (okResponse w 0#32 0#32 0#32 0#32)) []

/-- The state after a command that answered the five words of `c`. -/
abbrev State.answeringCoeffs (c : Coeffs Word) (s : State) : State :=
  s.reporting (some (okResponse c.b0 c.b1 c.b2 c.a1 c.a2)) []

section
variable (s : State) (r : Option Response) (es : List PortEvent)

theorem exec_maplin_reporting (raw rawMin rawMax outMin outMax : Word) :
    exec (.maplin raw rawMin rawMax outMin outMax) (s.reporting r es) = .next
      ((s.mapLinear raw rawMin rawMax outMin outMax).2.answering (s.mapLinear raw rawMin rawMax outMin outMax).1) := rfl

theorem exec_nn2hz_reporting (nn : Word) :
    exec (.nn2hz nn) (s.reporting r es) = .next ((s.noteToHz nn).2.answering (s.noteToHz nn).1) := rfl

theorem exec_lpfreq_reporting (baseHz widthHz : Word) :
    exec (.lpfreq baseHz widthHz) (s.reporting r es) = .next (s.answering (Mapper.lpFreqWord s.cfg baseHz widthHz)) := rfl

theorem exec_lfotick_reporting :
    exec .lfotick (s.reporting r es) = .next (s.lfoTick.2.answering s.lfoTick.1) := rfl

theorem exec_chp_reporting (freqHz q fs : Word) :
    exec (.chp freqHz q fs) (s.reporting r es) = .next
      ((s.highPass freqHz q fs).2.answeringCoeffs (s.highPass freqHz q fs).1) := rfl

theorem exec_clp_reporting (freqHz q fs : Word) :
    exec (.clp freqHz q fs) (s.reporting r es) = .next
      ((s.lowPass freqHz q fs).2.answeringCoeffs (s.lowPass freqHz q fs).1) := rfl

theorem exec_bqset_reporting (i : Inst) (b0 b1 b2 a1 a2 : Word) :
    exec (.bqset i b0 b1 b2 a1 a2) (s.reporting r es) = .next ((s.setCoeffs i ⟨b0, b1, b2, a1, a2⟩).answering 0#32) := by
  cases i <;> rfl

theorem exec_bqtick_reporting (i : Inst) (x : Word) :
    exec (.bqtick i x) (s.reporting r es) = .next ((s.tick i x).2.answering (s.tick i x).1) := by
  cases i <;> rfl

end

/-! ### The wiring point -/

theorem modulateBase_of_unwired (base : Word) {s : State} (h : s.cfg.lfoWire = false) : modulateBase base s = (base, s) := by
  simp [modulateBase, h]

theorem modulateBase_of_wired (base : Word) {s : State} (h : s.cfg.lfoWire = true) : modulateBase base s
    = (Oscillator.modulate s.cfg.modFn base s.lfoTick.1, s.lfoTick.2) := by
  simp [modulateBase, h]

/-- Settles O53: the state at the wiring point is LFOTICK's, but for the response and the port events. -/
theorem theWiringPointTicksTheLfo : Obligations.TheWiringPointTicksTheLfo := by
  intro base s
  refine ⟨modulateBase_of_unwired base, fun hw => ⟨_, exec_lfotick_reporting s s.response s.events, ?_⟩⟩
  rw [modulateBase_of_wired base hw]
  exact ⟨rfl, fun hmod => by rw [hmod]; rfl, fun n hmod => by rw [hmod]; rfl⟩

/-! ### A sample of a frame -/

/-- Settles O54: the state after the sample is that of the two ticks, with the sample's own port events and its write. -/
theorem frameSampleIsTwoTicksInSeries : Obligations.FrameSampleIsTwoTicksInSeries := by
  intro n c s hind
  refine ⟨_, _, exec_bqtick_reporting s s.response s.events .hp _, exec_bqtick_reporting _ _ _ .lp _, ?_⟩
  rw [frameSample, if_pos hind]
  refine ⟨rfl, rfl, rfl, rfl, rfl, rfl, ?_⟩
  rw [writeAout_events, tick_events, tick_events, readAin_events, List.append_assoc]
  rfl

/-! ### A control update -/

section
variable (raw : Word × Word × Word) (s : State)

/-- CTRLUPD's `nn`, and the state MAPLIN leaves (44 R124). -/
def noteOf : Word × State := s.mapLinear raw.1 s.cfg.rawMin s.cfg.rawMax s.cfg.nnLo s.cfg.nnHi

/-- CTRLUPD's `base` before the wiring point, and the state NN2HZ leaves (44 R124). -/
def pitchOf : Word × State := (noteOf raw s).2.noteToHz (noteOf raw s).1

/-- CTRLUPD's `width`, and the state MAPLIN leaves (44 R124). -/
def widthOf : Word × State := (pitchOf raw s).2.mapLinear raw.2.1 s.cfg.rawMin s.cfg.rawMax s.cfg.wLo s.cfg.wHi

/-- CTRLUPD's `q`, and the state MAPLIN leaves (44 R124). -/
def qOf : Word × State := (widthOf raw s).2.mapLinear raw.2.2 s.cfg.rawMin s.cfg.rawMax s.cfg.qLo s.cfg.qHi

/-- CTRLUPD's `base` after the wiring point, and the state there (44 R126). -/
def baseOf : Word × State := modulateBase (pitchOf raw s).1 (qOf raw s).2

theorem mapControls_eq : mapControls raw s
    = (((baseOf raw s).1, Mapper.lpFreqWord s.cfg (baseOf raw s).1 (widthOf raw s).1, (qOf raw s).1), (baseOf raw s).2) := rfl

theorem noteOf_value : (noteOf raw s).1 = settle s.draws
    (Mapper.mapLinearWord s.cfg.num raw.1 s.cfg.rawMin s.cfg.rawMax s.cfg.nnLo s.cfg.nnHi) := rfl

theorem pitchOf_value : (pitchOf raw s).1 = settle (s.draws + 1) (Mapper.noteToHzWord s.cfg (noteOf raw s).1) := rfl

theorem widthOf_value : (widthOf raw s).1 = settle (s.draws + 2)
    (Mapper.mapLinearWord s.cfg.num raw.2.1 s.cfg.rawMin s.cfg.rawMax s.cfg.wLo s.cfg.wHi) := rfl

theorem qOf_value : (qOf raw s).1 = settle (s.draws + 3)
    (Mapper.mapLinearWord s.cfg.num raw.2.2 s.cfg.rawMin s.cfg.rawMax s.cfg.qLo s.cfg.qHi) := rfl

/-- Without the wiring point the base frequency is NN2HZ's (44 R126). -/
theorem baseOf_of_unwired (h : s.cfg.lfoWire = false) : (baseOf raw s).1 = (pitchOf raw s).1 := by
  rw [baseOf, modulateBase_of_unwired _ (show (qOf raw s).2.cfg.lfoWire = false from h)]

end

/-- The three readings of control tick `t` (20 R42). -/
def readings (t : Nat) (s : State) : Word × Word × Word :=
  (s.inputs.cin.read (3 * t), s.inputs.cin.read (3 * t + 1), s.inputs.cin.read (3 * t + 2))

/-- The port events of control tick `t` (44 R124). -/
def controlReads (t : Nat) (s : State) : List PortEvent :=
  [.readCin (3 * t) (readings t s).1, .readCin (3 * t + 1) (readings t s).2.1, .readCin (3 * t + 2) (readings t s).2.2]

section
variable (s : State) (m : Memory) (r : Option Response) (es : List PortEvent) (h : List HostAction)

/-- The wiring point looks at the parameters, the LFO and the counter of free values (44 R126). -/
theorem modulateBase_amid (base : Word) :
    modulateBase base (s.amid m r es h) = ((modulateBase base s).1, (modulateBase base s).2.amid m r es h) := by
  cases hw : s.cfg.lfoWire
  · rw [modulateBase_of_unwired base hw, modulateBase_of_unwired base (s := s.amid m r es h) hw]
  · rw [modulateBase_of_wired base hw, modulateBase_of_wired base (s := s.amid m r es h) hw]
    rfl

theorem mapControls_amid (raw : Word × Word × Word) :
    mapControls raw (s.amid m r es h) = ((mapControls raw s).1, (mapControls raw s).2.amid m r es h) := by
  have hbase : baseOf raw (s.amid m r es h) = ((baseOf raw s).1, (baseOf raw s).2.amid m r es h) :=
    modulateBase_amid (qOf raw s).2 m r es h (pitchOf raw s).1
  rw [mapControls_eq, mapControls_eq, hbase]
  rfl

theorem readControls_amid (t : Nat) :
    readControls t (s.amid m r es h) = (readings t s, s.amid m r (es ++ controlReads t s) h) := by
  have happend : es ++ controlReads t s = (readControls t (s.amid m r es h)).2.events := by
    simp [readControls, controlReads, readings, controlIndex, Config.nctrl, State.amid]
  rw [happend]
  rfl

/-- A control update maps its three readings and pushes both coefficient sets, and adds its port events (44 R124). -/
theorem ctrlupd_amid (t : Nat) : ctrlupd t (s.amid m r es h)
    = (pushCoeffs (mapControls (readings t s) s).1 (mapControls (readings t s) s).2).amid m r (es ++ controlReads t s) h := by
  rw [ctrlupd, readControls_amid, mapControls_amid]
  rfl

end

theorem ctrlupd_eq (t : Nat) (s : State) : ctrlupd t s
    = (pushCoeffs (mapControls (readings t s) s).1 (mapControls (readings t s) s).2).amid s.aout s.response
      (s.events ++ controlReads t s) s.host :=
  ctrlupd_amid s s.aout s.response s.events s.host t

theorem mapControls_cfg (raw : Word × Word × Word) (s : State) : (mapControls raw s).2.cfg = s.cfg :=
  (seqKept_mapControls raw s).cfg

/-- CHP, CLP and the two BQSETs leave what the control update's last part leaves (44 R124, R125). -/
theorem exec_pushCoeffs (baseHz lpHz q : Word) (s : State) (r : Option Response) (es : List PortEvent) : ∃ s1 s2 s3,
    exec (.chp baseHz q s.cfg.fs) (s.reporting r es) = .next s1 ∧ exec (.clp lpHz q s.cfg.fs) s1 = .next s2
      ∧ exec (.bqset .hp s1.coeffs.b0 s1.coeffs.b1 s1.coeffs.b2 s1.coeffs.a1 s1.coeffs.a2) s2 = .next s3
      ∧ exec (.bqset .lp s2.coeffs.b0 s2.coeffs.b1 s2.coeffs.b2 s2.coeffs.a1 s2.coeffs.a2) s3
        = .next ((pushCoeffs (baseHz, lpHz, q) s).answering 0#32) :=
  ⟨_, _, _, exec_chp_reporting .., exec_clp_reporting .., exec_bqset_reporting .., exec_bqset_reporting ..⟩

/-- The wiring point runs LFOTICK where it is wired, and is nothing otherwise (44 R126). -/
theorem modulateBase_reporting (base w : Word) (s : State) : ∃ r,
    (s.cfg.lfoWire = false → (modulateBase base s).2.reporting r [] = s.answering w ∧ (modulateBase base s).1 = base)
    ∧ (s.cfg.lfoWire = true → exec .lfotick (s.answering w) = .next ((modulateBase base s).2.reporting r [])
      ∧ (s.cfg.modFn = .keepBase → (modulateBase base s).1 = base)
      ∧ ∀ n, s.cfg.modFn = .other n →
        (modulateBase base s).1 = Config.otherMod n base ((modulateBase base s).2.reporting r []).r0) := by
  cases hw : s.cfg.lfoWire
  · rw [modulateBase_of_unwired base hw]
    exact ⟨_, fun _ => ⟨rfl, rfl⟩, nofun⟩
  · rw [modulateBase_of_wired base hw]
    refine ⟨_, nofun, fun _ => ⟨exec_lfotick_reporting .., fun hmod => ?_, fun n hmod => ?_⟩⟩ <;> rw [hmod] <;> rfl

/-- Settles O52: each command, run on the state the ones before it left, does what the operation of the control update does. -/
theorem controlUpdateIsItsCommandSequence : Obligations.ControlUpdateIsItsCommandSequence := by
  intro t s
  have hcfg : (baseOf (readings t s) s).2.cfg = s.cfg := mapControls_cfg (readings t s) s
  obtain ⟨r, hunwired, hwired⟩ := modulateBase_reporting (pitchOf (readings t s) s).1 (qOf (readings t s) s).1 (qOf (readings t s) s).2
  have hlp := exec_lpfreq_reporting (baseOf (readings t s) s).2 r [] (baseOf (readings t s) s).1 (widthOf (readings t s) s).1
  obtain ⟨s7, s8, s9, hchp, hclp, hset, hset'⟩ := exec_pushCoeffs (baseOf (readings t s) s).1
    (Mapper.lpFreqWord s.cfg (baseOf (readings t s) s).1 (widthOf (readings t s) s).1) (qOf (readings t s) s).1
    (baseOf (readings t s) s).2 _ []
  rw [hcfg] at hlp hchp hclp
  refine ⟨(noteOf (readings t s) s).2.answering (noteOf (readings t s) s).1, _, _, _,
    (baseOf (readings t s) s).2.reporting r [], _, s7, s8, s9, _, (baseOf (readings t s) s).1,
    exec_maplin_reporting s s.response s.events .., exec_nn2hz_reporting .., exec_maplin_reporting ..,
    exec_maplin_reporting .., hunwired, hwired, hlp, hchp, hclp, hset, hset', ?_⟩
  rw [ctrlupd_eq]
  exact ⟨rfl, rfl, rfl, rfl, (mapKept_mapControls (readings t s) s).aout.symm, rfl, rfl⟩

/-! ### The same controls give the same coefficients -/

theorem agree_settle_of_agree {v w : Word} (h : agree v w) (m n : Nat) : agree (settle m v) (settle n w) :=
  agree_trans (agree_settle m v) (agree_trans h (agree_symm (agree_settle n w)))

theorem coeffsAgree_settleCoeffs_of_agree {c d : Coeffs Word} (h : CoeffsAgree c d) (m n : Nat) :
    CoeffsAgree (settleCoeffs m c) (settleCoeffs n d) :=
  ⟨agree_settle_of_agree h.b0 .., agree_settle_of_agree h.b1 .., agree_settle_of_agree h.b2 ..,
    agree_settle_of_agree h.a1 .., agree_settle_of_agree h.a2 ..⟩

/-- A NaN note gives a NaN pitch whatever its bits (40 R84). -/
theorem agree_noteToHzWord (cfg : Cfg) {nn nn' : Word} (h : agree nn nn') :
    agree (Mapper.noteToHzWord cfg nn) (Mapper.noteToHzWord cfg nn') := by
  have isNaN_pitch {w : Word} (hw : isNaN w = true) : isNaN (Mapper.noteToHzWord cfg w) = true := by
    rw [noteToHzWord_eq, Elementary.exp2_of_isNaN _ (isNaN_div (.inl (isNaN_sub (.inl hw))))]
    exact isNaN_mul (.inr isNaN_nan)
  rcases h with rfl | ⟨hn, hn'⟩
  · exact agree_refl _
  · exact .inr ⟨isNaN_pitch hn, isNaN_pitch hn'⟩

/-- A NaN among the terms gives the ceiling whatever its bits (40 R86). -/
theorem lpFreqWord_of_agree (cfg : Cfg) {b b' w w' : Word} (hb : agree b b') (hw : agree w w') :
    Mapper.lpFreqWord cfg b w = Mapper.lpFreqWord cfg b' w' := by
  have ceil_of_nan {x y : Word} (h : isNaN x = true ∨ isNaN y = true) : Mapper.lpFreqWord cfg x y = cfg.lpCeil :=
    lpFreqWord_of_not_lt (lt_of_isNaN_left (isNaN_add h) _)
  rcases hb with rfl | ⟨hn, hn'⟩
  · rcases hw with rfl | ⟨hn, hn'⟩
    · rfl
    · rw [ceil_of_nan (.inr hn), ceil_of_nan (.inr hn')]
  · rw [ceil_of_nan (.inl hn), ceil_of_nan (.inl hn')]

/-- A NaN operand makes every result a NaN (41 R95 (h)). -/
theorem coeffsAgree_of_isNaN (eps : ℚ) {f q f' q' fs : Word} (h : ∃ w ∈ [f, q, fs], isNaN w = true)
    (h' : ∃ w ∈ [f', q', fs], isNaN w = true) :
    CoeffsAgree (Coeff.highPassWord (Num.binary32 eps) f q fs) (Coeff.highPassWord (Num.binary32 eps) f' q' fs)
      ∧ CoeffsAgree (Coeff.lowPassWord (Num.binary32 eps) f q fs) (Coeff.lowPassWord (Num.binary32 eps) f' q' fs) := by
  have hagree (x x' : Word) : agree (div x (Coeff.a0 (Num.binary32 eps) f q fs)) (div x' (Coeff.a0 (Num.binary32 eps) f' q' fs)) :=
    .inr ⟨isNaN_div_a0 eps h x, isNaN_div_a0 eps h' x'⟩
  rw [highPassWord_of_evaluated _ (evaluated_of_isNaN h), highPassWord_of_evaluated _ (evaluated_of_isNaN h'),
    lowPassWord_of_evaluated _ (evaluated_of_isNaN h), lowPassWord_of_evaluated _ (evaluated_of_isNaN h')]
  exact ⟨⟨hagree .., hagree .., hagree .., hagree .., hagree ..⟩, ⟨hagree .., hagree .., hagree .., hagree .., hagree ..⟩⟩

/-- Operands that agree give coefficient sets that agree, inside the contract and outside it (41 R90). -/
theorem coeffsAgree_of_agree (eps : ℚ) {f q f' q' : Word} (hf : agree f f') (hq : agree q q') (fs : Word) :
    CoeffsAgree (Coeff.highPassWord (Num.binary32 eps) f q fs) (Coeff.highPassWord (Num.binary32 eps) f' q' fs)
      ∧ CoeffsAgree (Coeff.lowPassWord (Num.binary32 eps) f q fs) (Coeff.lowPassWord (Num.binary32 eps) f' q' fs) := by
  rcases hf with rfl | ⟨hn, hn'⟩
  · rcases hq with rfl | ⟨hn, hn'⟩
    · exact ⟨⟨agree_refl _, agree_refl _, agree_refl _, agree_refl _, agree_refl _⟩,
        agree_refl _, agree_refl _, agree_refl _, agree_refl _, agree_refl _⟩
    · exact coeffsAgree_of_isNaN eps ⟨q, by simp, hn⟩ ⟨q', by simp, hn'⟩
  · exact coeffsAgree_of_isNaN eps ⟨f, by simp, hn⟩ ⟨f', by simp, hn'⟩

/-- Of the same readings and parameters the mapped frequencies and Q agree, and LPFREQ, which makes no NaN, answers one
word (40 R80). -/
theorem mapControls_agree (raw : Word × Word × Word) {s s' : State} (hcfg : s.cfg = s'.cfg) (hw : s.cfg.lfoWire = false) :
    agree (mapControls raw s).1.1 (mapControls raw s').1.1
      ∧ (mapControls raw s).1.2.1 = (mapControls raw s').1.2.1
      ∧ agree (mapControls raw s).1.2.2 (mapControls raw s').1.2.2 := by
  have hnote : agree (noteOf raw s).1 (noteOf raw s').1 := by
    rw [noteOf_value, noteOf_value, hcfg]
    exact agree_settle_settle ..
  have hwidth : agree (widthOf raw s).1 (widthOf raw s').1 := by
    rw [widthOf_value, widthOf_value, hcfg]
    exact agree_settle_settle ..
  have hq : agree (qOf raw s).1 (qOf raw s').1 := by
    rw [qOf_value, qOf_value, hcfg]
    exact agree_settle_settle ..
  have hbase : agree (baseOf raw s).1 (baseOf raw s').1 := by
    rw [baseOf_of_unwired raw s hw, baseOf_of_unwired raw s' (hcfg ▸ hw), pitchOf_value, pitchOf_value, hcfg]
    exact agree_settle_of_agree (agree_noteToHzWord _ hnote) ..
  rw [mapControls_eq, mapControls_eq]
  exact ⟨hbase, hcfg ▸ lpFreqWord_of_agree s.cfg hbase hwidth, hq⟩

/-- What a control update loads into the two filters (44 R125). -/
theorem ctrlupd_coeffs (t : Nat) (s : State) : ∃ n,
    (ctrlupd t s).hp.coeffs = settleCoeffs n (Coeff.highPassWord s.cfg.num (mapControls (readings t s) s).1.1
      (mapControls (readings t s) s).1.2.2 s.cfg.fs)
    ∧ (ctrlupd t s).lp.coeffs = settleCoeffs (n + 4) (Coeff.lowPassWord s.cfg.num (mapControls (readings t s) s).1.2.1
      (mapControls (readings t s) s).1.2.2 s.cfg.fs) := by
  refine ⟨(mapControls (readings t s) s).2.draws, ?_⟩
  rw [ctrlupd_eq, ← mapControls_cfg (readings t s) s]
  exact ⟨rfl, rfl⟩

/-- Settles O57: the mapped parameters agree, and so do the coefficient sets of operands that agree. -/
theorem sameControlsGiveTheSameCoefficients : Obligations.SameControlsGiveTheSameCoefficients := by
  intro t t' s s' hcfg hw hcin
  have hraw : readings t' s' = readings t s :=
    Prod.ext (hcin 0 (by omega)).symm (Prod.ext (hcin 1 (by omega)).symm (hcin 2 (by omega)).symm)
  obtain ⟨n, hhp, hlp⟩ := ctrlupd_coeffs t s
  obtain ⟨n', hhp', hlp'⟩ := ctrlupd_coeffs t' s'
  obtain ⟨hbase, hlpHz, hq⟩ := mapControls_agree (readings t s) hcfg hw
  rw [hhp, hlp, hhp', hlp', hraw, ← hcfg]
  exact ⟨coeffsAgree_settleCoeffs_of_agree (coeffsAgree_of_agree _ hbase hq _).1 ..,
    coeffsAgree_settleCoeffs_of_agree (coeffsAgree_of_agree _ (.inl hlpHz) hq _).2 ..⟩

/-! ### What RENDER does not look at -/

/-- The two states differ at most in AOUT, the response and the host's coming actions (44 R131). -/
def SameRun (s s' : State) : Prop := ∃ m r h, s' = s.amid m r s.events h

/-- Two counted loops whose turns keep two states alike keep them alike. -/
theorem countUp_sameRun {f : Nat → State → State} (hf : ∀ k s s', SameRun s s' → SameRun (f k s) (f k s')) (n : Nat)
    {s s' : State} (h : SameRun s s') : SameRun (countUp f n s) (countUp f n s') := by
  induction n with
  | zero => exact h
  | succ n ih => exact hf n _ _ ih

theorem sameRun_ctrlupd (k : Nat) (s s' : State) : SameRun s s' → SameRun (ctrlupd k s) (ctrlupd k s') := by
  rintro ⟨m, r, h, rfl⟩
  exact ⟨m, r, h, by rw [ctrlupd_amid, ctrlupd_eq]; rfl⟩

theorem sameRun_frameSample (n c : Nat) (s s' : State) : SameRun s s' → SameRun (frameSample n c s) (frameSample n c s') := by
  rintro ⟨m, r, h, rfl⟩
  unfold frameSample
  rw [show (s.amid m r s.events h).ind = s.ind from rfl]
  split <;> exact ⟨_, r, h, rfl⟩

theorem SameRun.cfg {s s' : State} : SameRun s s' → s'.cfg = s.cfg := by
  rintro ⟨m, r, h, rfl⟩
  rfl

theorem sameRun_frame (n : Nat) (s s' : State) (h : SameRun s s') : SameRun (frame n s) (frame n s') := by
  rw [frame, frame, h.cfg]
  exact countUp_sameRun (sameRun_frameSample n) _ h

theorem sameRun_renderFrame (n : Nat) (s s' : State) (h : SameRun s s') : SameRun (renderFrame n s) (renderFrame n s') := by
  have hb : isBoundary n s' = isBoundary n s := by
    obtain ⟨m, r, l, rfl⟩ := h
    rfl
  rw [renderFrame, renderFrame, hb, h.cfg]
  split
  · exact sameRun_frame n _ _ (sameRun_ctrlupd _ _ _ h)
  · exact sameRun_frame n _ _ h

/-- Settles O58: the latch and the indicator are written first, so the two runs differ in AOUT, response and host alone, and every
element of the block's AOUT is told by an event. -/
theorem renderHasNoOtherInput : Obligations.RenderHasNoOtherInput := by
  intro s s' hcfg hhp hlp hlfo hin hdraws
  have hstart : SameRun (blksw s.start) (blksw s'.start) := by
    refine ⟨s'.aout, s'.response, s'.host, ?_⟩
    cases s
    cases s'
    cases hcfg; cases hhp; cases hlp; cases hlfo; cases hin; cases hdraws
    rfl
  have hrun : SameRun (renderBlock s.start) (renderBlock s'.start) := by
    rw [renderBlock, renderBlock, start_cfg, start_cfg, ← hcfg]
    exact countUp_sameRun sameRun_renderFrame _ hstart
  have hsame : (renderBlock s'.start).hp = (renderBlock s.start).hp ∧ (renderBlock s'.start).lp = (renderBlock s.start).lp
      ∧ (renderBlock s'.start).lfo = (renderBlock s.start).lfo ∧ (renderBlock s'.start).ind = (renderBlock s.start).ind
      ∧ (renderBlock s'.start).indOut = (renderBlock s.start).indOut
      ∧ (renderBlock s'.start).events = (renderBlock s.start).events := by
    obtain ⟨m, r, h, heq⟩ := hrun
    rw [heq]
    exact ⟨rfl, rfl, rfl, rfl, rfl, rfl⟩
  obtain ⟨hhp', hlp', hlfo', hind', hindOut', hevents⟩ := hsame
  refine ⟨_, _, rfl, rfl, hhp'.symm, hlp'.symm, hlfo'.symm, hind'.symm, hindOut'.symm, hevents.symm, fun hwf hwf' k hk => ?_⟩
  have hwritten := writeAout_mem_render_events hwf hk
  rw [← hevents] at hwritten
  exact ((traced_renderBlock (s := s'.start) hwf' rfl).holds _ hwritten).symm

end Sys2Proof.Machine
end

section
/-! sequencer (spec 44), in-range controls (44 R127, 40 R87): the three mapped words lie in their ranges, so the exponent of the pitch
lies in P5's range of EXP2, and the two frequencies between their bounds. -/

namespace Sys2Proof.Machine

open Binary32

/-! ### The mapped words -/

/-- A reading in the raw range is mapped into its output range, and is no NaN, so settling it changes nothing (40 R83). -/
theorem settle_mapLinearWord_within {r : Word × Word} (hr : r ∈ controlRanges) (eps : ℚ) (n : Nat) {raw : Word}
    (hlow : le 0x00000000#32 raw = true) (hhigh : le raw 0x3F53B646#32 = true) :
    le r.1 (settle n (Mapper.mapLinearWord (Num.binary32 eps) raw 0x00000000#32 0x3F53B646#32 r.1 r.2)) = true
      ∧ le (settle n (Mapper.mapLinearWord (Num.binary32 eps) raw 0x00000000#32 0x3F53B646#32 r.1 r.2)) r.2 = true := by
  obtain ⟨hout, hmaxOut, hrange, hslope, htop⟩ := controlRanges_spans r hr
  have hmin : isFinite 0x00000000#32 = true := by decide
  have hmax : isFinite 0x3F53B646#32 = true := by decide
  have hends : toRat 0x00000000#32 < toRat 0x3F53B646#32 := (lt_iff hmin hmax).mp (by decide)
  have hwithin := mapLinear_within_range hmin hmax hout (by decide) hslope hmaxOut hends ((le_iff hout hmaxOut).mp hrange) htop
    eps hlow hhigh
  rwa [mapLinearWord_of_sane (saneBounds_of_ne hmin hmax hends.ne), settle_of_not_nan n (le_iff_order.mp hwithin.1).2.1]

/-- A word between two finite words is a number between theirs. -/
theorem toRat_between {a b w : Word} (ha : isFinite a = true) (hb : isFinite b = true) (h : le a w = true)
    (h' : le w b = true) : isFinite w = true ∧ toRat a ≤ toRat w ∧ toRat w ≤ toRat b := by
  have hw := isFinite_of_between ha hb h h'
  exact ⟨hw, (le_iff ha hw).mp h, (le_iff hw hb).mp h'⟩

/-! ### The pitch -/

/-- The exponent of the pitch rises from -11/4 at note 27 to 21/4 at note 123, both exact (40 R84). -/
theorem exponent_within {nn : Word} (hlow : le 0x41D80000#32 nn = true) (hhigh : le nn 0x42F60000#32 = true) :
    isFinite (div (sub nn 0x42700000#32) 0x41400000#32) = true
      ∧ -11 / 4 ≤ toRat (div (sub nn 0x42700000#32) 0x41400000#32)
      ∧ toRat (div (sub nn 0x42700000#32) 0x41400000#32) ≤ 21 / 4 := by
  have hmin : isFinite 0x41D80000#32 = true := by decide
  have hmax : isFinite 0x42F60000#32 = true := by decide
  have hbot : div (sub 0x41D80000#32 0x42700000#32) 0x41400000#32 = 0xC0300000#32 := by decide
  have htop : div (sub 0x42F60000#32 0x42700000#32) 0x41400000#32 = 0x40A80000#32 := by decide
  have hrises : RisesOn (fun w => div (sub w 0x42700000#32) 0x41400000#32) 0x41D80000#32 0x42F60000#32 :=
    (risesOn_div (by decide) (by decide) (by decide) (by decide +kernel)).comp (f := fun w => sub w 0x42700000#32)
      (risesOn_sub hmin hmax (by decide)) hmin hmax
  have hstart := hrises _ nn (wordLe_refl (isNaN_of_isFinite hmin)) hlow hhigh
  have hend := hrises nn _ hlow hhigh (wordLe_refl (isNaN_of_isFinite hmax))
  dsimp only at hstart hend
  rw [hbot] at hstart
  rw [htop] at hend
  have hvalue : toRat 0xC0300000#32 = -11 / 4 ∧ toRat 0x40A80000#32 = 21 / 4 := by decide +kernel
  have h := toRat_between (by decide) (by decide) hstart hend
  rwa [hvalue.1, hvalue.2] at h

/-- A fourth root of a power of two, by its fourth power. -/
theorem rpow_div_four_pow (k : ℝ) : ((2 : ℝ) ^ (k / 4)) ^ 4 = 2 ^ k := by
  rw [← Real.rpow_natCast, ← Real.rpow_mul two_pos.le]
  congr 1
  push_cast
  ring

/-- The powers of two between the exponents of notes 27 and 123. -/
theorem two_rpow_within {x : ℝ} (hlow : -11 / 4 ≤ x) (hhigh : x ≤ 21 / 4) :
    1486 / 10000 ≤ (2 : ℝ) ^ x ∧ (2 : ℝ) ^ x ≤ 38056 / 1000 := by
  have hbot : (1486 / 10000 : ℝ) ≤ 2 ^ (-11 / 4 : ℝ) := by
    refine le_of_pow_le_pow_left₀ (n := 4) (by norm_num) (by positivity) ?_
    rw [rpow_div_four_pow]
    norm_num [Real.rpow_neg]
  have htop : (2 : ℝ) ^ (21 / 4 : ℝ) ≤ 38056 / 1000 := by
    refine le_of_pow_le_pow_left₀ (n := 4) (by norm_num) (by norm_num) ?_
    rw [rpow_div_four_pow]
    norm_num
  exact ⟨hbot.trans (Real.rpow_le_rpow_of_exponent_le one_le_two hlow),
    (Real.rpow_le_rpow_of_exponent_le one_le_two hhigh).trans htop⟩

section
variable {eps : ℚ} (heps : 1 / 2 ^ 23 ≤ eps) (heps' : eps ≤ 1 / 2 ^ 22)
include heps heps'

/-- P5 carries the bounds over to the block's EXP2. -/
theorem exp2_within {x : Word} (hx : isFinite x = true) (hlow : -11 / 4 ≤ toRat x) (hhigh : toRat x ≤ 21 / 4) :
    isFinite (Elementary.exp2 eps x) = true ∧ 14859 / 100000 ≤ toRat (Elementary.exp2 eps x)
      ∧ toRat (Elementary.exp2 eps x) ≤ 380561 / 10000 := by
  obtain ⟨hfin, hnear⟩ := Elementary.exp2_accurate heps hx (decide_eq_true ⟨by linarith, by linarith⟩)
  have hxlow : (-11 / 4 : ℝ) ≤ toRat x := by simpa using (Rat.cast_le (K := ℝ)).mpr hlow
  have hxhigh : (toRat x : ℝ) ≤ 21 / 4 := by simpa using (Rat.cast_le (K := ℝ)).mpr hhigh
  have hepsR : (eps : ℝ) ≤ 1 / 2 ^ 22 := by simpa using (Rat.cast_le (K := ℝ)).mpr heps'
  obtain ⟨hbot, htop⟩ := two_rpow_within hxlow hxhigh
  have herr : (eps : ℝ) * 2 ^ (toRat x : ℝ) ≤ 1 / 2 ^ 22 * (38056 / 1000) := by gcongr
  obtain ⟨hnear1, hnear2⟩ := abs_le.mp (hnear.trans herr)
  have hlowR : ((14859 / 100000 : ℚ) : ℝ) ≤ toRat (Elementary.exp2 eps x) := by push_cast; linarith
  have hhighR : (toRat (Elementary.exp2 eps x) : ℝ) ≤ ((380561 / 10000 : ℚ) : ℝ) := by push_cast; linarith
  exact ⟨hfin, by exact_mod_cast hlowR, by exact_mod_cast hhighR⟩

/-- The pitch of an in-range note lies between 65 and 16745 Hz, its own rounding included (40 R87). -/
theorem pitch_within {nn : Word} (hlow : le 0x41D80000#32 nn = true) (hhigh : le nn 0x42F60000#32 = true) :
    isFinite (mul 0x43DC0000#32 (Elementary.exp2 eps (div (sub nn 0x42700000#32) 0x41400000#32))) = true
      ∧ 65 ≤ toRat (mul 0x43DC0000#32 (Elementary.exp2 eps (div (sub nn 0x42700000#32) 0x41400000#32)))
      ∧ toRat (mul 0x43DC0000#32 (Elementary.exp2 eps (div (sub nn 0x42700000#32) 0x41400000#32))) ≤ 16745 := by
  obtain ⟨hx, hx1, hx2⟩ := exponent_within hlow hhigh
  obtain ⟨he, he1, he2⟩ := exp2_within heps heps' hx hx1 hx2
  generalize Elementary.exp2 eps (div (sub nn 0x42700000#32) 0x41400000#32) = e at *
  have href : toRat 0x43DC0000#32 = 440 := by decide +kernel
  have h := mul_roundsTo (a := 0x43DC0000#32) (by decide) he
  rw [href] at h
  obtain ⟨hfin, herr⟩ := h.error_of_normal (le_trans (by norm_num) (by linarith : 1 ≤ 440 * toRat e))
    (lt_of_le_of_lt (by linarith : 440 * toRat e ≤ 20000) (by norm_num [overflowBound]))
  obtain ⟨herr1, herr2⟩ := abs_le.mp herr
  exact ⟨hfin, by linarith, by linarith⟩

end

/-! ### The low-pass frequency -/

/-- The clamped sum of a base of at least 65 Hz and a width of at least 20 Hz lies between 85 and 19900 Hz (40 R87). -/
theorem lpFreqWord_within {cfg : Cfg} (hceil : cfg.lpCeil = 0x469B7800#32) {b w : Word} (hb : isFinite b = true)
    (hw : isFinite w = true) (hb1 : 65 ≤ toRat b) (hw1 : 20 ≤ toRat w) : isFinite (Mapper.lpFreqWord cfg b w) = true
      ∧ 85 ≤ toRat (Mapper.lpFreqWord cfg b w) ∧ toRat (Mapper.lpFreqWord cfg b w) ≤ 19900 := by
  have hvalue : toRat 0x42AA0000#32 = 85 ∧ toRat 0x469B7800#32 = 19900 := by decide +kernel
  have hlow : le 0x42AA0000#32 (Mapper.lpFreqWord cfg b w) = true := by
    rw [lpFreqWord_eq]
    split
    · exact (roundsTo_self (by decide)).le (add_roundsTo hb hw) (by rw [hvalue.1]; linarith)
    · rw [hceil]
      decide
  have hhigh : le (Mapper.lpFreqWord cfg b w) 0x469B7800#32 = true := hceil ▸ lpFreqWord_le_ceil (hceil ▸ by decide) b w
  have h := toRat_between (by decide) (by decide) hlow hhigh
  rwa [hvalue.1, hvalue.2] at h

/-! ### The contract -/

theorem mapControls_readControls (t : Nat) (s : State) :
    (mapControls (readControls t s).1 (readControls t s).2).1 = (mapControls (readings t s) s).1 := by
  have hread := readControls_amid s s.aout s.response s.events s.host t
  rw [show readControls t s = _ from hread, mapControls_amid]

/-- A raw reading in [RAW_MIN, RAW_MAX] of 00 R12. -/
def RawInRange (w : Word) : Prop := le 0x00000000#32 w = true ∧ le w 0x3F53B646#32 = true

section
variable {raw : Word × Word × Word} {s : State} (hmaps : s.cfg.MapsAsGiven)
include hmaps

/-- Note number, width and Q of in-range readings are in the ranges of 40 R87. -/
theorem mappedWords_within (hf : RawInRange raw.1) (hw : RawInRange raw.2.1) (hq : RawInRange raw.2.2) :
    (le 0x41D80000#32 (noteOf raw s).1 = true ∧ le (noteOf raw s).1 0x42F60000#32 = true)
      ∧ (le 0x41A00000#32 (widthOf raw s).1 = true ∧ le (widthOf raw s).1 0x453B8000#32 = true)
      ∧ le 0x3F19999A#32 (qOf raw s).1 = true ∧ le (qOf raw s).1 0x40A00000#32 = true := by
  rw [noteOf_value, widthOf_value, qOf_value, hmaps.rawMin, hmaps.rawMax, hmaps.nnLo, hmaps.nnHi, hmaps.wLo, hmaps.wHi,
    hmaps.qLo, hmaps.qHi]
  exact ⟨settle_mapLinearWord_within (r := (_, _)) (by simp [controlRanges]) _ _ hf.1 hf.2,
    settle_mapLinearWord_within (r := (_, _)) (by simp [controlRanges]) _ _ hw.1 hw.2,
    settle_mapLinearWord_within (r := (_, _)) (by simp [controlRanges]) _ _ hq.1 hq.2⟩

/-- The pitch of an in-range note is a number, so NN2HZ answers it as it is. -/
theorem pitchOf_within (heps : 1 / 2 ^ 23 ≤ s.cfg.epsT) (heps' : s.cfg.epsT ≤ 1 / 2 ^ 22)
    (hlow : le 0x41D80000#32 (noteOf raw s).1 = true) (hhigh : le (noteOf raw s).1 0x42F60000#32 = true) :
    isFinite (pitchOf raw s).1 = true ∧ 65 ≤ toRat (pitchOf raw s).1 ∧ toRat (pitchOf raw s).1 ≤ 16745 := by
  have h := pitch_within heps heps' hlow hhigh
  rwa [pitchOf_value, noteToHzWord_eq, hmaps.fRef, hmaps.nnRef, hmaps.semis, settle_of_not_nan _ (isNaN_of_isFinite h.1)]

end

/-- Settles O56: the three mapped words and the two frequencies are in their ranges, which lie inside the contract. -/
theorem inRangeControlsMeetTheContract : Obligations.InRangeControlsMeetTheContract := by
  intro t s hmaps hwire hfs hfsHigh heps heps' hraw
  obtain ⟨⟨hnote1, hnote2⟩, ⟨hwidth1, hwidth2⟩, hq1, hq2⟩ := mappedWords_within (raw := readings t s) hmaps
    (hraw 0 (by omega)) (hraw 1 (by omega)) (hraw 2 (by omega))
  obtain ⟨hbase, hbase1, hbase2⟩ := pitchOf_within hmaps heps heps' hnote1 hnote2
  obtain ⟨hwidth, hwidthLow, -⟩ := toRat_between (by decide) (by decide) hwidth1 hwidth2
  obtain ⟨hqfin, hqLow, -⟩ := toRat_between (by decide) (by decide) hq1 hq2
  have hwidthValue : toRat 0x41A00000#32 = 20 := by decide +kernel
  have hqValue : 0 < toRat 0x3F19999A#32 := by decide +kernel
  obtain ⟨hlp, hlp1, hlp2⟩ := lpFreqWord_within hmaps.lpCeil hbase hwidth hbase1 (hwidthValue ▸ hwidthLow)
  have hqPos : 0 < toRat (qOf (readings t s) s).1 := hqValue.trans_le hqLow
  rw [mapControls_readControls, mapControls_eq, baseOf_of_unwired _ _ hwire]
  exact ⟨⟨hbase, hqfin, hfs, by linarith, by linarith, hqPos⟩, ⟨hlp, hqfin, hfs, by linarith, by linarith, hqPos⟩,
    hq1, hq2, hbase1, hbase2, hlp1, hlp2⟩

end Sys2Proof.Machine
end

section
/-! What IEEE 754 gives beyond the finite numbers (60 R140, 00 R8): an infinite word is the infinity of its sign, and an infinity, a zero
divisor or a NaN leaves one branch of each operation. -/

namespace Sys2Proof.Binary32

variable {a v w z : Word}

/-! ### An infinite word -/

theorem eq_inf_of_isInf (hv : isInf v = true) : v = inf (signBit v) := by
  have hbits : v.toNat % 2 ^ 31 = infBits := by
    simp only [isInf, expo_eq, frac_eq, Bool.and_eq_true, beq_iff_eq] at hv
    rw [infBits]
    omega
  rw [inf, ← hbits, pack_eta]

theorem isNaN_of_isInf (hv : isInf v = true) : isNaN v = false := by
  rw [eq_inf_of_isInf hv]
  cases signBit v <;> decide

theorem isZero_of_isInf (hv : isInf v = true) : isZero v = false := by
  rw [eq_inf_of_isInf hv]
  cases signBit v <;> decide

theorem order_of_isInf (hv : isInf v = true) : order v = if signBit v then -(infBits : ℤ) else infBits := by
  rw [eq_inf_of_isInf hv]
  cases signBit v <;> decide

@[simp] theorem isInf_neg (w : Word) : isInf (neg w) = isInf w := by simp [isInf]

theorem neg_of_isInf (hv : isInf v = true) : neg v = inf (!signBit v) := by
  rw [eq_inf_of_isInf ((isInf_neg v).trans hv), signBit_neg]

/-- A word that is no NaN is finite or an infinity. -/
theorem isFinite_or_isInf (ha : isNaN a = false) : isFinite a = true ∨ isInf a = true := by
  simp only [isNaN, isFinite, isInf, Bool.and_eq_false_iff, Bool.and_eq_true, beq_eq_false_iff_ne, bne_eq_false_iff_eq,
    bne_iff_ne, beq_iff_eq] at *
  tauto

/-! ### Products and quotients without an invalid operation -/

/-- A product with an infinite factor and no zero is the infinity of its sign. -/
theorem mul_of_isInf (ha : isNaN a = false) (hv : isNaN v = false) (hinf : isInf a = true ∨ isInf v = true)
    (ha0 : isZero a = false) (hv0 : isZero v = false) : mul a v = inf (signBit a != signBit v) := by
  rw [mul, if_neg (by simp [ha, hv]), if_pos (by simpa using hinf), if_neg (by simp [ha0, hv0])]

theorem div_of_isInf_left (hv : isInf v = true) (ha : isFinite a = true) : div v a = inf (signBit v != signBit a) := by
  rw [div, if_neg (by simp [isNaN_of_isInf hv, isNaN_of_isFinite ha]), if_pos hv, if_neg (by simp [isInf_of_isFinite ha])]

theorem div_of_isInf_right (ha : isFinite a = true) (hv : isInf v = true) :
    div a v = if signBit a = signBit v then posZero else negZero := by
  rw [div, if_neg (by simp [isNaN_of_isFinite ha, isNaN_of_isInf hv]), if_neg (by simp [isInf_of_isFinite ha]), if_pos hv]
  cases signBit a <;> cases signBit v <;> rfl

/-- A number other than zero, infinite or not, over a zero is the infinity of the quotient's sign. -/
theorem div_of_isZero_right (ha : isNaN a = false) (ha0 : isZero a = false) (hz : isZero z = true) :
    div a z = inf (signBit a != signBit z) := by
  have hzfin := isFinite_of_isZero hz
  rcases isFinite_or_isInf ha with hfin | hinf
  · rw [div, if_neg (by simp [ha, isNaN_of_isZero hz]), if_neg (by simp [isInf_of_isFinite hfin]),
      if_neg (by simp [isInf_of_isFinite hzfin]), if_pos hz, if_neg (by simp [ha0])]
  · exact div_of_isInf_left hinf hzfin

/-! ### An infinity and a finite word -/

section
variable (ha : isFinite a = true) (hv : isInf v = true)
include ha hv

theorem add_of_isInf_right : add a v = v := by
  rw [add, if_neg (by simp [isNaN_of_isFinite ha, isNaN_of_isInf hv]), if_neg (by simp [isInf_of_isFinite ha]), if_pos hv]

theorem add_of_isInf_left : add v a = v := by
  rw [add, if_neg (by simp [isNaN_of_isFinite ha, isNaN_of_isInf hv]), if_pos hv, if_neg (by simp [isInf_of_isFinite ha])]

theorem sub_of_isInf_right : sub a v = inf (!signBit v) := by
  rw [sub, add_of_isInf_right ha ((isInf_neg v).trans hv), neg_of_isInf hv]

theorem sub_of_isInf_left : sub v a = v := add_of_isInf_left ((isFinite_neg a).trans ha) hv

/-- The infinities are the ends of the order: the order is that of the words' bits, and a finite word's are fewer. -/
theorem compare_isInf_isFinite :
    lt v a = signBit v ∧ lt a v = !signBit v ∧ le v a = signBit v ∧ le a v = !signBit v := by
  have hbound := (isFinite_iff_order a).mp ha
  rw [infBits] at hbound
  simp only [lt, le, isNaN_of_isFinite ha, isNaN_of_isInf hv, order_of_isInf hv]
  cases signBit v <;> (simp; omega)

end

/-! ### Two infinities, and the invalid operations -/

/-- The words of the two signs give four pairs, and each is evaluated. -/
theorem two_infinities (hv : isInf v = true) (hw : isInf w = true) :
    isNaN (div v w) = true
      ∧ (if signBit v = signBit w then add v w = v else isNaN (add v w) = true)
      ∧ (if signBit v = signBit w then isNaN (sub v w) = true else sub v w = v)
      ∧ mul v w = inf (signBit v != signBit w)
      ∧ lt v w = (signBit v && !signBit w) ∧ le v w = (signBit v || !signBit w) := by
  obtain ⟨s, rfl⟩ : ∃ s, v = inf s := ⟨_, eq_inf_of_isInf hv⟩
  obtain ⟨t, rfl⟩ : ∃ t, w = inf t := ⟨_, eq_inf_of_isInf hw⟩
  clear hv hw
  revert s t
  decide

theorem isNaN_div_of_isZero (ha : isZero a = true) (hz : isZero z = true) : isNaN (div a z) = true := by
  rcases (isZero_iff_signed a).mp ha with rfl | rfl <;> rcases (isZero_iff_signed z).mp hz with rfl | rfl <;> decide

theorem isNaN_mul_of_isInf_isZero (hv : isInf v = true) (hz : isZero z = true) : isNaN (mul v z) = true := by
  rw [mul, if_neg (by simp [isNaN_of_isInf hv, isNaN_of_isZero hz]), if_pos (by simp [hv]), if_pos (by simp [hz])]
  exact Machine.isNaN_nan

/-! ### Comparisons with a NaN -/

theorem compare_isNaN (hw : isNaN w = true) (a : Word) :
    lt a w = false ∧ lt w a = false ∧ le a w = false ∧ le w a = false := by
  simp [lt, le, hw]

/-- Settles O15, clause by clause: one branch of each operation for an infinity, a zero divisor or a NaN. -/
theorem ieeeDefaultResults : Obligations.IeeeDefaultResults := by
  refine ⟨fun a z => div_of_isZero_right, fun z z' => isNaN_div_of_isZero,
    fun z v hz hv => ⟨isNaN_mul_of_isZero_isInf hz hv, isNaN_mul_of_isInf_isZero hv hz⟩, fun v w => two_infinities,
    fun a v ha hv => ?_, fun a n hn => ⟨?_, compare_isNaN hn a⟩⟩
  · have hanan := isNaN_of_isFinite ha
    have hvnan := isNaN_of_isInf hv
    have hv0 := isZero_of_isInf hv
    exact ⟨add_of_isInf_right ha hv, add_of_isInf_left ha hv, sub_of_isInf_left ha hv, sub_of_isInf_right ha hv,
      fun ha0 => ⟨mul_of_isInf hanan hvnan (.inr hv) ha0 hv0,
        (mul_of_isInf hvnan hanan (.inl hv) hv0 ha0).trans (by rw [bne_comm])⟩,
      div_of_isInf_left hv ha, div_of_isInf_right ha hv, compare_isInf_isFinite ha hv⟩
  · simp only [List.forall_mem_cons]
    exact ⟨⟨isNaN_add (.inr hn), isNaN_add (.inl hn)⟩, ⟨isNaN_sub (.inr hn), isNaN_sub (.inl hn)⟩,
      ⟨isNaN_mul (.inr hn), isNaN_mul (.inl hn)⟩, ⟨isNaN_div (.inr hn), isNaN_div (.inl hn)⟩, fun _ h => nomatch h⟩

end Sys2Proof.Binary32
end

section
/-! Responses (60 R140, R142, R154): every command ends with status `OK`, a header that does not decode is answered and does nothing
else, and a block with no host action to come stays as it is. -/

namespace Sys2Proof.Machine

variable {s t : State}

/-- The response of a command: status `OK` and its results. -/
theorem exec_response {i : Instr} (h : exec i s = .next t) : ∃ results, t.response = some (.of .ok results) := by
  by_cases hi : i = .render
  · subst hi
    cases h
    exact ⟨[], rfl⟩
  · exact (exec_unitKept h hi).response

theorem runCommand_of_error {c : Command} {e : DecodeError} (he : decode c = .error e) (s : State) :
    runCommand c s = .next (raiseIllegal s) := by
  rw [runCommand, he]

/-- Settles O7: the command is answered by `raiseIllegal`, which writes the response and clears the port events, and a command that
decodes by its own response. -/
theorem illegalCommandOnlyAnswers : Obligations.IllegalCommandOnlyAnswers := by
  refine ⟨fun s c p rest e hlegal hhost he => ?_, fun i s t h => ?_⟩
  · obtain ⟨t, ht, hstep⟩ := step_of_command hhost
    cases (runCommand_of_error he (accept p rest s)).symm.trans ht
    rw [if_pos hlegal] at hstep
    exact ⟨_, hstep, rfl, rfl, rfl, rfl, rfl, rfl, rfl, rfl, rfl, rfl, rfl, rfl⟩
  · obtain ⟨results, hresponse⟩ := exec_response h
    exact ⟨_, hresponse, rfl⟩

/-- Settles O8: every command answers a next state, with its own response. -/
theorem everyCommandCompletesOk : Obligations.EveryCommandCompletesOk := by
  intro i s
  obtain ⟨t, h⟩ := exec_next i s
  obtain ⟨results, hresponse⟩ := exec_response h
  exact ⟨t, _, _, _, _, _, h, hresponse.trans (congrArg some (response_of_ok results))⟩

/-- Settles O13: the answer of a step with no host action. -/
theorem theBlockWaitsForACommand : Obligations.TheBlockWaitsForACommand := fun _ => step_of_idle

end Sys2Proof.Machine
end

section
/-! Reset (70 R160 to R162; 00 R12): `FS_LFO` is one rounded quotient, the registers of a reset are fresh whatever the host's side
and `AOUT` hold, and every port event of an abandoned command is one of the instruction it decodes to. -/

namespace Sys2Proof

/-- The two of the checks of a legal record that `FS_LFO` rests on (10 R29). -/
theorem Cfg.fs_isFinite_and_k_pos_of_legal {c : Cfg} (h : c.legal = true) : Binary32.isFinite c.fs = true ∧ 0 < c.k := by
  have hnot := (Cfg.legal_eq_false_iff c).not.mp (by simp [h])
  push Not at hnot
  obtain ⟨hk, -, -, hfs, -⟩ := hnot
  exact ⟨Bool.of_not_eq_false hfs, Nat.pos_of_ne_zero hk⟩

namespace Binary32

/-- Division of a finite word by a positive integer is rounded once (00 R12). -/
theorem divNat_roundsTo {w : Word} {k : Nat} (hw : isFinite w = true) (hk : 0 < k) : RoundsTo (toRat w / k) (divNat w k) := by
  have hround : divNat w k = round (signBit w) (mag w) k := by
    simp [divNat, isNaN_of_isFinite hw, isInf_of_isFinite hw, hk.ne']
  rw [hround]
  exact round_roundsTo _ _ hk _ (by rw [toRat_eq]; ring)

end Binary32

namespace Machine

variable {s t : State}

/-- What a reset leaves standing is no register (70 R160, log 14). -/
theorem freshFrom_of_hostSide (cfg : Cfg) (rest : List HostAction) (p : BlockInputs) (m : Memory) (n : Nat) :
    FreshFrom cfg { State.resetWith cfg with host := rest, inputs := p, aout := m, draws := n } :=
  { freshFrom_resetWith cfg with }

/-- A command that makes a port event is one that decodes. -/
theorem exec_of_mem_events {c : Command} {e : PortEvent} (h : runCommand c s = .next t) (he : e ∈ t.events) :
    ∃ i, decode c = .ok i ∧ exec i s = .next t := by
  cases hd : decode c with
  | ok i => exact ⟨i, rfl, by rwa [runCommand, hd] at h⟩
  | error d =>
    cases (runCommand_of_error hd s).symm.trans h
    exact absurd he List.not_mem_nil

/-- Settles O12: both resets leave the fresh registers; between commands `AOUT` is not touched, and in a command's middle it holds
those of the command's writes that had landed. -/
theorem resetClearsWhateverStood : Obligations.ResetClearsWhateverStood := by
  intro s cfg rest hlegal
  obtain ⟨hfs, hk⟩ := Cfg.fs_isFinite_and_k_pos_of_legal hlegal
  refine ⟨rfl, Binary32.divNat_roundsTo hfs hk, fun hhost => ?_, fun c p hs hwf hhost => ?_⟩
  · exact ⟨applyReset cfg rest s, by rw [step_of_reset hhost, if_pos hlegal], freshFrom_of_hostSide .., rfl, fun _ => rfl⟩
  · obtain ⟨u, hu, hstep⟩ := step_of_abandoned hhost
    rw [if_pos (by simp [hs, hlegal])] at hstep
    refine ⟨_, hstep, freshFrom_of_hostSide .., rfl, fun a => ?_⟩
    refine ((landedWrites_spec u.draws u.events 0 s.aout hwf).2 a).imp id fun hmem => ?_
    obtain ⟨i, hi, hexec⟩ := exec_of_mem_events hu hmem
    exact ⟨i, u, hi, hexec, hmem⟩

end Machine

end Sys2Proof
end
